-- ==== Sys2Proof/Word.lean ====
section
/-! DEFINITION. The two word types of the block: the 32-bit word of the host bus, of the control registers and of
the word windows (00_scope.md rule R6, `BUS_W`, `CNT_W`, `W_W`), and the byte of `DATA`, `PACK` and the symbol
alphabet (rule R5). -/

namespace Sys2Proof

/-- A 32-bit bus word (R6 `BUS_W`, R61). -/
abbrev Word := BitVec 32

/-- One byte, also one symbol of the alphabet 0 .. 255 (R5). -/
abbrev Byte := BitVec 8

end Sys2Proof
end

