-- ==== Sys2Proof/Config.lean ====
section
/-! DEFINITION. What is fixed for every instance of the block: the parameters of 00_scope.md rule R6, the two
hard-wired identification values of rule R2, and the values the spec leaves open (opaque constants, so that no proof
can see what they are). -/

namespace Sys2Proof

/-- `NSYM`: the symbols are 0 .. 255 (R5, R6). -/
abbrev Config.nsym : Nat := 256

/-- `DATA_BYTES`: capacity of the data buffer in bytes (R6). -/
abbrev Config.dataBytes : Nat := 65536

/-- `PACK_BYTES`: capacity of the packed-bit buffer in bytes (R6). -/
abbrev Config.packBytes : Nat := 65536

/-- `MAX_BITS` = 8 × `PACK_BYTES`: the largest meaningful bit count that fits (R6). -/
abbrev Config.maxBits : Nat := 524288

/-- `NNODE`: entries of the node RAM (R6). -/
abbrev Config.nnode : Nat := 511

/-- `NSTEP`: entries of the build trace (R6). -/
abbrev Config.nstep : Nat := 255

/-- `MAXLEN`: the longest code length (R6). -/
abbrev Config.maxLen : Nat := 255

/-- The host aperture is 0x40000 bytes (R6 `OFF_W` = 18, R60). -/
abbrev Config.apertureBytes : Nat := 0x40000

/-- The constant the `ID` register reads: the bytes "HUFF" (R2). -/
abbrev Config.idValue : Word := 0x48554646#32

/-- The constant the `VERSION` register reads (R2). -/
abbrev Config.versionValue : Word := 0x00000001#32

/-- FREE VALUE. The value of the n-th host read that rule R66 leaves unspecified (a read, while the engine is busy, of a
location outside the seven safe registers): "a fresh draw, under no law". `n` is the counter `State.draws`.
DESIGN CHOICE (log entry 1): safe. -/
opaque Config.freeBusRead : Nat → Word

/-- OPEN PARAMETER. `HUFFCORE_BASE`: where the platform places the aperture in the host's address space (R60, R254;
93_implementation_defined.md US8). Nothing inside the block reads it. Log entry 2: safe. -/
opaque Config.huffcoreBase : Nat

/-- The host address of a byte offset of the aperture: the only use of the platform's base (R60). -/
def Config.hostAddress (off : Nat) : Nat := Config.huffcoreBase + off

end Sys2Proof
end

