-- ==== Sys2Proof/Syntax.lean ====
section
/-! DEFINITION. The commands of the block, its instructions: one constructor per row of spec/opcode_table.json
(30_encoding.md rule R92). No command has an operand field (rule R91). -/

namespace Sys2Proof

/-- The twelve commands (R92). -/
inductive Instr where
  | nop     -- 0x00, R220
  | srst    -- 0x01, R221
  | hclr    -- 0x10, R121
  | hacc    -- 0x11, R122
  | build   -- 0x20, R141
  | genc    -- 0x30, R160
  | cclr    -- 0x31, R161
  | pack    -- 0x40, R181
  | unpack  -- 0x50, R188
  | crc     -- 0x60, R211
  | encode  -- 0x70, R225
  | decode  -- 0x71, R228
  deriving DecidableEq, Repr

end Sys2Proof
end

