-- ==== Sys2Proof/HostSyntax.lean ====
section
/-! DEFINITION. What the outside world can do to the block: the host's bus transactions (20_memory.md rule R61), the
three agents' steps (00_scope.md rule R8) and the host-program notation (30_encoding.md rules R98 and R99), as data. -/

namespace Sys2Proof

/-- One host bus transaction at a byte offset into the aperture, with its width in bits (R8, R61). Only width 32 at an
offset that is a multiple of four is served; everything else is a bus error. -/
inductive Transaction where
  | read  (off : Nat) (width : Nat)
  | write (off : Nat) (width : Nat) (v : Word)
  deriving DecidableEq, Repr

/-- A turn of one of the two agents of R8 other than the host. `engine` is a turn in which the engine takes its enabled
step, if it has one; `reset` asserts the reset input. -/
inductive Turn where
  | engine
  | reset
  deriving DecidableEq, Repr

/-- One turn of one of the three agents of R8: the list of turns in State fixes the interleaving that R95 and R271 leave
free. `wait` is the host at a `WAIT` (R99): it reads `STATUS` until bit 0 of the value read is 0, and `gaps` says which
turns of the other two agents come after its first, second, … read that had bit 0 = 1 (log entry 5). -/
inductive Event where
  | host (t : Transaction)
  | wait (gaps : List (List Turn))
  | engine
  | reset
  deriving DecidableEq, Repr

/-- The control registers (10_state.md section 3). -/
inductive Reg where
  | id | version | cmd | status | errInfo | cmdCount | irqEn | irqStatus
  | dataLen | bitCount | packLen | crcResult | crcExpect
  | numLeaves | numSteps | root | totalWeight | maxLen
  deriving DecidableEq, Repr

/-- A target of the host-program notation (R98). -/
inductive Target where
  | reg     (r : Reg)
  | freq    (s : Nat)            -- `FREQ[s]`
  | codeLen (s : Nat)            -- `CODE[s].LEN`
  | codeVal (s j : Nat)          -- `CODE[s].VAL<j>`
  | node    (i n : Nat)          -- `NODE[i].<n>`
  | trace   (k n : Nat)          -- `TRACE[k].<n>`
  | data    (b : Nat)            -- `DATA+<b>`
  | pack    (b : Nat)            -- `PACK+<b>`
  | literal (off : Nat)          -- `@<offset>`, any offset (log entry 17)
  deriving DecidableEq, Repr

/-- One line of a host program (R98), the pseudo-operations of R99 included. -/
inductive HostLine where
  | label   (name : String)
  | comment (text : String)
  | wr      (t : Target) (v : Word)
  | rd      (t : Target)
  | rdEq    (t : Target) (v : Word)     -- `RD t == v`
  | cmd     (m : Instr)                 -- `CMD m`
  | wait                                -- `WAIT`
  | ldbData (b : Nat) (bytes : List Byte)
  | ldbPack (b : Nat) (bytes : List Byte)
  | clrIrq
  deriving DecidableEq, Repr

end Sys2Proof
end

