-- ==== Sys2Proof/WellFormed.lean ====
section
/-! DEFINITION. Well-formedness of what the outside world writes down: a command (always well formed, rule R91: it has
no operand), a bus transaction (20_memory.md rule R61), a target and a line of a host program (30_encoding.md rules R98
and R99). The machine does not rest on these checks: an ill-formed transaction has the outcome rule R61 or R75 gives. -/

namespace Sys2Proof

/-- Every command is well formed: none has an immediate, a register selector or an address field (R91). -/
def Instr.wf (i : Instr) : Bool :=
  match i with
  | .nop | .srst | .hclr | .hacc | .build | .genc | .cclr | .pack | .unpack | .crc | .encode | .decode => true

/-- The transaction lies inside the aperture, is aligned and is 32 bits wide (R60, R61). -/
def Transaction.wf (t : Transaction) : Bool :=
  match t with
  | .read off width => decide (off < Config.apertureBytes) && off % 4 == 0 && width == 32
  | .write off width _ => decide (off < Config.apertureBytes) && off % 4 == 0 && width == 32

/-- The target names an existing entry; `DATA+<b>` and `PACK+<b>` need b a multiple of 4 (R98). DESIGN CHOICE (log entry
17): R98 sets no bound on a literal offset `@<offset>`; this check calls one well formed when it is a multiple of four
inside the aperture. Nothing of the machine rests on it: every literal offset expands to its transaction. -/
def Target.wf (t : Target) : Bool :=
  match t with
  | .reg _ => true
  | .freq s => decide (s < Config.nsym)
  | .codeLen s => decide (s < Config.nsym)
  | .codeVal s j => decide (s < Config.nsym) && decide (j < 8)
  | .node i n => decide (i < Config.nnode) && decide (n < 4)
  | .trace k n => decide (k < Config.nstep) && decide (n < 4)
  | .data b => decide (b < Config.dataBytes) && b % 4 == 0
  | .pack b => decide (b < Config.packBytes) && b % 4 == 0
  | .literal off => decide (off < Config.apertureBytes) && off % 4 == 0

/-- The line's targets are well formed, and `LDB` starts at a multiple of 4 (R98, R99). DESIGN CHOICE (log entry 17): R99
sets no bound on the bytes of an `LDB`; this check asks that they stay in the window. -/
def HostLine.wf (l : HostLine) : Bool :=
  match l with
  | .label _ | .comment _ | .cmd _ | .wait | .clrIrq => true
  | .wr t _ | .rd t | .rdEq t _ => t.wf
  | .ldbData b bytes => b % 4 == 0 && decide (b + bytes.length ≤ Config.dataBytes)
  | .ldbPack b bytes => b % 4 == 0 && decide (b + bytes.length ≤ Config.packBytes)

end Sys2Proof
end

