-- ==== Sys2Proof/Decode.lean ====
section
/-! DEFINITION. Decoding a 32-bit command word and encoding a command (30_encoding.md rules R90, R92 and R93). The word
is whole: it comes over the bus in one write to `CMD`, so no byte order enters. -/

namespace Sys2Proof

/-- Why a word is no command (R93). -/
inductive DecodeReject where
  | reservedNonzero      -- bits 31:8 (`RSV`) are not all zero
  | opcodeUnassigned     -- `RSV` = 0 and the opcode is not in the table of R92
  deriving DecidableEq, Repr

/-- `OPCODE`, bits 7:0 (R90). -/
def opcodeField (w : Word) : Byte := w.extractLsb' 0 8

/-- `RSV`, bits 31:8 (R90). -/
def rsvField (w : Word) : BitVec 24 := w.extractLsb' 8 24

/-- The opcode map of R92: the command of an opcode. -/
def opcodeCommand (op : Byte) : Option Instr :=
  match op.toNat with
  | 0x00 => some .nop
  | 0x01 => some .srst
  | 0x10 => some .hclr
  | 0x11 => some .hacc
  | 0x20 => some .build
  | 0x30 => some .genc
  | 0x31 => some .cclr
  | 0x40 => some .pack
  | 0x50 => some .unpack
  | 0x60 => some .crc
  | 0x70 => some .encode
  | 0x71 => some .decode
  | _ => none

/-- The command of a word, or why it is illegal (R90, R92, R93). Total on all 2^32 words. -/
def decode (w : Word) : Except DecodeReject Instr :=
  if rsvField w ≠ 0 then .error .reservedNonzero
  else match opcodeCommand (opcodeField w) with
    | some i => .ok i
    | none => .error .opcodeUnassigned

/-- The opcode of a command (R92). -/
def commandOpcode (i : Instr) : Byte :=
  match i with
  | .nop => 0x00
  | .srst => 0x01
  | .hclr => 0x10
  | .hacc => 0x11
  | .build => 0x20
  | .genc => 0x30
  | .cclr => 0x31
  | .pack => 0x40
  | .unpack => 0x50
  | .crc => 0x60
  | .encode => 0x70
  | .decode => 0x71

/-- The command word of a command: `RSV` = 0, `OPCODE` from the table (R90, R92). -/
def encode (i : Instr) : Word := (commandOpcode i).setWidth 32

/-- The command the decoder reads from a table word of `nbits` bits, every bit above them zero. Every row of the table
has 32 bits. -/
def decodeTableWord (nbits w : Nat) : Option Instr :=
  (decode (BitVec.ofNat 32 (w % 2 ^ nbits))).toOption

end Sys2Proof
end

