-- ==== Sys2Proof/Machine/State.lean ====
section
/-! DEFINITION. The state of the block as plain data (10_state.md), the state right after reset (rule R45,
70_reset_and_hazards.md rule R270), and the two closed types of reasons a step can stop. -/

namespace Sys2Proof.Machine

/-- `PHASE` of the engine (R22). -/
inductive Phase where
  | idle | busy | init
  deriving DecidableEq, Repr

/-- The fourteen error codes (60_exceptions.md rule R242; 93_implementation_defined.md US10). -/
inductive ErrCode where
  | none | illegalCmd | lenRange | freqOverflow | emptyTable | weightOverflow | noTree | noCode
  | packOverflow | packLenRange | invalidCodeTable | malformedBitstream | outputOverflow | integrityFailure
  deriving DecidableEq, Repr

/-- One entry of `NODE` (R39). Its res0 bits are not stored: they read 0. -/
structure Node where
  w     : Word
  valid : Bool
  leaf  : Bool
  sym   : Byte
  left  : BitVec 9
  right : BitVec 9
  deriving DecidableEq, Repr

/-- One entry of `TRACE` (R40). Its res0 bits are not stored: they read 0. -/
structure TraceEntry where
  wl    : Word
  wr    : Word
  ws    : Word
  li    : BitVec 9
  ri    : BitVec 9
  ni    : BitVec 9
  valid : Bool
  deriving DecidableEq, Repr

/-- One entry of `CODE` (R41): `LEN` and `VAL`. -/
structure CodeEntry where
  len : Byte
  val : BitVec 256
  deriving DecidableEq, Repr

/-- The all-zero entries: what an entry of a RAM that is not listed reads as (R39, R40, R45). -/
abbrev Node.zero : Node := { w := 0#32, valid := false, leaf := false, sym := 0#8, left := 0#9, right := 0#9 }
abbrev TraceEntry.zero : TraceEntry :=
  { wl := 0#32, wr := 0#32, ws := 0#32, li := 0#9, ri := 0#9, ni := 0#9, valid := false }
abbrev CodeEntry.zero : CodeEntry := { len := 0#8, val := 0#256 }

/-- A RAM as the list of its entries that differ from the all-zero entry, by strictly rising index. -/
abbrev Ram (α : Type) := List (Nat × α)

/-- A byte RAM: `DATA` or `PACK`. -/
abbrev Memory := List Host.Cell

/-- The response of a bus transaction (R61). -/
inductive BusResp where
  | ok | error
  deriving DecidableEq, Repr

/-- What the bus port gave the host for a transaction (R8, R61). -/
inductive BusReply where
  | read (resp : BusResp) (data : Word)
  | write (resp : BusResp)
  deriving DecidableEq, Repr

/-- A fault of the MODEL (the block itself raises none: its errors are command outcomes, R240).
`treeWalkUnending`: raised by GENC (and by ENCODE, which runs it) when the walk of R160 meets a path longer than
`NNODE` nodes, so `NODE` and `ROOT` hold no tree and the spec's recursion has no end. No state a run reaches does
that (the tree invariant of Safety.lean). SAFE: the model stops where the spec gives no result. Log entry 3. -/
inductive Fault where
  | treeWalkUnending
  deriving DecidableEq, Repr

/-- A refusal of the model.
`notModelled`: exec's arm of an instruction without a meaning (none is left). SAFE.
`outsideAperture`: a host transaction at an offset of 0x40000 or above, raised by the bus port; "a model refuses them"
(20_memory.md rule R75). SAFE. Log entry 4. -/
inductive Refusal where
  | notModelled (mnemonic : String)
  | outsideAperture (off : Nat)
  deriving DecidableEq, Repr

/-- The whole state: what the spec gives the block (10_state.md), then the model's own three fields: the bus port's last
reply (an output, R8), the turns still to come from outside (an input), and the counter of free reads. `STATUS.BUSY`
and `STATUS.INIT` are views of `phase` (R22); `ID` and `VERSION` are hard-wired constants (R2) and need no field. -/
structure State where
  phase       : Phase        -- `PHASE` (R22)
  pending     : Word         -- `PENDING` (R22)
  lastCmd     : Word         -- `LAST_CMD`, read back at `CMD` (R24)
  done        : Bool         -- `STATUS.DONE` (R25)
  err         : Bool         -- `STATUS.ERR` (R25)
  empty       : Bool         -- `STATUS.EMPTY` (R25)
  treeValid   : Bool         -- `STATUS.TREE_VALID` (R25)
  overrun     : Bool         -- `STATUS.OVERRUN` (R25)
  errCode     : ErrCode      -- `STATUS.ERR_CODE` (R25)
  errInfo     : Word         -- `ERR_INFO` (R26)
  cmdCount    : Word         -- `CMD_COUNT` (R27)
  doneIe      : Bool         -- `IRQ_EN.DONE_IE` (R28)
  errIe       : Bool         -- `IRQ_EN.ERR_IE` (R28)
  doneIp      : Bool         -- `IRQ_STATUS.DONE_IP` (R29)
  errIp       : Bool         -- `IRQ_STATUS.ERR_IP` (R29)
  dataLen     : Word         -- `DATA_LEN` (R30)
  bitCount    : Word         -- `BIT_COUNT` (R31)
  packLen     : Word         -- `PACK_LEN` (R32)
  crcResult   : Word         -- `CRC_RESULT` (R33)
  crcExpect   : Word         -- `CRC_EXPECT` (R34)
  numLeaves   : BitVec 9     -- `NUM_LEAVES` (R35)
  numSteps    : BitVec 8     -- `NUM_STEPS` (R35)
  root        : BitVec 9     -- `ROOT` (R35)
  totalWeight : Word         -- `TOTAL_WEIGHT` (R35)
  maxLen      : BitVec 8     -- `MAX_LEN` (R36)
  freq        : Ram Word         -- `FREQ`, 256 entries (R38)
  node        : Ram Node         -- `NODE`, 511 entries (R39)
  trace       : Ram TraceEntry   -- `TRACE`, 255 entries (R40)
  code        : Ram CodeEntry    -- `CODE`, 256 entries (R41)
  data        : Memory           -- `DATA`, 65536 bytes (R42)
  pack        : Memory           -- `PACK`, 65536 bytes (R43)
  reply       : Option BusReply  -- the reply to the last host transaction, none before the first
  inbox       : List Event       -- the turns to come, the next one first
  draws       : Nat              -- how many unspecified reads there have been
  deriving DecidableEq, Repr

/-- The block right after the reset step (R45, R270): every register at its reset value, every RAM entry 0, `PENDING` = 0
and `PHASE` = `INIT` (so `STATUS` reads 0x00000021). The model's own fields start empty (log entries 5 and 6). -/
def State.reset : State where
  phase := .init
  pending := 0
  lastCmd := 0
  done := false
  err := false
  empty := false
  treeValid := false
  overrun := false
  errCode := .none
  errInfo := 0
  cmdCount := 0
  doneIe := false
  errIe := false
  doneIp := false
  errIp := false
  dataLen := 0
  bitCount := 0
  packLen := 0
  crcResult := 0
  crcExpect := 0
  numLeaves := 0
  numSteps := 0
  root := 0
  totalWeight := 0
  maxLen := 0
  freq := []
  node := []
  trace := []
  code := []
  data := []
  pack := []
  reply := none
  inbox := []
  draws := 0

end Sys2Proof.Machine
end

