-- ==== Sys2Proof/Machine/Flags.lean ====
section
/-! DEFINITION. The flags of the block, all of them (10_state.md rule R44: `STATUS` and `IRQ_STATUS`; there are no
arithmetic condition codes), as the words the host reads, and the interrupt line (60_exceptions.md rule R250). -/

namespace Sys2Proof.Machine

/-- The value of `ERR_CODE` (R242). -/
def ErrCode.value (c : ErrCode) : Byte :=
  match c with
  | .none => 0x00
  | .illegalCmd => 0x01
  | .lenRange => 0x02
  | .freqOverflow => 0x03
  | .emptyTable => 0x04
  | .weightOverflow => 0x05
  | .noTree => 0x06
  | .noCode => 0x07
  | .packOverflow => 0x08
  | .packLenRange => 0x09
  | .invalidCodeTable => 0x0A
  | .malformedBitstream => 0x0B
  | .outputOverflow => 0x0C
  | .integrityFailure => 0x0D

/-- `STATUS.BUSY`: 1 exactly when `PHASE` is `BUSY` or `INIT` (R22). -/
def State.busy (s : State) : Bool :=
  match s.phase with
  | .idle => false
  | .busy | .init => true

/-- `STATUS.INIT`: 1 exactly when `PHASE` is `INIT` (R22). -/
def State.init (s : State) : Bool :=
  match s.phase with
  | .idle | .busy => false
  | .init => true

/-- The whole `STATUS` word (R25), from bit 31 down to bit 0. -/
def State.statusWord (s : State) : Word :=
  0#8 ++ s.errCode.value ++ 0#7 ++ BitVec.ofBool s.overrun ++ 0#2 ++ BitVec.ofBool s.init
    ++ BitVec.ofBool s.treeValid ++ BitVec.ofBool s.empty ++ BitVec.ofBool s.err ++ BitVec.ofBool s.done
    ++ BitVec.ofBool s.busy

/-- The whole `IRQ_EN` word (R28). -/
def State.irqEnWord (s : State) : Word := 0#30 ++ BitVec.ofBool s.errIe ++ BitVec.ofBool s.doneIe

/-- The whole `IRQ_STATUS` word (R29). -/
def State.irqStatusWord (s : State) : Word := 0#30 ++ BitVec.ofBool s.errIp ++ BitVec.ofBool s.doneIp

/-- The interrupt line, a level, active high (R250). -/
def State.irq (s : State) : Bool := (s.doneIp && s.doneIe) || (s.errIp && s.errIe)

/-- A write of v to a W1C bit at place i that holds b (10_state.md section 3): cleared by a 1, kept by a 0. -/
def writeOneToClear (b : Bool) (v : Word) (i : Nat) : Bool := b && !v.getLsbD i

end Sys2Proof.Machine
end

