-- ==== Sys2Proof/Machine/Ram.lean ====
section
/-! DEFINITION. The operations over one RAM. A RAM is the list of its entries that differ from the all-zero entry `d`,
with strictly rising indices; an index that is not listed reads as `d` (10_state.md rule R45: every entry is 0 after
reset). `memRead` and `memWrite` are the primitives `MemRead` and `MemWrite` of 00_scope.md rule R12. -/

namespace Sys2Proof.Machine

/-- The entry of index `i`. -/
def ramRead {α : Type} (d : α) : Ram α → Nat → α
  | [], _ => d
  | (j, v) :: m, i => if j = i then v else ramRead d m i

/-- The values `vs` as entries `a`, `a + 1`, …, the all-zero ones left out. -/
def ramCells {α : Type} [DecidableEq α] (d : α) (a : Nat) (vs : List α) : Ram α :=
  (vs.zipIdx a).filterMap fun c => if c.1 = d then none else some (c.2, c.1)

/-- The RAM whose first entries are `vs` and whose other entries are all zero. -/
def ramOfList {α : Type} [DecidableEq α] (d : α) (vs : List α) : Ram α := ramCells d 0 vs

/-- Overwrites entries `a` .. `a + vs.length − 1` with `vs` and keeps every other entry. -/
def ramSplice {α : Type} [DecidableEq α] (d : α) (m : Ram α) (a : Nat) (vs : List α) : Ram α :=
  m.filter (fun c => decide (c.1 < a)) ++ ramCells d a vs ++ m.filter (fun c => decide (a + vs.length ≤ c.1))

/-- Writes entry `i`. Writing the all-zero entry takes the index off the list, so equal contents are equal lists. -/
def ramWrite {α : Type} [DecidableEq α] (d : α) (m : Ram α) (i : Nat) (v : α) : Ram α := ramSplice d m i [v]

/-- The canonical form of a RAM of `size` entries: indices strictly rising and below `size`, no entry equal to the
all-zero entry `d`. -/
def ramWf {α : Type} [DecidableEq α] (size : Nat) (d : α) (m : Ram α) : Bool :=
  decide (m.Pairwise fun x y => x.1 < y.1) && m.all fun c => decide (c.1 < size) && decide (c.2 ≠ d)

/-- The canonical form of a byte RAM: `DATA` and `PACK` have 65536 bytes each and an unlisted byte reads 0. -/
def Memory.wf (m : Memory) : Bool := ramWf 65536 (0#8) m

/-- `MemRead(M, a, n)`: the n bytes at indices a .. a + n − 1, first byte first (R12). -/
def memRead (m : Memory) (a n : Nat) : List Byte := (List.range' a n).map (ramRead (0#8) m)

/-- `MemWrite(M, a, n, v)` with v the list of the n bytes (R12). -/
def memWrite (m : Memory) (a : Nat) (v : List Byte) : Memory := ramSplice (0#8) m a v

end Sys2Proof.Machine
end

