-- ==== Sys2Proof/Machine/Operands.lean ====
section
/-! DEFINITION. The operands of the commands. No command has an operand field: each reads fixed registers and RAMs
(30_encoding.md rule R91). Here are the reads of the six RAMs, the code of a symbol as a bit string (00_scope.md rule
R14), bit strings as bytes (20_memory.md rule R64) and `ceil8` (R9). -/

namespace Sys2Proof.Machine

/-- `ceil8(b)`: the number of bytes that hold b bits (R9). -/
def ceil8 (b : Nat) : Nat := (b + 7) / 8

/-- `FREQ[k]` (R38). -/
def State.freqAt (s : State) (k : Nat) : Word := ramRead 0#32 s.freq k

/-- `NODE[i]` (R39). -/
def State.nodeAt (s : State) (i : Nat) : Node := ramRead Node.zero s.node i

/-- `TRACE[k]` (R40). -/
def State.traceAt (s : State) (k : Nat) : TraceEntry := ramRead TraceEntry.zero s.trace k

/-- `CODE[k]` (R41). -/
def State.codeAt (s : State) (k : Nat) : CodeEntry := ramRead CodeEntry.zero s.code k

/-- `DATA[i]` (R42). -/
def State.dataAt (s : State) (i : Nat) : Byte := ramRead 0#8 s.data i

/-- `PACK[j]` (R43). -/
def State.packAt (s : State) (j : Nat) : Byte := ramRead 0#8 s.pack j

/-- `DATA[0 .. DATA_LEN − 1]`, the input of HACC, PACK, CRC and ENCODE (R42). -/
def State.input (s : State) : List Byte := memRead s.data 0 s.dataLen.toNat

/-- The bit string a code entry holds: L = `LEN` bits, bit j being `VAL[L − 1 − j]` (R14). -/
def CodeEntry.bits (c : CodeEntry) : List Bool :=
  (List.range c.len.toNat).map fun j => c.val.getLsbD (c.len.toNat - 1 - j)

/-- `code(k)` (R14). -/
def State.codeBits (s : State) (k : Nat) : List Bool := (s.codeAt k).bits

/-- The symbols with a code, ascending, each with its bit string: the set P of R185. -/
def State.codeTable (s : State) : List (Nat × List Bool) :=
  (List.range Config.nsym).filterMap fun k =>
    if (s.codeAt k).len = 0#8 then none else some (k, s.codeBits k)

/-- Bit p of the packed stream: bit 7 − (p mod 8) of `PACK[p div 8]` (R64). -/
def State.packBit (s : State) (p : Nat) : Bool := (s.packAt (p / 8)).getLsbD (7 - p % 8)

/-- The first B bits of the packed stream (R64, R187). -/
def State.packedBits (s : State) (B : Nat) : List Bool := (List.range B).map s.packBit

/-- The byte whose bits 7, 6, … are the first bits of `bs`, the missing ones 0 (R64, R181). -/
def byteOfBits (bs : List Bool) : Byte :=
  (List.range 8).foldl (fun b q => if bs.getD q false then b ||| (1#8 <<< (7 - q)) else b) 0#8

/-- The first m bytes of the bit string `bs`, most significant bit first, padded with 0 bits (R64, R181); `acc` holds
the bytes already made, the latest first. -/
def bytesOfBits : Nat → List Bool → List Byte → List Byte
  | 0, _, acc => acc.reverse
  | m + 1, bs, acc => bytesOfBits m (bs.drop 8) (byteOfBits (bs.take 8) :: acc)

end Sys2Proof.Machine
end

