-- ==== Sys2Proof/Machine/Ops.lean ====
section
/-! DEFINITION. What the commands share: a command's outcome (30_encoding.md rule R95), its completion, the commit of an
error (60_exceptions.md rule R241, the block's form of taking an exception; there is no return operation, R247: the
next accept clears the report), the accept (R94) and the reset (70_reset_and_hazards.md rule R270). -/

namespace Sys2Proof.Machine

/-- How a command's rule ends early: `raise Error(code, info)` (R13), or a walk that has no end (log entry 3). -/
inductive Stop where
  | raised (code : ErrCode) (info : Word)
  | stuck (f : Fault)
  deriving DecidableEq, Repr

/-- A command's rule up to its completion: a result, or the way it stops (R13). -/
abbrev CmdM (α : Type) := Except Stop α

/-- `raise Error(code, info)` (R13). -/
def raiseError {α : Type} (code : ErrCode) (info : Word) : CmdM α := .error (.raised code info)

/-- The completion of a command that succeeded, over the state that holds the command's writes (R95). -/
def State.completeOk (t : State) : State :=
  { t with err := false, errCode := .none, errInfo := 0#32, done := true, doneIp := true, pending := 0#32, phase := .idle }

/-- The completion of a command that raised an error, over the state BEFORE the command: nothing but the error report
and the completion writes changes (R241, R95). -/
def State.commitError (s : State) (code : ErrCode) (info : Word) : State :=
  { s with err := true, errCode := code, errInfo := info, done := true, doneIp := true, errIp := true,
           pending := 0#32, phase := .idle }

/-- The completion step of a command whose rule came to `r` in state s (R95): `.ok t` means that t is s with the
command's writes. -/
def finish (s : State) (r : CmdM State) : Host.Outcome State Fault Refusal :=
  match r with
  | .ok t => .next t.completeOk
  | .error (.raised code info) => .next (s.commitError code info)
  | .error (.stuck f) => .fault f

/-- The register writes of an accept of the word v (R94), before the issue. They also end the error report of the
command before (R247). -/
def State.acceptRecord (s : State) (v : Word) : State :=
  { s with lastCmd := v, cmdCount := s.cmdCount + 1#32, done := false, err := false, empty := false,
           errCode := .none, errInfo := 0#32 }

/-- The issue of an accepted word other than SRST (R94). -/
def State.issue (s : State) (v : Word) : State := { s with pending := v, phase := .busy }

/-- The reset step (R270): the whole block as right after reset. The model's own fields (the bus port's last reply, the
turns to come, the counter of free reads) are no state of the block and stay. -/
def State.resetBlock (s : State) : State :=
  { State.reset with reply := s.reply, inbox := s.inbox, draws := s.draws }

/-- `n <- DATA_LEN`, checked: `LEN_RANGE` when it exceeds `DATA_BYTES` (R243). -/
def State.checkDataLen (s : State) : CmdM Unit :=
  if s.dataLen.toNat > Config.dataBytes then raiseError .lenRange s.dataLen else .ok ()

end Sys2Proof.Machine
end

