-- ==== Sys2Proof/Machine/BitPacker.lean ====
section
/-! DEFINITION. The bit packer and unpacker: PACK and UNPACK (43_bit_packer.md). -/

namespace Sys2Proof.Machine

/-- The scan of R181 from byte i on, over the bytes still to come, with the first `len` bits of the stream in `acc`, the
latest first. -/
def State.packScan (s : State) : Nat → Nat → List Bool → List Byte → CmdM (List Bool)
  | _, _, acc, [] => .ok acc.reverse
  | i, len, acc, b :: rest =>
    if (s.codeAt b.toNat).len = 0#8 then raiseError .noCode (BitVec.ofNat 32 (i * 256 + b.toNat))
    else if len + (s.codeAt b.toNat).len.toNat > Config.maxBits then raiseError .packOverflow (BitVec.ofNat 32 i)
    else s.packScan (i + 1) (len + (s.codeAt b.toNat).len.toNat) ((s.codeBits b.toNat).reverse ++ acc) rest

/-- `PACK` (R181): the input through `CODE` into `PACK`. -/
def pack (s : State) : CmdM State := do
  s.checkDataLen
  let bits ← s.packScan 0 0 [] s.input
  .ok { s with
    pack := memWrite s.pack 0 (bytesOfBits (ceil8 bits.length) bits [])
    bitCount := BitVec.ofNat 32 bits.length
    packLen := BitVec.ofNat 32 (ceil8 bits.length) }

/-- One of the bit strings is a prefix of the other (R10, R185). -/
def prefixClash (x y : List Bool) : Bool := x.isPrefixOf y || y.isPrefixOf x

/-- The first pair (s, t), s < t, of symbols of the table whose codes clash, in lexicographic order (R185). -/
def firstClash : List (Nat × List Bool) → Option (Nat × Nat)
  | [] => none
  | (k, c) :: rest =>
    match rest.find? (fun e => prefixClash c e.2) with
    | some (t, _) => some (k, t)
    | none => firstClash rest

/-- The check of the code table for a stream of B bits (R185). -/
def State.checkCodeTable (s : State) (B : Nat) : CmdM Unit :=
  match firstClash s.codeTable with
  | some (k, t) => raiseError .invalidCodeTable (BitVec.ofNat 32 (0x00010000 + t * 256 + k))
  | none =>
    if s.codeTable.isEmpty && decide (B > 0) then raiseError .invalidCodeTable 0#32 else .ok ()

/-- The walk of R187 from bit p on, over the bits still to come. `path` is acc, `outRev` is out with the latest symbol
first, `n` its length; B = `BIT_COUNT`. -/
def walkBits (table : List (Nat × List Bool)) (B : Nat) :
    Nat → List Bool → List Byte → Nat → List Bool → CmdM (List Byte)
  | _, path, outRev, _, [] =>
    if path = [] then .ok outRev.reverse
    else raiseError .malformedBitstream (BitVec.ofNat 32 (0xC0000000 + B))
  | p, path, outRev, n, b :: rest =>
    match table.find? (fun e => e.2 == path ++ [b]) with
    | some (k, _) =>
      if n = Config.dataBytes then raiseError .outputOverflow (BitVec.ofNat 32 p)
      else walkBits table B (p + 1) [] (BitVec.ofNat 8 k :: outRev) (n + 1) rest
    | none =>
      if table.any (fun e => (path ++ [b]).isPrefixOf e.2) then walkBits table B (p + 1) (path ++ [b]) outRev n rest
      else raiseError .malformedBitstream (BitVec.ofNat 32 (0x80000000 + p))

/-- The checks and the walk of UNPACK, without its commit: the decoded bytes (R188). -/
def unpackOutput (s : State) : CmdM (List Byte) := do
  if s.packLen.toNat > Config.packBytes then raiseError .packLenRange s.packLen
  else
    s.checkCodeTable s.bitCount.toNat
    if s.packLen.toNat ≠ ceil8 s.bitCount.toNat then raiseError .malformedBitstream 0x40000000#32
    else walkBits s.codeTable s.bitCount.toNat 0 [] [] 0 (s.packedBits s.bitCount.toNat)

/-- The commit of decoded bytes (R188): `DATA[0 ..]` and `DATA_LEN`. -/
def State.commitOutput (s : State) (out : List Byte) : State :=
  { s with data := memWrite s.data 0 out, dataLen := BitVec.ofNat 32 out.length }

/-- `UNPACK` (R188): `PACK` through `CODE` into `DATA`. -/
def unpack (s : State) : CmdM State := do
  let out ← unpackOutput s
  .ok (s.commitOutput out)

def execPack (s : State) : Host.Outcome State Fault Refusal := finish s (pack s)

def execUnpack (s : State) : Host.Outcome State Fault Refusal := finish s (unpack s)

end Sys2Proof.Machine
end

