-- ==== Sys2Proof/Machine/CodeGenerator.lean ====
section
/-! DEFINITION. The code generator: GENC and CCLR (42_code_generator.md). -/

namespace Sys2Proof.Machine

/-- `walk(i, d, v)` of R160: the leaves below node i, each with its symbol and its code (LEN d, VAL v), left to right.
The first argument bounds the length of a path; a tree in `NODE` never reaches the bound `NNODE` (log entry 3). -/
def State.walkTree (s : State) : Nat → Nat → Nat → Nat → CmdM (List (Nat × CodeEntry))
  | 0, _, _, _ => .error (.stuck .treeWalkUnending)
  | fuel + 1, i, d, v =>
    let nd := s.nodeAt i
    if nd.leaf then .ok [(nd.sym.toNat, { len := BitVec.ofNat 8 d, val := BitVec.ofNat 256 v })]
    else do
      let l ← s.walkTree fuel nd.left.toNat (d + 1) (2 * v)
      let r ← s.walkTree fuel nd.right.toNat (d + 1) (2 * v + 1)
      .ok (l ++ r)

/-- The codes of the tree in `NODE` (R160): the single leaf of a one-leaf tree has the code "0", without traversal. -/
def State.treeCodes (s : State) : CmdM (List (Nat × CodeEntry)) :=
  if s.numLeaves = 1#9 then .ok [((s.nodeAt 0).sym.toNat, { len := 1#8, val := 0#256 })]
  else s.walkTree Config.nnode s.root.toNat 0 0

/-- The code table that holds `codes`, every other symbol without a code (R160). -/
def codeRamOf (codes : List (Nat × CodeEntry)) : Ram CodeEntry :=
  codes.foldl (fun m c => ramWrite CodeEntry.zero m c.1 c.2) []

/-- The largest `LEN` of a code table, 0 if it holds no code (R36, R160). -/
def longestCode (m : Ram CodeEntry) : Nat := m.foldl (fun l c => max l c.2.len.toNat) 0

/-- `GENC` (R160): the code table of the tree in `NODE`. -/
def genc (s : State) : CmdM State :=
  if s.treeValid = false then raiseError .noTree 0#32
  else do
    let codes ← s.treeCodes
    .ok { s with code := codeRamOf codes, maxLen := BitVec.ofNat 8 (longestCode (codeRamOf codes)) }

/-- `CCLR` (R161): an empty code table. -/
def cclr (s : State) : CmdM State := .ok { s with code := [], maxLen := 0#8 }

def execGenc (s : State) : Host.Outcome State Fault Refusal := finish s (genc s)

def execCclr (s : State) : Host.Outcome State Fault Refusal := finish s (cclr s)

end Sys2Proof.Machine
end

