-- ==== Sys2Proof/Machine/Control.lean ====
section
/-! DEFINITION. The control commands NOP and SRST (45_control.md rules R220 and R221). -/

namespace Sys2Proof.Machine

/-- `NOP` (R220): nothing but the completion. -/
def execNop (s : State) : Host.Outcome State Fault Refusal := finish s (.ok s)

/-- `SRST` (R221): the reset of R270, at the accept. There is no completion: `DONE` stays 0, no interrupt is raised. -/
def execSrst (s : State) : Host.Outcome State Fault Refusal := .next s.resetBlock

end Sys2Proof.Machine
end

