-- ==== Sys2Proof/Machine/Crc.lean ====
section
/-! DEFINITION. The CRC-32 unit: CRC (44_crc.md). -/

namespace Sys2Proof.Machine

/-- One of the eight bit steps of R210. -/
def crcBit (c : Word) : Word := if c.getLsbD 0 then (c >>> 1) ^^^ 0xEDB88320#32 else c >>> 1

/-- One byte of R210. -/
def crcByte (c : Word) (b : Byte) : Word := (List.range 8).foldl (fun x _ => crcBit x) (c ^^^ b.setWidth 32)

/-- `crc32` of a byte sequence (R210). -/
def crc32 (bytes : List Byte) : Word := bytes.foldl crcByte 0xFFFFFFFF#32 ^^^ 0xFFFFFFFF#32

/-- `CRC` (R211): the checksum of the input. -/
def crcCommand (s : State) : CmdM State := do
  s.checkDataLen
  .ok { s with crcResult := crc32 s.input }

def execCrc (s : State) : Host.Outcome State Fault Refusal := finish s (crcCommand s)

end Sys2Proof.Machine
end

