-- ==== Sys2Proof/Machine/Histogram.lean ====
section
/-! DEFINITION. The histogram accumulator: HCLR and HACC (40_histogram.md). -/

namespace Sys2Proof.Machine

/-- How often the symbol k stands in `bytes` (R122). -/
def symbolCount (bytes : List Byte) (k : Nat) : Nat := bytes.countP fun b => b.toNat == k

/-- `HCLR` (R121): every `FREQ` entry 0. -/
def hclr (s : State) : CmdM State := .ok { s with freq := [] }

/-- c[k] of R122, an unbounded sum. -/
def State.accumulated (s : State) (k : Nat) : Nat := (s.freqAt k).toNat + symbolCount s.input k

/-- `HACC` (R122): adds the byte counts of the input to `FREQ`; no counter may pass 2^32 − 1. -/
def hacc (s : State) : CmdM State := do
  s.checkDataLen
  match (List.range Config.nsym).find? (fun k => decide (s.accumulated k > 2 ^ 32 - 1)) with
  | some k => raiseError .freqOverflow (BitVec.ofNat 32 k)
  | none =>
    .ok { s with freq := ramOfList 0#32 ((List.range Config.nsym).map fun k => BitVec.ofNat 32 (s.accumulated k)) }

def execHclr (s : State) : Host.Outcome State Fault Refusal := finish s (hclr s)

def execHacc (s : State) : Host.Outcome State Fault Refusal := finish s (hacc s)

end Sys2Proof.Machine
end

