-- ==== Sys2Proof/Machine/TreeBuilder.lean ====
section
/-! DEFINITION. The tree builder: BUILD (41_tree_builder.md). -/

namespace Sys2Proof.Machine

/-- A node in the priority collection A of R141: its weight W and its index i. -/
structure Key where
  w : Nat
  i : Nat
  deriving DecidableEq, Repr

/-- The priority order of R140: lexicographic on (W, i). -/
def Key.before (x y : Key) : Bool := decide (x.w < y.w) || (x.w == y.w && decide (x.i < y.i))

/-- The least key of `x :: A` (R140). -/
def leastKey (x : Key) (A : List Key) : Key := A.foldl (fun m y => if y.before m then y else m) x

/-- Takes the node of least key out of the collection (R141: `a <- ... ; A <- A \ {a}`). -/
def takeLeast (A : List Key) : Option (Key × List Key) :=
  match A with
  | [] => none
  | x :: rest => some (leastKey x rest, (x :: rest).erase (leastKey x rest))

/-- The internal node made of a (left) and b (right) (R141). -/
def mergedNode (a b : Key) : Node :=
  { w := BitVec.ofNat 32 (a.w + b.w), valid := true, leaf := false, sym := 0#8,
    left := BitVec.ofNat 9 a.i, right := BitVec.ofNat 9 b.i }

/-- The build step of the merge of a and b into node n (R141). -/
def mergeStep (a b : Key) (n : Nat) : TraceEntry :=
  { wl := BitVec.ofNat 32 a.w, wr := BitVec.ofNat 32 b.w, ws := BitVec.ofNat 32 (a.w + b.w),
    li := BitVec.ofNat 9 a.i, ri := BitVec.ofNat 9 b.i, ni := BitVec.ofNat 9 n, valid := true }

/-- The merges of R141: `k` merges are left, the next node gets index n. The new nodes and the trace, in merge order. -/
def mergeAll : Nat → Nat → List Key → List (Node × TraceEntry)
  | 0, _, _ => []
  | k + 1, n, A =>
    match takeLeast A with
    | none => []
    | some (a, A1) =>
      match takeLeast A1 with
      | none => []
      | some (b, A2) =>
        (mergedNode a b, mergeStep a b n) :: mergeAll k (n + 1) ({ w := a.w + b.w, i := n } :: A2)

/-- The present symbols, ascending: `syms` of R141. -/
def State.presentSymbols (s : State) : List Nat := (List.range Config.nsym).filter fun k => s.freqAt k ≠ 0#32

/-- The unbounded sum of all counts: T of R141. -/
def State.freqTotal (s : State) : Nat := ((List.range Config.nsym).map fun k => (s.freqAt k).toNat).sum

/-- The leaf of a present symbol (R141). -/
def State.leafNode (s : State) (k : Nat) : Node :=
  { w := s.freqAt k, valid := true, leaf := true, sym := BitVec.ofNat 8 k, left := 0#9, right := 0#9 }

/-- The collection A at the start: leaf i has the weight of the i-th present symbol (R140, R141). -/
def State.leafKeys (s : State) : List Key :=
  s.presentSymbols.zipIdx.map fun c => { w := (s.freqAt c.1).toNat, i := c.2 }

/-- The nodes and build steps of the merges over the leaves of `FREQ` (R141). -/
def State.merges (s : State) : List (Node × TraceEntry) :=
  mergeAll (s.presentSymbols.length - 1) s.presentSymbols.length s.leafKeys

/-- `BUILD` (R141): the Huffman tree of `FREQ` into `NODE`, its merge log into `TRACE`. -/
def build (s : State) : CmdM State :=
  let n := s.presentSymbols.length
  if n = 0 then raiseError .emptyTable 0#32
  else if s.freqTotal > 2 ^ 32 - 1 then raiseError .weightOverflow 0#32
  else .ok { s with
    node := ramOfList Node.zero (s.presentSymbols.map s.leafNode ++ s.merges.map (·.1))
    trace := ramOfList TraceEntry.zero (s.merges.map (·.2))
    numLeaves := BitVec.ofNat 9 n
    numSteps := BitVec.ofNat 8 (n - 1)
    root := BitVec.ofNat 9 (if n = 1 then 0 else 2 * n - 2)
    totalWeight := BitVec.ofNat 32 s.freqTotal
    treeValid := true }

def execBuild (s : State) : Host.Outcome State Fault Refusal := finish s (build s)

end Sys2Proof.Machine
end

