-- ==== Sys2Proof/Machine/Sequencer.lean ====
section
/-! DEFINITION. The sequencer commands ENCODE and DECODE (45_control.md rules R225 to R229). -/

namespace Sys2Proof.Machine

/-- `ENCODE` of the empty input (R226): the empty artifact. No `PACK` byte is written. -/
def State.emptyArtifact (s : State) : State :=
  { s with freq := [], code := [], node := [], trace := [], numLeaves := 0#9, numSteps := 0#8, root := 0#9,
           totalWeight := 0#32, treeValid := false, maxLen := 0#8, bitCount := 0#32, packLen := 0#32,
           crcResult := 0#32, empty := true }

/-- f of R227: the fresh counts of the input. -/
def inputHistogram (bytes : List Byte) : Ram Word :=
  ramOfList 0#32 ((List.range Config.nsym).map fun k => BitVec.ofNat 32 (symbolCount bytes k))

/-- `ENCODE` of a non-empty input (R227): the four units in order, each on what the one before left, then the checksum.
An error of any of them is the error of ENCODE, and `finish` then commits nothing. -/
def encodeNonEmpty (s : State) : CmdM State := do
  let s1 ← build { s with freq := inputHistogram s.input }
  let s2 ← genc s1
  let s3 ← pack s2
  .ok { s3 with crcResult := crc32 s.input }

/-- `ENCODE` (R225). -/
def encodeCommand (s : State) : CmdM State := do
  s.checkDataLen
  if s.dataLen = 0#32 then .ok s.emptyArtifact else encodeNonEmpty s

/-- `DECODE` (R228): the checks and walk of UNPACK, then the integrity check of R229, then the commit. -/
def decodeCommand (s : State) : CmdM State := do
  let out ← unpackOutput s
  if crc32 out ≠ s.crcExpect then raiseError .integrityFailure (crc32 out)
  else .ok { s.commitOutput out with crcResult := crc32 out }

def execEncode (s : State) : Host.Outcome State Fault Refusal := finish s (encodeCommand s)

def execDecode (s : State) : Host.Outcome State Fault Refusal := finish s (decodeCommand s)

end Sys2Proof.Machine
end

