-- ==== Sys2Proof/Machine/Engine.lean ====
section
/-! DEFINITION. The engine's and the reset input's turns (00_scope.md rule R8), and the placing of a command word for
the next step. -/

namespace Sys2Proof.Machine

/-- The completion of a word that is no command (30_encoding.md rule R93): `ILLEGAL_CMD`, `ERR_INFO` = the word. -/
def completeIllegal (w : Word) (s : State) : Host.Outcome State Fault Refusal :=
  finish s (raiseError .illegalCmd w)

/-- The engine's turn: while busy, the completion of `PENDING` (R95); during INIT, the end of the initialisation (R271);
while idle it has no enabled step and everything stays (R257). -/
def engineStep (s : State) : Host.Outcome State Fault Refusal :=
  match s.phase with
  | .idle => .next s
  | .init => .next { s with phase := .idle }
  | .busy =>
    match decode s.pending with
    | .ok i => exec i s
    | .error _ => completeIllegal s.pending s

/-- The reset input's turn (R270): it cannot be masked, and a running command is abandoned. -/
def resetStep (s : State) : Host.Outcome State Fault Refusal := .next s.resetBlock

/-- The state in which the very next step runs the command word w: w has just been accepted by an idle engine (R94) and
the engine's turn comes next; the word SRST, which acts at its accept (R221), is placed as the host's write to `CMD`. -/
def placeCommand (w : Word) (s : State) : State :=
  if w = encode .srst then { s with phase := .idle, inbox := .host (.write 0x008 32 w) :: s.inbox }
  else { ({ s with phase := .idle }.acceptRecord w).issue w with inbox := .engine :: s.inbox }

end Sys2Proof.Machine
end

