-- ==== Sys2Proof/Machine/Bus.lean ====
section
/-! DEFINITION. The host's side of the block: the address map (20_memory.md rule R62), reading and writing one location
(rules R63 to R68), access while busy (rule R66), the accept of a command (30_encoding.md rule R94) and one host
transaction (rule R61). -/

namespace Sys2Proof.Machine

/-- Where an aligned offset of the aperture leads (R62, R65). -/
inductive Location where
  | reg     (r : Reg)
  | freq    (k : Nat)
  | trace   (k word : Nat)
  | node    (i word : Nat)
  | codeLen (k : Nat)
  | codeVal (k j : Nat)
  | data    (w : Nat)      -- the word that holds `DATA[4w .. 4w+3]`
  | pack    (w : Nat)
  | reserved
  deriving DecidableEq, Repr

/-- The offset of a control register (10_state.md section 3). -/
def regOffset (r : Reg) : Nat :=
  match r with
  | .id => 0x000
  | .version => 0x004
  | .cmd => 0x008
  | .status => 0x00C
  | .errInfo => 0x010
  | .cmdCount => 0x014
  | .irqEn => 0x018
  | .irqStatus => 0x01C
  | .dataLen => 0x020
  | .bitCount => 0x024
  | .packLen => 0x028
  | .crcResult => 0x02C
  | .crcExpect => 0x030
  | .numLeaves => 0x034
  | .numSteps => 0x038
  | .root => 0x03C
  | .totalWeight => 0x040
  | .maxLen => 0x044

/-- The control register at an offset, none at the reserved offsets 0x048 .. 0x3FC (10_state.md section 3, R37). -/
def regAt (off : Nat) : Option Reg :=
  match off with
  | 0x000 => some .id
  | 0x004 => some .version
  | 0x008 => some .cmd
  | 0x00C => some .status
  | 0x010 => some .errInfo
  | 0x014 => some .cmdCount
  | 0x018 => some .irqEn
  | 0x01C => some .irqStatus
  | 0x020 => some .dataLen
  | 0x024 => some .bitCount
  | 0x028 => some .packLen
  | 0x02C => some .crcResult
  | 0x030 => some .crcExpect
  | 0x034 => some .numLeaves
  | 0x038 => some .numSteps
  | 0x03C => some .root
  | 0x040 => some .totalWeight
  | 0x044 => some .maxLen
  | _ => none

/-- The location in a 64-byte `CODE` slot (R65). -/
def codeSlot (k within : Nat) : Location :=
  if within = 0 then .codeLen k
  else if within < 0x24 then .codeVal k ((within - 4) / 4)
  else .reserved

/-- The address map (R62), for an offset that is a multiple of four. -/
def locate (off : Nat) : Location :=
  if off < 0x400 then
    match regAt off with
    | some r => .reg r
    | none => .reserved
  else if off < 0x800 then .freq ((off - 0x400) / 4)
  else if off < 0x1000 then .reserved
  else if off < 0x1FF0 then .trace ((off - 0x1000) / 16) (off % 16 / 4)
  else if off < 0x2000 then .reserved
  else if off < 0x3FF0 then .node ((off - 0x2000) / 16) (off % 16 / 4)
  else if off < 0x4000 then .reserved
  else if off < 0x8000 then codeSlot ((off - 0x4000) / 64) (off % 64)
  else if off < 0x10000 then .reserved
  else if off < 0x20000 then .data ((off - 0x10000) / 4)
  else if off < 0x30000 then .pack ((off - 0x20000) / 4)
  else .reserved

/-- The value of a control register (10_state.md rules R24 to R36, R2). -/
def State.readReg (s : State) (r : Reg) : Word :=
  match r with
  | .id => Config.idValue
  | .version => Config.versionValue
  | .cmd => s.lastCmd
  | .status => s.statusWord
  | .errInfo => s.errInfo
  | .cmdCount => s.cmdCount
  | .irqEn => s.irqEnWord
  | .irqStatus => s.irqStatusWord
  | .dataLen => s.dataLen
  | .bitCount => s.bitCount
  | .packLen => s.packLen
  | .crcResult => s.crcResult
  | .crcExpect => s.crcExpect
  | .numLeaves => s.numLeaves.setWidth 32
  | .numSteps => s.numSteps.setWidth 32
  | .root => s.root.setWidth 32
  | .totalWeight => s.totalWeight
  | .maxLen => s.maxLen.setWidth 32

/-- One word of a `NODE` entry (R39). -/
def Node.word (nd : Node) (word : Nat) : Word :=
  match word with
  | 0 => nd.w
  | 1 => BitVec.ofBool nd.valid ++ BitVec.ofBool nd.leaf ++ 0#22 ++ nd.sym
  | 2 => 0#23 ++ nd.left
  | _ => 0#23 ++ nd.right

/-- One word of a `TRACE` entry (R40). -/
def TraceEntry.word (t : TraceEntry) (word : Nat) : Word :=
  match word with
  | 0 => t.wl
  | 1 => t.wr
  | 2 => t.ws
  | _ => BitVec.ofBool t.valid ++ 0#4 ++ t.ni ++ t.ri ++ t.li

/-- `VAL[32j + 31 : 32j]` (R65). -/
def CodeEntry.valWord (c : CodeEntry) (j : Nat) : Word := c.val.extractLsb' (32 * j) 32

/-- The entry with `VAL[32j + 31 : 32j]` set to v (R65). -/
def CodeEntry.setValWord (c : CodeEntry) (j : Nat) (v : Word) : CodeEntry :=
  { c with val := (c.val &&& ~~~((0xFFFFFFFF#32).setWidth 256 <<< (32 * j))) ||| (v.setWidth 256 <<< (32 * j)) }

/-- The little-endian word of four bytes (R63). -/
def wordOfBytes (b0 b1 b2 b3 : Byte) : Word := b3 ++ b2 ++ b1 ++ b0

/-- The word at index 4w of a byte RAM (R63). -/
def memWord (m : Memory) (w : Nat) : Word :=
  wordOfBytes (ramRead 0#8 m (4 * w)) (ramRead 0#8 m (4 * w + 1)) (ramRead 0#8 m (4 * w + 2)) (ramRead 0#8 m (4 * w + 3))

/-- The byte RAM with the word at index 4w set to v (R63). -/
def memSetWord (m : Memory) (w : Nat) (v : Word) : Memory :=
  ramWrite 0#8
    (ramWrite 0#8
      (ramWrite 0#8 (ramWrite 0#8 m (4 * w) (v.extractLsb' 0 8)) (4 * w + 1) (v.extractLsb' 8 8))
      (4 * w + 2) (v.extractLsb' 16 8))
    (4 * w + 3) (v.extractLsb' 24 8)

/-- The value a location holds; a reserved offset reads 0 (R63, R65, R67). -/
def State.readLocation (s : State) (l : Location) : Word :=
  match l with
  | .reg r => s.readReg r
  | .freq k => s.freqAt k
  | .trace k word => (s.traceAt k).word word
  | .node i word => (s.nodeAt i).word word
  | .codeLen k => (s.codeAt k).len.setWidth 32
  | .codeVal k j => (s.codeAt k).valWord j
  | .data w => memWord s.data w
  | .pack w => memWord s.pack w
  | .reserved => 0#32

/-- The seven registers that are safe to read while the engine is busy (R66, R275). -/
def Location.readableWhileBusy (l : Location) : Bool :=
  match l with
  | .reg r =>
    match r with
    | .id | .version | .cmd | .status | .cmdCount | .irqEn | .irqStatus => true
    | .errInfo | .dataLen | .bitCount | .packLen | .crcResult | .crcExpect | .numLeaves | .numSteps | .root
    | .totalWeight | .maxLen => false
  | .freq _ | .trace _ _ | .node _ _ | .codeLen _ | .codeVal _ _ | .data _ | .pack _ | .reserved => false

/-- A write to a location other than `CMD`, as when the engine is idle: RW locations store, W1C bits are cleared, and
read-only locations, reserved offsets and res0 bits ignore it (10_state.md section 3, R25, R28, R29, R67). -/
def State.writeLocation (s : State) (l : Location) (v : Word) : State :=
  match l with
  | .reg r =>
    match r with
    | .status => { s with overrun := writeOneToClear s.overrun v 8 }
    | .irqEn => { s with doneIe := v.getLsbD 0, errIe := v.getLsbD 1 }
    | .irqStatus => { s with doneIp := writeOneToClear s.doneIp v 0, errIp := writeOneToClear s.errIp v 1 }
    | .dataLen => { s with dataLen := v }
    | .bitCount => { s with bitCount := v }
    | .packLen => { s with packLen := v }
    | .crcExpect => { s with crcExpect := v }
    | .id | .version | .cmd | .errInfo | .cmdCount | .crcResult | .numLeaves | .numSteps | .root | .totalWeight
    | .maxLen => s
  | .freq k => { s with freq := ramWrite 0#32 s.freq k v }
  | .codeLen k => { s with code := ramWrite CodeEntry.zero s.code k { s.codeAt k with len := v.setWidth 8 } }
  | .codeVal k j => { s with code := ramWrite CodeEntry.zero s.code k ((s.codeAt k).setValWord j v) }
  | .data w => { s with data := memSetWord s.data w v }
  | .pack w => { s with pack := memSetWord s.pack w v }
  | .trace _ _ | .node _ _ | .reserved => s

/-- The registers whose writes take effect while the engine is busy as when it is idle (R66). -/
def Location.writableWhileBusy (l : Location) : Bool :=
  match l with
  | .reg r =>
    match r with
    | .status | .irqEn | .irqStatus => true
    | .id | .version | .cmd | .errInfo | .cmdCount | .dataLen | .bitCount | .packLen | .crcResult | .crcExpect
    | .numLeaves | .numSteps | .root | .totalWeight | .maxLen => false
  | .freq _ | .trace _ _ | .node _ _ | .codeLen _ | .codeVal _ _ | .data _ | .pack _ | .reserved => false

/-- The accept of the word v by an idle engine (R94): the register writes, then SRST resets at once, every other word,
legal or not, is latched and makes the engine busy. -/
def State.accept (s : State) (v : Word) : Host.Outcome State Fault Refusal :=
  if v = encode .srst then exec .srst (s.acceptRecord v) else .next ((s.acceptRecord v).issue v)

/-- A 32-bit write of v at an aligned offset of the aperture (R66, R67, R94). -/
def State.busWrite (s : State) (l : Location) (v : Word) : Host.Outcome State Fault Refusal :=
  if l.writableWhileBusy then .next (s.writeLocation l v)
  else if s.busy then .next { s with overrun := true }
  else if l = .reg .cmd then s.accept v
  else .next (s.writeLocation l v)

/-- A 32-bit read at an aligned offset of the aperture (R66, R68). While the engine is busy, every location but the
seven safe registers, reserved offsets included, gives a fresh unspecified value (log entries 1 and 7). -/
def State.busRead (s : State) (l : Location) : State :=
  if s.busy && !l.readableWhileBusy then
    { s with reply := some (.read .ok (Config.freeBusRead s.draws)), draws := s.draws + 1 }
  else { s with reply := some (.read .ok (s.readLocation l)) }

/-- The transaction is a bus error: its offset is not a multiple of four or its width is not 32 bits (R61). -/
def busErrorAt (off width : Nat) : Bool := off % 4 != 0 || width != 32

/-- One host transaction (R61, R75). A bus error changes nothing but the reply. -/
def hostStep (t : Transaction) (s : State) : Host.Outcome State Fault Refusal :=
  match t with
  | .read off width =>
    if Config.apertureBytes ≤ off then .refused (.outsideAperture off)
    else if busErrorAt off width then .next { s with reply := some (.read .error 0#32) }
    else .next (s.busRead (locate off))
  | .write off width v =>
    if Config.apertureBytes ≤ off then .refused (.outsideAperture off)
    else if busErrorAt off width then .next { s with reply := some (.write .error) }
    else { s with reply := some (.write .ok) }.busWrite (locate off) v

end Sys2Proof.Machine
end

