-- ==== Sys2Proof/Machine/HostProgram.lean ====
section
/-! DEFINITION. The host-program notation: the offset of a target, the host's turns of a line, and the host's turn at a
`WAIT` (30_encoding.md rules R98 and R99). -/

namespace Sys2Proof.Machine

/-- off(t) of R98. -/
def targetOffset (t : Target) : Nat :=
  match t with
  | .reg r => regOffset r
  | .freq s => 0x00400 + 4 * s
  | .codeLen s => 0x04000 + 64 * s
  | .codeVal s j => 0x04000 + 64 * s + 4 + 4 * j
  | .node i n => 0x02000 + 16 * i + 4 * n
  | .trace k n => 0x01000 + 16 * k + 4 * n
  | .data b => 0x10000 + b
  | .pack b => 0x20000 + b
  | .literal off => off

/-- The write `W off(t) v` (R98). -/
def writeTo (t : Target) (v : Word) : Transaction := .write (targetOffset t) 32 v

/-- The read `R off(t)` (R98). -/
def readFrom (t : Target) : Transaction := .read (targetOffset t) 32

/-- The writes of `LDB` from offset `off` on: one for each group of four bytes, missing bytes 0x00 (R99). -/
def loadBytes : Nat → List Byte → List Transaction
  | _, [] => []
  | off, [a] => [.write off 32 (wordOfBytes a 0#8 0#8 0#8)]
  | off, [a, b] => [.write off 32 (wordOfBytes a b 0#8 0#8)]
  | off, [a, b, c] => [.write off 32 (wordOfBytes a b c 0#8)]
  | off, a :: b :: c :: d :: rest => .write off 32 (wordOfBytes a b c d) :: loadBytes (off + 4) rest

/-- The host's turns of one line (R98, R99). A `WAIT` stands as one turn, which repeats its read (`waitStep`). -/
def lineEvents (l : HostLine) : List Event :=
  match l with
  | .label _ | .comment _ => []
  | .wr t v => [.host (writeTo t v)]
  | .rd t | .rdEq t _ => [.host (readFrom t)]
  | .cmd m => [.host (writeTo (.reg .cmd) (encode m))]
  | .wait => [.wait []]
  | .ldbData b bytes => (loadBytes (targetOffset (.data b)) bytes).map .host
  | .ldbPack b bytes => (loadBytes (targetOffset (.pack b)) bytes).map .host
  | .clrIrq => [.host (writeTo (.reg .irqStatus) 0x3#32)]

/-- The host's turns of a program, in program order (R8, R98). -/
def programEvents (p : List HostLine) : List Event := p.flatMap lineEvents

/-- The host's part of a turn: `WAIT` without the turns of the others between its reads, nothing for the others' turns. -/
def hostPart (e : Event) : Option Event :=
  match e with
  | .host t => some (.host t)
  | .wait _ => some (.wait [])
  | .engine | .reset => none

/-- A list of turns is a schedule of the program: its host turns are the program's, in program order, and the turns of
the engine and of the reset input stand anywhere between them and inside its `WAIT`s (R8, R70, R95, R99). -/
def isScheduleOf (p : List HostLine) (es : List Event) : Bool := es.filterMap hostPart == programEvents p

/-- A turn of the engine or of the reset input as one of the three agents' turns. -/
def turnEvent (t : Turn) : Event :=
  match t with
  | .engine => .engine
  | .reset => .reset

/-- The read of a `WAIT`: `RD STATUS` (R99). -/
def waitRead : Transaction := readFrom (.reg .status)

/-- The value that the last transaction read, whatever its response: a bus error reads 0x00000000 (R61). There is none
after a write. -/
def valueRead (r : Option BusReply) : Option Word :=
  match r with
  | some (.read _ v) => some v
  | some (.write _) | none => none

/-- The reply ends a `WAIT`: the value read has bit 0 = 0 (R99). -/
def endsWait (r : Option BusReply) : Bool := (valueRead r).any fun v => !v.getLsbD 0

/-- The turns that follow a read of a `WAIT` that had bit 0 = 1: those of the next gap, then the read again. When no gap
is left the engine's turn comes, so that a `WAIT` always ends (weak fairness, R95, R271; log entry 5). -/
def waitAgain (gaps : List (List Turn)) : List Event :=
  match gaps with
  | [] => [.engine, .wait []]
  | g :: more => g.map turnEvent ++ [.wait more]

/-- The host's turn at a `WAIT` (R99): it reads `STATUS`, and stays at the `WAIT` unless the value read has bit 0 = 0. -/
def waitStep (gaps : List (List Turn)) (s : State) : Host.Outcome State Fault Refusal :=
  match hostStep waitRead s with
  | .next t => .next (if endsWait t.reply then t else { t with inbox := waitAgain gaps ++ t.inbox })
  | .fault f => .fault f
  | .refused r => .refused r

end Sys2Proof.Machine
end

