-- ==== Sys2Proof/Machine/Step.lean ====
section
/-! DEFINITION. One step of the block: the next turn from outside, or the engine's own step when no turn is waiting
(00_scope.md rule R8, 20_memory.md rule R70). -/

namespace Sys2Proof.Machine

/-- One step. `inbox` says whose turn is next: a host transaction, the host at a `WAIT` (R99), the reset input, or the
engine. When it is empty the engine takes its step, so that a completion always comes (weak fairness, R95, R271; log entry 5). -/
def step (s : State) : Host.Outcome State Fault Refusal :=
  match s.inbox with
  | [] => engineStep s
  | .engine :: rest => engineStep { s with inbox := rest }
  | .reset :: rest => resetStep { s with inbox := rest }
  | .host t :: rest => hostStep t { s with inbox := rest }
  | .wait gaps :: rest => waitStep gaps { s with inbox := rest }

/-- The state in which the very next step runs the command word `w` (its low `nbits` bits, every bit above
them zero). Log entry 6. -/
def State.withFetchWord (s : State) (nbits w : Nat) : State := placeCommand (BitVec.ofNat 32 (w % 2 ^ nbits)) s

end Sys2Proof.Machine
end

