-- ==== Sys2Proof/Machine/HostRun.lean ====
section
/-! DEFINITION. Running the machine from outside: several steps in a row, and a host program line by line, with what its
lines state of the values read (30_encoding.md rules R98 and R99). Nothing here is used by `step`. -/

namespace Sys2Proof.Machine

/-- `n` steps in a row. -/
def runSteps : Nat → State → Host.Outcome State Fault Refusal
  | 0, s => .next s
  | n + 1, s =>
    match step s with
    | .next t => runSteps n t
    | .fault f => .fault f
    | .refused r => .refused r

/-- What the line states of the state after it: `RD t == v` states that the value read is v (R98), and
says nothing of the response: a read that is a bus error returns the value 0x00000000 (R61). -/
def lineHolds (l : HostLine) (s : State) : Bool :=
  match l with
  | .rdEq _ v => valueRead s.reply == some v
  | .label _ | .comment _ | .wr _ _ | .rd _ | .cmd _ | .wait | .ldbData _ _ | .ldbPack _ _ | .clrIrq => true

/-- How many steps a line takes when the engine moves only inside a `WAIT`: one for each transaction; a `WAIT` reads,
lets the engine complete and reads again (an idle engine's two turns then hold everything, R257). -/
def lineSteps (l : HostLine) : Nat :=
  match l with
  | .wait => 3
  | .label _ | .comment _ | .wr _ _ | .rd _ | .rdEq _ _ | .cmd _ | .ldbData _ _ | .ldbPack _ _ | .clrIrq =>
    (lineEvents l).length

/-- The program runs from s without a stop, and every value it states is the value read, on the schedule in which the
engine moves only inside a `WAIT` (R98, R99). -/
def programHolds : List HostLine → State → Bool
  | [], _ => true
  | l :: p, s =>
    match runSteps (lineSteps l) { s with inbox := lineEvents l } with
    | .next t => lineHolds l t && programHolds p t
    | .fault _ | .refused _ => false

end Sys2Proof.Machine
end

