-- ==== Sys2Proof/Safety.lean ====
section
/-! DEFINITION. What counts as a good state and a good host, in the terms the statements use: the canonical form of the
RAMs, the consistency of the engine's control state, the shape of the tree in `NODE`, prefix-free code tables, and the
host discipline of 70_reset_and_hazards.md section 3. Nothing here is used by `step`. -/

namespace Sys2Proof.Machine

/-- Every RAM is in canonical form, with the sizes of 10_state.md section 4. -/
def State.MemCanonical (s : State) : Prop :=
  ramWf 256 0#32 s.freq = true ∧ ramWf 511 Node.zero s.node = true ∧ ramWf 255 TraceEntry.zero s.trace = true ∧
  ramWf 256 CodeEntry.zero s.code = true ∧ Memory.wf s.data = true ∧ Memory.wf s.pack = true

/-- The block's registers and RAMs are those of the reset state but for what the host may write during INIT (R66,
R270): `OVERRUN` and `IRQ_EN`. -/
def State.AsAfterReset (s : State) : Prop :=
  s = { State.reset with overrun := s.overrun, doneIe := s.doneIe, errIe := s.errIe, reply := s.reply,
                         inbox := s.inbox, draws := s.draws }

/-- The engine's control state is one a run can reach (R22, R24 to R26, R94, R95, R241, R270): `PENDING` is 0 unless
busy, and then it is `LAST_CMD` and not SRST; no report stands while busy or in INIT; the error report is whole; an
empty-input report stands only on a success without a tree; in INIT the block is as after reset. -/
def State.EngineConsistent (s : State) : Prop :=
  (s.phase ≠ .busy → s.pending = 0#32) ∧
  (s.phase = .busy → s.lastCmd = s.pending ∧ s.pending ≠ encode .srst) ∧
  (s.phase ≠ .idle → s.done = false ∧ s.err = false ∧ s.empty = false) ∧
  (s.err = true → s.done = true) ∧
  (s.err = true ↔ s.errCode ≠ .none) ∧
  (s.err = false → s.errInfo = 0#32) ∧
  (s.empty = true → s.done = true ∧ s.err = false ∧ s.treeValid = false) ∧
  (s.phase = .init → s.AsAfterReset)

/-- The weight of node i as a natural number. -/
def State.weight (s : State) (i : Nat) : Nat := (s.nodeAt i).w.toNat

/-- The left and the right child of node i. -/
def State.leftOf (s : State) (i : Nat) : Nat := (s.nodeAt i).left.toNat
def State.rightOf (s : State) (i : Nat) : Nat := (s.nodeAt i).right.toNat

/-- Leaves: the first n nodes are leaves of ascending symbols, without children (R39, R140). -/
def State.LeavesWf (s : State) (n : Nat) : Prop :=
  (∀ i < n, (s.nodeAt i).valid = true ∧ (s.nodeAt i).leaf = true ∧ s.leftOf i = 0 ∧ s.rightOf i = 0 ∧ 1 ≤ s.weight i) ∧
  (∀ i < n, ∀ j < i, (s.nodeAt j).sym.toNat < (s.nodeAt i).sym.toNat)

/-- Internal nodes: node n + k, k < n − 1, has two different children of lower index and weighs their sum (R39, R143
laws 2 and 3). -/
def State.InternalsWf (s : State) (n : Nat) : Prop :=
  ∀ k < n - 1, (s.nodeAt (n + k)).valid = true ∧ (s.nodeAt (n + k)).leaf = false ∧ (s.nodeAt (n + k)).sym = 0#8 ∧
    s.leftOf (n + k) < n + k ∧ s.rightOf (n + k) < n + k ∧ s.leftOf (n + k) ≠ s.rightOf (n + k) ∧
    s.weight (n + k) = s.weight (s.leftOf (n + k)) + s.weight (s.rightOf (n + k))

/-- How many of the internal nodes n .. 2n − 2 have node i as a child. -/
def State.parentCount (s : State) (n i : Nat) : Nat :=
  (List.range (n - 1)).countP fun k => s.leftOf (n + k) == i || s.rightOf (n + k) == i

/-- Every node but the root is the child of exactly one internal node (R143 law 2). -/
def State.ParentsWf (s : State) (n : Nat) : Prop := ∀ i < 2 * n - 2, s.parentCount n i = 1

/-- `TRACE` is the merge log of the tree: entry k is the merge that made node n + k (R40, R142). -/
def State.TraceWf (s : State) (n : Nat) : Prop :=
  (∀ k < n - 1, s.traceAt k =
    { wl := (s.nodeAt (s.leftOf (n + k))).w, wr := (s.nodeAt (s.rightOf (n + k))).w, ws := (s.nodeAt (n + k)).w,
      li := (s.nodeAt (n + k)).left, ri := (s.nodeAt (n + k)).right, ni := BitVec.ofNat 9 (n + k), valid := true }) ∧
  (∀ k < 255, n - 1 ≤ k → s.traceAt k = TraceEntry.zero)

/-- `NODE`, `TRACE` and the tree registers hold one Huffman tree of n = `NUM_LEAVES` leaves (R35, R39, R40, R143). -/
def State.TreeWf (s : State) : Prop :=
  1 ≤ s.numLeaves.toNat ∧ s.numLeaves.toNat ≤ 256 ∧ s.numSteps.toNat = s.numLeaves.toNat - 1 ∧
  s.root.toNat = 2 * s.numLeaves.toNat - 2 ∧ s.weight s.root.toNat = s.totalWeight.toNat ∧
  s.LeavesWf s.numLeaves.toNat ∧ s.InternalsWf s.numLeaves.toNat ∧ s.ParentsWf s.numLeaves.toNat ∧
  (∀ i < 511, 2 * s.numLeaves.toNat - 1 ≤ i → s.nodeAt i = Node.zero) ∧ s.TraceWf s.numLeaves.toNat

/-- The tree state is one a run can reach: a whole tree when `STATUS.TREE_VALID` is 1, nothing at all when it is 0
(R25, R35, R226). -/
def State.TreeConsistent (s : State) : Prop :=
  (s.treeValid = true → s.TreeWf) ∧
  (s.treeValid = false → s.numLeaves = 0#9 ∧ s.numSteps = 0#8 ∧ s.root = 0#9 ∧ s.totalWeight = 0#32 ∧
    s.node = [] ∧ s.trace = [])

/-- Node x comes before node y in the priority order of R140, on the weights in `NODE`. -/
def State.nodeBefore (s : State) (x y : Nat) : Prop := s.weight x < s.weight y ∨ (s.weight x = s.weight y ∧ x < y)

/-- Node i is in the collection A when merge k starts, in a tree of n leaves: it exists and no earlier merge took it
(R141). -/
def State.inCollection (s : State) (n k i : Nat) : Prop :=
  i < n + k ∧ ∀ m < k, s.leftOf (n + m) ≠ i ∧ s.rightOf (n + m) ≠ i

/-- The node reached from node i along a bit string, 0 left and 1 right, none where the path passes through a leaf
(R160). -/
def State.nodeAlong (s : State) : Nat → List Bool → Option Nat
  | i, [] => some i
  | i, b :: bs =>
    if (s.nodeAt i).leaf then none else s.nodeAlong (if b then s.rightOf i else s.leftOf i) bs

/-- Symbol k has a code: `CODE[k].LEN >= 1` (R41). -/
def State.coded (s : State) (k : Nat) : Prop := (s.codeAt k).len ≠ 0#8

/-- The code table has the prefix property (R162 law 2, R185). -/
def State.PrefixFree (s : State) : Prop :=
  ∀ a < 256, ∀ b < 256, a ≠ b → s.coded a → s.coded b → ¬ s.codeBits a <+: s.codeBits b

/-- The stream S of a byte sequence (R180). -/
def State.stream (s : State) (bytes : List Byte) : List Bool := bytes.flatMap fun b => s.codeBits b.toNat

/-- The checks of UNPACK before its walk pass (R185, R186, R188). -/
def State.Unpackable (s : State) : Prop :=
  s.packLen.toNat ≤ 65536 ∧ s.PrefixFree ∧ (0 < s.bitCount.toNat → ∃ k < 256, s.coded k) ∧
  s.packLen.toNat = (s.bitCount.toNat + 7) / 8

/-- A host turn that keeps to the rules of R273 to R275 and R61: an aligned 32-bit access inside the aperture, and while
the engine is busy only the accesses R66 lets through. -/
def State.disciplined (s : State) (t : Transaction) : Prop :=
  t.wf = true ∧
  (s.busy = true →
    match t with
    | .read off _ => (locate off).readableWhileBusy = true
    | .write off _ _ => (locate off).writableWhileBusy = true)

end Sys2Proof.Machine
end

