-- ==== Sys2Proof/Certificates/Slice0/Obligations.lean ====
section
/-! DEFINITION. The statements for the provers. A next state is written out as the state before with the fields that
change, so each statement of an instruction's effect is its frame too. -/

open Sys2Proof Sys2Proof.Machine

/- ### Encoding -/

/-- The decoder accepts the twelve command words and no other of the 2^32 words, and each gives its own command back
(30_encoding.md section 2). -/
def Obligations.DecoderAcceptsExactlyTheTwelveWords : Prop :=
  ∀ (w : Word) (i : Instr), decode w = .ok i ↔ w = encode i

/-- Sanity: the words of R92's table decode to their commands (30_encoding.md section 2). -/
def Obligations.TableWordsDecodeToTheirCommands : Prop :=
  decode 0x00000000#32 = .ok .nop ∧ decode 0x00000001#32 = .ok .srst ∧ decode 0x00000010#32 = .ok .hclr ∧
  decode 0x00000011#32 = .ok .hacc ∧ decode 0x00000020#32 = .ok .build ∧ decode 0x00000030#32 = .ok .genc ∧
  decode 0x00000031#32 = .ok .cclr ∧ decode 0x00000040#32 = .ok .pack ∧ decode 0x00000050#32 = .ok .unpack ∧
  decode 0x00000060#32 = .ok .crc ∧ decode 0x00000070#32 = .ok .encode ∧ decode 0x00000071#32 = .ok .decode

/-- R93: a word with RSV ≠ 0, or with RSV = 0 and an unassigned opcode, is accepted like a legal one, and its completion,
at an engine's turn of the schedule or when no turn waits, reports ILLEGAL_CMD with the word and changes nothing else. -/
def Obligations.IllegalWordIsAcceptedAndReported : Prop :=
  ∀ (w : Word),
    (w.toNat / 256 ≠ 0 ∨
      (0x02 ≤ w.toNat ∧ w.toNat ≤ 0x0F) ∨ (0x12 ≤ w.toNat ∧ w.toNat ≤ 0x1F) ∨ (0x21 ≤ w.toNat ∧ w.toNat ≤ 0x2F) ∨
      (0x32 ≤ w.toNat ∧ w.toNat ≤ 0x3F) ∨ (0x41 ≤ w.toNat ∧ w.toNat ≤ 0x4F) ∨ (0x51 ≤ w.toNat ∧ w.toNat ≤ 0x5F) ∨
      (0x61 ≤ w.toNat ∧ w.toNat ≤ 0x6F) ∨ (0x72 ≤ w.toNat ∧ w.toNat ≤ 0xFF)) →
    (∀ (s : State) (rest : List Event), s.phase = .idle → s.inbox = .host (.write 0x008 32 w) :: rest →
      step s = .next { s with
          lastCmd := w, cmdCount := s.cmdCount + 1#32, done := false, err := false, empty := false, errCode := .none,
          errInfo := 0#32, pending := w, phase := .busy, reply := some (.write .ok), inbox := rest }) ∧
    (∀ (s : State) (rest : List Event), s.phase = .busy → s.pending = w →
      (s.inbox = [] ∧ rest = [] ∨ s.inbox = .engine :: rest) →
      step s = .next { s with
          err := true, errCode := .illegalCmd, errInfo := w, done := true, doneIp := true, errIp := true,
          pending := 0#32, phase := .idle, inbox := rest })

/- ### Steps -/

/-- R95: at the engine's turn a busy engine runs the command its latched word decodes to, whether the turn comes
because nothing waits or because it is the engine's. -/
def Obligations.EngineTurnRunsTheDecodedCommand : Prop :=
  ∀ (s : State) (i : Instr), s.phase = .busy → decode s.pending = .ok i →
    (s.inbox = [] → step s = exec i s) ∧
    (∀ rest, s.inbox = .engine :: rest → step s = exec i { s with inbox := rest })

/-- R94: the accept of a command word, SRST apart, and its loss when the engine is not idle. -/
def Obligations.AcceptLatchesTheCommandWord : Prop :=
  ∀ (s : State) (v : Word) (rest : List Event), s.inbox = .host (.write 0x008 32 v) :: rest →
    (s.phase = .idle → v ≠ 0x00000001#32 →
      step s = .next { s with
          lastCmd := v, cmdCount := s.cmdCount + 1#32, done := false, err := false, empty := false, errCode := .none,
          errInfo := 0#32, pending := v, phase := .busy, reply := some (.write .ok), inbox := rest }) ∧
    (s.phase = .idle → v = 0x00000001#32 →
      step s = .next { State.reset with reply := some (.write .ok), inbox := rest, draws := s.draws }) ∧
    (s.phase ≠ .idle → step s = .next { s with overrun := true, reply := some (.write .ok), inbox := rest })

/-- 70_reset_and_hazards.md section 1 (R271) and 60_exceptions.md section 5 (R257): the engine's turn in INIT, at an
engine's turn of the schedule or when no turn waits, ends the initialisation and does nothing else, and in a consistent
state STATUS then reads 0 unless OVERRUN was set; an idle engine's turn holds all state. -/
def Obligations.EngineTurnEndsInitAndHoldsIdle : Prop :=
  ∀ (s : State) (rest : List Event), (s.inbox = [] ∧ rest = [] ∨ s.inbox = .engine :: rest) →
    (s.phase = .init → step s = .next { s with phase := .idle, inbox := rest } ∧
      (s.EngineConsistent → State.statusWord { s with phase := .idle, inbox := rest } =
        if s.overrun then 0x00000100#32 else 0#32)) ∧
    (s.phase = .idle → step s = .next { s with inbox := rest })

/-- R270: the reset input, in any phase and whatever runs, and the accept of SRST, leave every control register at the
reset column's value, every RAM entry 0, PENDING 0, PHASE INIT and irq deasserted. -/
def Obligations.ResetLeavesTheResetColumn : Prop :=
  ∀ (s : State) (rest : List Event),
    (s.inbox = .reset :: rest ∨ (s.inbox = .host (.write 0x008 32 0x00000001#32) :: rest ∧ s.phase = .idle)) →
    ∃ t, step s = .next t ∧ t.phase = .init ∧ t.pending = 0#32 ∧ t.irq = false ∧ t.inbox = rest ∧
      t.readReg .id = 0x48554646#32 ∧ t.readReg .version = 0x00000001#32 ∧ t.readReg .status = 0x00000021#32 ∧
      (∀ r, r ≠ .id → r ≠ .version → r ≠ .status → t.readReg r = 0#32) ∧
      (∀ k, t.freqAt k = 0#32 ∧ t.nodeAt k = Node.zero ∧ t.traceAt k = TraceEntry.zero ∧
        t.codeAt k = CodeEntry.zero ∧ t.dataAt k = 0#8 ∧ t.packAt k = 0#8)

/-- 10_state.md section 6: the reset state itself has the reset column's values; every register reads its value and
every RAM entry is 0. -/
def Obligations.ResetStateHasTheResetValues : Prop :=
  State.reset.phase = .init ∧ State.reset.pending = 0#32 ∧ State.reset.irq = false ∧
  State.reset.readReg .id = 0x48554646#32 ∧ State.reset.readReg .version = 0x00000001#32 ∧
  State.reset.readReg .status = 0x00000021#32 ∧
  (∀ r, r ≠ .id → r ≠ .version → r ≠ .status → State.reset.readReg r = 0#32) ∧
  (∀ k, State.reset.freqAt k = 0#32 ∧ State.reset.nodeAt k = Node.zero ∧ State.reset.traceAt k = TraceEntry.zero ∧
    State.reset.codeAt k = CodeEntry.zero ∧ State.reset.dataAt k = 0#8 ∧ State.reset.packAt k = 0#8)

/- ### The bus -/

/-- R61: inside the aperture, a transaction at an offset that is not a multiple of four or of another width than 32 bits
gets ERROR (a read returns 0) and changes no state; every other gets OK. -/
def Obligations.BusErrorsAndOnlyTheyChangeNothingAndAnswerError : Prop :=
  ∀ (s : State) (rest : List Event) (off width : Nat), off < 0x40000 →
    ((off % 4 ≠ 0 ∨ width ≠ 32) →
      (s.inbox = .host (.read off width) :: rest →
        step s = .next { s with reply := some (.read .error 0#32), inbox := rest }) ∧
      (∀ v, s.inbox = .host (.write off width v) :: rest →
        step s = .next { s with reply := some (.write .error), inbox := rest })) ∧
    (off % 4 = 0 → width = 32 →
      (s.inbox = .host (.read off width) :: rest →
        ∃ t v, step s = .next t ∧ t.reply = some (.read .ok v)) ∧
      (∀ v, s.inbox = .host (.write off width v) :: rest →
        ∃ t, step s = .next t ∧ t.reply = some (.write .ok)))

/-- R75: the model refuses a transaction at an offset of 0x40000 or above. -/
def Obligations.OffsetsBeyondTheApertureAreRefused : Prop :=
  ∀ (s : State) (rest : List Event) (off width : Nat), 0x40000 ≤ off →
    (s.inbox = .host (.read off width) :: rest → step s = .refused (.outsideAperture off)) ∧
    (∀ v, s.inbox = .host (.write off width v) :: rest → step s = .refused (.outsideAperture off))

/-- R66, the writes: while busy, a write to IRQ_EN, IRQ_STATUS or STATUS takes effect as when idle, and every other
write is lost and sets OVERRUN; the response is OK. (20_memory.md section 3.) -/
def Obligations.WritesWhileBusyAreLostButForThreeRegisters : Prop :=
  ∀ (s : State) (rest : List Event) (off : Nat) (v : Word), s.phase ≠ .idle → off < 0x40000 → off % 4 = 0 →
    s.inbox = .host (.write off 32 v) :: rest →
    (off = 0x00C → step s = .next { s with overrun := s.overrun && !v.getLsbD 8, reply := some (.write .ok), inbox := rest }) ∧
    (off = 0x018 → step s = .next { s with doneIe := v.getLsbD 0, errIe := v.getLsbD 1, reply := some (.write .ok), inbox := rest }) ∧
    (off = 0x01C → step s = .next { s with
        doneIp := s.doneIp && !v.getLsbD 0, errIp := s.errIp && !v.getLsbD 1, reply := some (.write .ok),
        inbox := rest }) ∧
    (off ≠ 0x00C → off ≠ 0x018 → off ≠ 0x01C →
      step s = .next { s with overrun := true, reply := some (.write .ok), inbox := rest })

/-- R66, the reads: while busy, ID, VERSION, CMD, STATUS, CMD_COUNT, IRQ_EN and IRQ_STATUS give their current values;
every other location gives a fresh free value; nothing else changes. (20_memory.md section 3; that a reserved offset is
such a location is the model's reading, log entry 7.) -/
def Obligations.ReadsWhileBusyAreFreeButForSevenRegisters : Prop :=
  ∀ (s : State) (rest : List Event) (off : Nat), s.phase ≠ .idle → off < 0x40000 → off % 4 = 0 →
    s.inbox = .host (.read off 32) :: rest →
    (off = 0x000 → step s = .next { s with reply := some (.read .ok 0x48554646#32), inbox := rest }) ∧
    (off = 0x004 → step s = .next { s with reply := some (.read .ok 0x00000001#32), inbox := rest }) ∧
    (off = 0x008 → step s = .next { s with reply := some (.read .ok s.lastCmd), inbox := rest }) ∧
    (off = 0x00C → step s = .next { s with reply := some (.read .ok s.statusWord), inbox := rest }) ∧
    (off = 0x014 → step s = .next { s with reply := some (.read .ok s.cmdCount), inbox := rest }) ∧
    (off = 0x018 → step s = .next { s with reply := some (.read .ok s.irqEnWord), inbox := rest }) ∧
    (off = 0x01C → step s = .next { s with reply := some (.read .ok s.irqStatusWord), inbox := rest }) ∧
    (off ∉ [0x000, 0x004, 0x008, 0x00C, 0x014, 0x018, 0x01C] →
      step s = .next { s with reply := some (.read .ok (Config.freeBusRead s.draws)), inbox := rest, draws := s.draws + 1 })

/-- 20_memory.md sections 1 and 2 (the map of R62, R63 and R65, the words of R39 and R40): what an idle read of each
window returns, reserved offsets reading 0 (R37, R67); it changes nothing but the reply. -/
def Obligations.IdleReadsReturnTheMappedEntry : Prop :=
  ∀ (s : State) (rest : List Event) (off : Nat) (x : Word), s.phase = .idle → s.inbox = .host (.read off 32) :: rest →
    ((∃ k < 256, off = 0x00400 + 4 * k ∧ x = s.freqAt k) ∨
     (∃ k < 255, off = 0x01000 + 16 * k ∧ x = (s.traceAt k).wl) ∨
     (∃ k < 255, off = 0x01000 + 16 * k + 4 ∧ x = (s.traceAt k).wr) ∨
     (∃ k < 255, off = 0x01000 + 16 * k + 8 ∧ x = (s.traceAt k).ws) ∨
     (∃ k < 255, off = 0x01000 + 16 * k + 12 ∧
       x.toNat = (s.traceAt k).valid.toNat * 2 ^ 31 + (s.traceAt k).ni.toNat * 2 ^ 18 + (s.traceAt k).ri.toNat * 2 ^ 9
         + (s.traceAt k).li.toNat) ∨
     (∃ i < 511, off = 0x02000 + 16 * i ∧ x = (s.nodeAt i).w) ∨
     (∃ i < 511, off = 0x02000 + 16 * i + 4 ∧
       x.toNat = (s.nodeAt i).valid.toNat * 2 ^ 31 + (s.nodeAt i).leaf.toNat * 2 ^ 30 + (s.nodeAt i).sym.toNat) ∨
     (∃ i < 511, off = 0x02000 + 16 * i + 8 ∧ x.toNat = (s.nodeAt i).left.toNat) ∨
     (∃ i < 511, off = 0x02000 + 16 * i + 12 ∧ x.toNat = (s.nodeAt i).right.toNat) ∨
     (∃ k < 256, off = 0x04000 + 64 * k ∧ x.toNat = (s.codeAt k).len.toNat) ∨
     (∃ k < 256, ∃ j < 8, off = 0x04000 + 64 * k + 4 + 4 * j ∧ x.toNat = (s.codeAt k).val.toNat / 2 ^ (32 * j) % 2 ^ 32) ∨
     (∃ w < 16384, off = 0x10000 + 4 * w ∧
       x.toNat = (s.dataAt (4 * w)).toNat + (s.dataAt (4 * w + 1)).toNat * 2 ^ 8 + (s.dataAt (4 * w + 2)).toNat * 2 ^ 16
         + (s.dataAt (4 * w + 3)).toNat * 2 ^ 24) ∨
     (∃ w < 16384, off = 0x20000 + 4 * w ∧
       x.toNat = (s.packAt (4 * w)).toNat + (s.packAt (4 * w + 1)).toNat * 2 ^ 8 + (s.packAt (4 * w + 2)).toNat * 2 ^ 16
         + (s.packAt (4 * w + 3)).toNat * 2 ^ 24) ∨
     (off % 4 = 0 ∧ off < 0x40000 ∧ x = 0#32 ∧
       ((0x048 ≤ off ∧ off < 0x400) ∨ (0x800 ≤ off ∧ off < 0x1000) ∨ (0x1FF0 ≤ off ∧ off < 0x2000) ∨
        (0x3FF0 ≤ off ∧ off < 0x4000) ∨ (0x4000 ≤ off ∧ off < 0x8000 ∧ 0x24 ≤ off % 64) ∨
        (0x8000 ≤ off ∧ off < 0x10000) ∨ 0x30000 ≤ off))) →
    step s = .next { s with reply := some (.read .ok x), inbox := rest }

/-- 10_state.md section 3: what an idle read at each control register's literal offset returns; `regOffset` is that
offset. -/
def Obligations.IdleReadsReturnTheControlRegisters : Prop :=
  ∀ (s : State) (rest : List Event) (r : Reg) (off : Nat), s.phase = .idle → s.inbox = .host (.read off 32) :: rest →
    off = (match r with
      | .id => 0x000
      | .version => 0x004
      | .cmd => 0x008
      | .status => 0x00C
      | .errInfo => 0x010
      | .cmdCount => 0x014
      | .irqEn => 0x018
      | .irqStatus => 0x01C
      | .dataLen => 0x020
      | .bitCount => 0x024
      | .packLen => 0x028
      | .crcResult => 0x02C
      | .crcExpect => 0x030
      | .numLeaves => 0x034
      | .numSteps => 0x038
      | .root => 0x03C
      | .totalWeight => 0x040
      | .maxLen => 0x044) →
    step s = .next { s with reply := some (.read .ok (s.readReg r)), inbox := rest } ∧ regOffset r = off ∧
    (∀ r', regOffset r' = off → r' = r) ∧
    (s.readReg r).toNat =
      match r with
      | .id => 0x48554646
      | .version => 1
      | .cmd => s.lastCmd.toNat
      | .status => s.done.toNat * 2 + s.err.toNat * 4 + s.empty.toNat * 8 + s.treeValid.toNat * 16
          + s.overrun.toNat * 2 ^ 8 + s.errCode.value.toNat * 2 ^ 16
      | .errInfo => s.errInfo.toNat
      | .cmdCount => s.cmdCount.toNat
      | .irqEn => s.doneIe.toNat + s.errIe.toNat * 2
      | .irqStatus => s.doneIp.toNat + s.errIp.toNat * 2
      | .dataLen => s.dataLen.toNat
      | .bitCount => s.bitCount.toNat
      | .packLen => s.packLen.toNat
      | .crcResult => s.crcResult.toNat
      | .crcExpect => s.crcExpect.toNat
      | .numLeaves => s.numLeaves.toNat
      | .numSteps => s.numSteps.toNat
      | .root => s.root.toNat
      | .totalWeight => s.totalWeight.toNat
      | .maxLen => s.maxLen.toNat

/-- 20_memory.md sections 1 to 3 (R62, R65, R67, R70): an idle write to a window that the host may write changes the entry
it maps to, the byte windows little-endian (R63), and nothing else. -/
def Obligations.IdleWritesStoreInTheMappedEntry : Prop :=
  ∀ (s : State) (rest : List Event) (off : Nat) (v : Word), s.phase = .idle →
    s.inbox = .host (.write off 32 v) :: rest →
    (∀ k < 256, off = 0x00400 + 4 * k →
      ∃ m, step s = .next { s with freq := m, reply := some (.write .ok), inbox := rest } ∧
        ∀ j, ramRead 0#32 m j = if j = k then v else s.freqAt j) ∧
    (∀ k < 256, off = 0x04000 + 64 * k →
      ∃ m, step s = .next { s with code := m, reply := some (.write .ok), inbox := rest } ∧
        ∀ j, ramRead CodeEntry.zero m j =
          if j = k then { len := BitVec.ofNat 8 v.toNat, val := (s.codeAt k).val } else s.codeAt j) ∧
    (∀ k < 256, ∀ i < 8, off = 0x04000 + 64 * k + 4 + 4 * i →
      ∃ m, step s = .next { s with code := m, reply := some (.write .ok), inbox := rest } ∧
        (ramRead CodeEntry.zero m k).len = (s.codeAt k).len ∧
        (∀ b < 256, (ramRead CodeEntry.zero m k).val.getLsbD b =
          if b / 32 = i then v.getLsbD (b % 32) else (s.codeAt k).val.getLsbD b) ∧
        ∀ j, j ≠ k → ramRead CodeEntry.zero m j = s.codeAt j) ∧
    (∀ w < 16384, off = 0x10000 + 4 * w →
      ∃ m, step s = .next { s with data := m, reply := some (.write .ok), inbox := rest } ∧
        ∀ j, ramRead 0#8 m j = if j / 4 = w then v.extractLsb' (8 * (j % 4)) 8 else s.dataAt j) ∧
    (∀ w < 16384, off = 0x20000 + 4 * w →
      ∃ m, step s = .next { s with pack := m, reply := some (.write .ok), inbox := rest } ∧
        ∀ j, ramRead 0#8 m j = if j / 4 = w then v.extractLsb' (8 * (j % 4)) 8 else s.packAt j)

/-- 10_state.md section 3 and R67: an idle write to a control register stores in the RW registers, clears in the W1C
bits, and is ignored by the read-only and the reserved ones; a write to NODE, TRACE or a reserved offset is ignored. -/
def Obligations.IdleWritesFollowTheAccessColumn : Prop :=
  ∀ (s : State) (rest : List Event) (off : Nat) (v : Word), s.phase = .idle → off < 0x40000 → off % 4 = 0 →
    s.inbox = .host (.write off 32 v) :: rest →
    (off = 0x00C → step s = .next { s with overrun := s.overrun && !v.getLsbD 8, reply := some (.write .ok), inbox := rest }) ∧
    (off = 0x018 → step s = .next { s with doneIe := v.getLsbD 0, errIe := v.getLsbD 1, reply := some (.write .ok), inbox := rest }) ∧
    (off = 0x01C → step s = .next { s with
        doneIp := s.doneIp && !v.getLsbD 0, errIp := s.errIp && !v.getLsbD 1, reply := some (.write .ok),
        inbox := rest }) ∧
    (off = 0x020 → step s = .next { s with dataLen := v, reply := some (.write .ok), inbox := rest }) ∧
    (off = 0x024 → step s = .next { s with bitCount := v, reply := some (.write .ok), inbox := rest }) ∧
    (off = 0x028 → step s = .next { s with packLen := v, reply := some (.write .ok), inbox := rest }) ∧
    (off = 0x030 → step s = .next { s with crcExpect := v, reply := some (.write .ok), inbox := rest }) ∧
    ((off ∈ [0x000, 0x004, 0x010, 0x014, 0x02C, 0x034, 0x038, 0x03C, 0x040, 0x044] ∨ (0x048 ≤ off ∧ off < 0x400) ∨
      (0x800 ≤ off ∧ off < 0x4000) ∨ (0x4000 ≤ off ∧ off < 0x8000 ∧ 0x24 ≤ off % 64) ∨ (0x8000 ≤ off ∧ off < 0x10000) ∨
      0x30000 ≤ off) →
      step s = .next { s with reply := some (.write .ok), inbox := rest })

/-- 70_reset_and_hazards.md sections 2 and 3 (R273 to R275): a host turn that keeps to the discipline is answered OK,
never refused, loses no write (OVERRUN is not set by it) and draws no unspecified value. 30_encoding.md section 6 (R99):
the host's turn at a WAIT is such a read of STATUS, and changes only the reply and the turns to come: an idle engine's
value has bit 0 = 0 and the WAIT ends; otherwise bit 0 is 1 and the host stays at the WAIT, behind the turns of the next
gap, or behind the engine's turn when no gap is left (the gaps are the model's own schedule, log entry 5). -/
def Obligations.DisciplinedHostTurnsLoseNothing : Prop :=
  ∀ (s : State) (rest : List Event),
    (∀ (t : Transaction), s.inbox = .host t :: rest → s.disciplined t →
      ∃ u, step s = .next u ∧ u.draws = s.draws ∧ (s.overrun = false → u.overrun = false) ∧
        (u.reply = some (.write .ok) ∨ ∃ v, u.reply = some (.read .ok v))) ∧
    (∀ (gaps : List (List Turn)), s.inbox = .wait gaps :: rest →
      (s.phase = .idle → s.statusWord.getLsbD 0 = false ∧
        step s = .next { s with reply := some (.read .ok s.statusWord), inbox := rest }) ∧
      (s.phase ≠ .idle → s.statusWord.getLsbD 0 = true ∧
        (∀ g more, gaps = g :: more → step s = .next { s with
            reply := some (.read .ok s.statusWord), inbox := g.map turnEvent ++ .wait more :: rest }) ∧
        (gaps = [] → step s = .next { s with
            reply := some (.read .ok s.statusWord), inbox := .engine :: .wait [] :: rest })))

/-- 60_exceptions.md section 4 (R249, R250): the interrupt line is the level of the enabled pending bits; enabling a
source whose pending bit is 1 asserts it at once, and clearing both pending bits deasserts it. -/
def Obligations.InterruptLineFollowsEnabledPendingBits : Prop :=
  ∀ (s : State) (rest : List Event) (v : Word),
    (s.inbox = .host (.write 0x018 32 v) :: rest →
      ∃ t, step s = .next t ∧ t.doneIp = s.doneIp ∧ t.errIp = s.errIp ∧
        (t.irq = true ↔ (s.doneIp = true ∧ v.getLsbD 0 = true) ∨ (s.errIp = true ∧ v.getLsbD 1 = true))) ∧
    (s.inbox = .host (.write 0x01C 32 v) :: rest → v.getLsbD 0 = true → v.getLsbD 1 = true →
      ∃ t, step s = .next t ∧ t.irq = false ∧ t.doneIe = s.doneIe ∧ t.errIe = s.errIe)

/- ### Completions and errors -/

/-- 30_encoding.md section 4 and 60_exceptions.md section 4 (R95, R249): every completion, success or error, reports
DONE, sets DONE_IP, sets ERR_IP exactly on an error, leaves the enables, OVERRUN, CMD and CMD_COUNT, and makes the
engine idle. -/
def Obligations.EveryCompletionReportsDone : Prop :=
  ∀ (i : Instr) (s t : State), i ≠ .srst → exec i s = .next t →
    t.done = true ∧ t.doneIp = true ∧ t.errIp = (s.errIp || t.err) ∧ t.pending = 0#32 ∧ t.phase = .idle ∧
    t.doneIe = s.doneIe ∧ t.errIe = s.errIe ∧ t.overrun = s.overrun ∧ t.lastCmd = s.lastCmd ∧ t.cmdCount = s.cmdCount ∧
    (t.err = true ↔ t.errCode ≠ .none) ∧ (t.err = false → t.errInfo = 0#32)

/-- R241: a command that fails changes only the error report and the completion state. -/
def Obligations.FailedCommandChangesOnlyTheErrorReport : Prop :=
  ∀ (i : Instr) (s t : State), exec i s = .next t → t.err = true →
    t = { s with
        err := true, errCode := t.errCode, errInfo := t.errInfo, done := true, doneIp := true, errIp := true,
        pending := 0#32, phase := .idle } ∧ t.errCode ≠ .none

/-- 30_encoding.md section 2 (the column "writes on success" of R92's table): a command that succeeds changes only what
its row of the table names, and the completion state. -/
def Obligations.SuccessfulCommandWritesOnlyItsColumn : Prop :=
  ∀ (i : Instr) (s t : State), exec i s = .next t → t.err = false → i ≠ .srst →
    let u : State := { t with
        done := s.done, err := s.err, errCode := s.errCode, errInfo := s.errInfo, doneIp := s.doneIp,
        pending := s.pending, phase := s.phase }
    match i with
    | .nop | .srst => u = s
    | .hclr | .hacc => u = { s with freq := t.freq }
    | .build => u = { s with
        node := t.node, trace := t.trace, numLeaves := t.numLeaves, numSteps := t.numSteps, root := t.root,
        totalWeight := t.totalWeight, treeValid := t.treeValid }
    | .genc | .cclr => u = { s with code := t.code, maxLen := t.maxLen }
    | .pack => u = { s with pack := t.pack, bitCount := t.bitCount, packLen := t.packLen }
    | .unpack => u = { s with data := t.data, dataLen := t.dataLen }
    | .crc => u = { s with crcResult := t.crcResult }
    | .encode => u = { s with
        freq := t.freq, node := t.node, trace := t.trace, numLeaves := t.numLeaves, numSteps := t.numSteps,
        root := t.root, totalWeight := t.totalWeight, treeValid := t.treeValid, code := t.code, maxLen := t.maxLen,
        pack := t.pack, bitCount := t.bitCount, packLen := t.packLen, crcResult := t.crcResult, empty := t.empty }
    | .decode => u = { s with data := t.data, dataLen := t.dataLen, crcResult := t.crcResult }

/-- 30_encoding.md section 2 (the column "reads" of R92's table) and R276: what a command reports and writes is a
function of what its row says it reads: two states that agree on that give the same report and the same results.
ENCODE writes EMPTY for the empty input only (R226), so EMPTY agrees afterwards when it agreed before, as it does after
an accept (R94). -/
def Obligations.CommandsReadOnlyTheirColumn : Prop :=
  ∀ (s s' t t' : State),
    (exec .hacc s = .next t → exec .hacc s' = .next t' → s.dataLen = s'.dataLen → s.data = s'.data → s.freq = s'.freq →
      t.errCode = t'.errCode ∧ t.errInfo = t'.errInfo ∧ t.freq = t'.freq) ∧
    (exec .build s = .next t → exec .build s' = .next t' → s.freq = s'.freq →
      t.errCode = t'.errCode ∧ t.errInfo = t'.errInfo ∧ (t.err = false → t.node = t'.node ∧ t.trace = t'.trace ∧
        t.numLeaves = t'.numLeaves ∧ t.numSteps = t'.numSteps ∧ t.root = t'.root ∧ t.totalWeight = t'.totalWeight ∧
        t.treeValid = t'.treeValid)) ∧
    (exec .genc s = .next t → exec .genc s' = .next t' → s.treeValid = s'.treeValid → s.node = s'.node →
      s.numLeaves = s'.numLeaves → s.root = s'.root →
      t.errCode = t'.errCode ∧ t.errInfo = t'.errInfo ∧ (t.err = false → t.code = t'.code ∧ t.maxLen = t'.maxLen)) ∧
    (exec .pack s = .next t → exec .pack s' = .next t' → s.dataLen = s'.dataLen → s.data = s'.data → s.code = s'.code →
      t.errCode = t'.errCode ∧ t.errInfo = t'.errInfo ∧ (t.err = false → t.bitCount = t'.bitCount ∧
        t.packLen = t'.packLen ∧ ∀ j < t.packLen.toNat, t.packAt j = t'.packAt j)) ∧
    (exec .unpack s = .next t → exec .unpack s' = .next t' → s.packLen = s'.packLen → s.bitCount = s'.bitCount →
      s.pack = s'.pack → s.code = s'.code →
      t.errCode = t'.errCode ∧ t.errInfo = t'.errInfo ∧ (t.err = false → t.dataLen = t'.dataLen ∧
        ∀ i < t.dataLen.toNat, t.dataAt i = t'.dataAt i)) ∧
    (exec .crc s = .next t → exec .crc s' = .next t' → s.dataLen = s'.dataLen → s.data = s'.data →
      t.errCode = t'.errCode ∧ t.errInfo = t'.errInfo ∧ (t.err = false → t.crcResult = t'.crcResult)) ∧
    (exec .encode s = .next t → exec .encode s' = .next t' → s.dataLen = s'.dataLen → s.data = s'.data →
      t.errCode = t'.errCode ∧ t.errInfo = t'.errInfo ∧ (t.err = false → t.freq = t'.freq ∧ t.node = t'.node ∧
        t.trace = t'.trace ∧ t.code = t'.code ∧ t.maxLen = t'.maxLen ∧ t.bitCount = t'.bitCount ∧
        t.packLen = t'.packLen ∧ t.crcResult = t'.crcResult ∧ t.numLeaves = t'.numLeaves ∧ t.numSteps = t'.numSteps ∧
        t.root = t'.root ∧ t.totalWeight = t'.totalWeight ∧ t.treeValid = t'.treeValid ∧
        (s.empty = s'.empty → t.empty = t'.empty) ∧ ∀ j < t.packLen.toNat, t.packAt j = t'.packAt j)) ∧
    (exec .decode s = .next t → exec .decode s' = .next t' → s.packLen = s'.packLen → s.bitCount = s'.bitCount →
      s.pack = s'.pack → s.code = s'.code → s.crcExpect = s'.crcExpect →
      t.errCode = t'.errCode ∧ t.errInfo = t'.errInfo ∧ (t.err = false → t.dataLen = t'.dataLen ∧
        t.crcResult = t'.crcResult ∧ ∀ i < t.dataLen.toNat, t.dataAt i = t'.dataAt i))

/-- 60_exceptions.md section 1 (R243): HACC, PACK, CRC and ENCODE raise LEN_RANGE with DATA_LEN when it exceeds
DATA_BYTES, and UNPACK and DECODE raise PACK_LEN_RANGE with PACK_LEN when it exceeds PACK_BYTES, whatever else holds. -/
def Obligations.LengthsOutOfRangeAreReportedFirst : Prop :=
  ∀ (s : State),
    (65536 < s.dataLen.toNat → ∀ i ∈ [Instr.hacc, Instr.pack, Instr.crc, Instr.encode],
      exec i s = .next { s with
          err := true, errCode := .lenRange, errInfo := s.dataLen, done := true, doneIp := true, errIp := true,
          pending := 0#32, phase := .idle }) ∧
    (65536 < s.packLen.toNat → ∀ i ∈ [Instr.unpack, Instr.decode],
      exec i s = .next { s with
          err := true, errCode := .packLenRange, errInfo := s.packLen, done := true, doneIp := true, errIp := true,
          pending := 0#32, phase := .idle })

/- ### Control -/

/-- R220: NOP does nothing but complete. -/
def Obligations.NopOnlyCompletes : Prop :=
  encode .nop = 0x00000000#32 ∧
  ∀ (s : State), exec .nop s = .next { s with
      err := false, errCode := .none, errInfo := 0#32, done := true, doneIp := true, pending := 0#32,
      phase := .idle }

/-- 45_control.md section 1 (R221): SRST, accepted only while idle, is at its accept exactly the reset input's step: it leaves the reset state, in
INIT, with CMD_COUNT, CMD and DONE 0 and no interrupt pending, and there is no completion. A word with opcode 0x01 and
RSV ≠ 0 is latched instead. That SRST's meaning is that reset from EVERY state, busy ones included, is the model's own
reading (log entry 13, DEDUCED): R221 speaks of the accept only. -/
def Obligations.SrstResetsAtTheAccept : Prop :=
  encode .srst = 0x00000001#32 ∧
  (∀ (s : State), exec .srst s = .next { State.reset with reply := s.reply, inbox := s.inbox, draws := s.draws }) ∧
  (∀ (s : State) (rest : List Event), s.inbox = .host (.write 0x008 32 0x00000001#32) :: rest →
    (s.phase = .idle →
      step s = step { s with reply := some (.write .ok), inbox := .reset :: rest } ∧
      ∃ t, step s = .next t ∧
        t = { State.reset with reply := some (.write .ok), inbox := rest, draws := s.draws } ∧ t.phase = .init ∧
        t.done = false ∧ t.doneIp = false ∧ t.errIp = false ∧ t.readReg .cmdCount = 0#32 ∧ t.readReg .cmd = 0#32) ∧
    (s.phase ≠ .idle → step s = .next { s with overrun := true, reply := some (.write .ok), inbox := rest })) ∧
  (∀ (s : State) (rest : List Event) (w : Word), w.toNat % 256 = 1 → w ≠ 0x00000001#32 → s.phase = .idle →
    s.inbox = .host (.write 0x008 32 w) :: rest → ∃ t, step s = .next t ∧ t.phase = .busy ∧ t.pending = w ∧ t.freq = s.freq)

/- ### Histogram -/

/-- R121: HCLR clears every FREQ entry and nothing else. -/
def Obligations.HclrClearsEveryCounter : Prop :=
  encode .hclr = 0x00000010#32 ∧
  ∀ (s : State), ∃ f, exec .hclr s = .next { s with
      freq := f, err := false, errCode := .none, errInfo := 0#32, done := true, doneIp := true, pending := 0#32,
      phase := .idle } ∧ ∀ k, ramRead 0#32 f k = 0#32

/-- R122, success (40_histogram.md): HACC adds to each counter how often its symbol stands in the input, and changes
nothing else. -/
def Obligations.HaccAddsTheByteCounts : Prop :=
  ∀ (s : State), s.dataLen.toNat ≤ 65536 →
    (∀ k < 256, (s.freqAt k).toNat + (List.range s.dataLen.toNat).countP (fun i => (s.dataAt i).toNat == k) < 2 ^ 32) →
    ∃ f, exec .hacc s = .next { s with
        freq := f, err := false, errCode := .none, errInfo := 0#32, done := true, doneIp := true, pending := 0#32,
        phase := .idle } ∧
      ∀ k < 256, (ramRead 0#32 f k).toNat =
        (s.freqAt k).toNat + (List.range s.dataLen.toNat).countP (fun i => (s.dataAt i).toNat == k)

/-- R122, overflow (40_histogram.md): the smallest symbol whose counter would pass 2^32 − 1 is reported, and FREQ stays. -/
def Obligations.HaccReportsTheSmallestOverflowingSymbol : Prop :=
  ∀ (s : State) (k : Nat), s.dataLen.toNat ≤ 65536 → k < 256 →
    2 ^ 32 ≤ (s.freqAt k).toNat + (List.range s.dataLen.toNat).countP (fun i => (s.dataAt i).toNat == k) →
    (∀ j < k, (s.freqAt j).toNat + (List.range s.dataLen.toNat).countP (fun i => (s.dataAt i).toNat == j) < 2 ^ 32) →
    exec .hacc s = .next { s with
        err := true, errCode := .freqOverflow, errInfo := BitVec.ofNat 32 k, done := true, doneIp := true,
        errIp := true, pending := 0#32, phase := .idle }

/-- R123 (40_histogram.md): after HCLR and then HACC of n bytes the counts sum to n, and a count is at least 1 exactly
for the symbols that occur. -/
def Obligations.CountsOfAClearTableSumToTheLength : Prop :=
  ∀ (s t u : State), s.dataLen.toNat ≤ 65536 → exec .hclr s = .next t → exec .hacc t = .next u →
    u.err = false ∧ ((List.range 256).map fun k => (u.freqAt k).toNat).sum = s.dataLen.toNat ∧
    ∀ k < 256, 1 ≤ (u.freqAt k).toNat ↔ ∃ i < s.dataLen.toNat, (s.dataAt i).toNat = k

/- ### Tree builder -/

/-- R141 with R143 (41_tree_builder.md): BUILD of a table with at least one count and a total below 2^32 completes with
a whole Huffman tree: its leaves are the present symbols in ascending order with their counts, its root weighs the
total, and nothing but the tree state changes. -/
def Obligations.BuildCompletesWithATreeOfThePresentSymbols : Prop :=
  ∀ (s : State), (∃ k < 256, s.freqAt k ≠ 0#32) → ((List.range 256).map fun k => (s.freqAt k).toNat).sum < 2 ^ 32 →
    ∃ t : State, exec .build s = .next { s with
        node := t.node, trace := t.trace, numLeaves := t.numLeaves, numSteps := t.numSteps, root := t.root,
        totalWeight := t.totalWeight, treeValid := true, err := false, errCode := .none, errInfo := 0#32,
        done := true, doneIp := true, pending := 0#32, phase := .idle } ∧
      t.TreeWf ∧
      t.numLeaves.toNat = (List.range 256).countP (fun k => s.freqAt k ≠ 0#32) ∧
      t.totalWeight.toNat = ((List.range 256).map fun k => (s.freqAt k).toNat).sum ∧
      (∀ i < t.numLeaves.toNat, (t.nodeAt i).w = s.freqAt (t.nodeAt i).sym.toNat) ∧
      (∀ k < 256, s.freqAt k ≠ 0#32 → ∃ i < t.numLeaves.toNat, (t.nodeAt i).sym.toNat = k)

/-- R140 and the extraction of R141 (41_tree_builder.md): each merge takes, of the nodes not yet taken, the one of least
key (weight, index) as left child and the next as right child. -/
def Obligations.EveryMergeTakesTheTwoLeastNodes : Prop :=
  ∀ (s t : State), exec .build s = .next t → t.err = false → ∀ k < t.numLeaves.toNat - 1,
    let n := t.numLeaves.toNat
    t.inCollection n k (t.leftOf (n + k)) ∧ t.inCollection n k (t.rightOf (n + k)) ∧
    (∀ c, t.inCollection n k c → c ≠ t.leftOf (n + k) → t.nodeBefore (t.leftOf (n + k)) c) ∧
    (∀ c, t.inCollection n k c → c ≠ t.leftOf (n + k) → c ≠ t.rightOf (n + k) → t.nodeBefore (t.rightOf (n + k)) c)

/-- R141 and R160, errors (41_tree_builder.md, 42_code_generator.md): BUILD raises EMPTY_TABLE when every count is 0 and
WEIGHT_OVERFLOW when the counts sum to more than 2^32 − 1, GENC raises NO_TREE without a valid tree; nothing but the
error report changes. -/
def Obligations.BuildAndGencReportTheirErrors : Prop :=
  ∀ (s : State),
    ((∀ k < 256, s.freqAt k = 0#32) →
      exec .build s = .next { s with
          err := true, errCode := .emptyTable, errInfo := 0#32, done := true, doneIp := true, errIp := true,
          pending := 0#32, phase := .idle }) ∧
    (2 ^ 32 ≤ ((List.range 256).map fun k => (s.freqAt k).toNat).sum →
      exec .build s = .next { s with
          err := true, errCode := .weightOverflow, errInfo := 0#32, done := true, doneIp := true, errIp := true,
          pending := 0#32, phase := .idle }) ∧
    (s.treeValid = false →
      exec .genc s = .next { s with
          err := true, errCode := .noTree, errInfo := 0#32, done := true, doneIp := true, errIp := true,
          pending := 0#32, phase := .idle })

/-- R143 law 5 (41_tree_builder.md): in the trace of a BUILD the left weight is at most the right one, and the sums never
decrease. -/
def Obligations.TraceWeightsAreOrdered : Prop :=
  ∀ (s t : State), exec .build s = .next t → t.err = false → ∀ k < t.numSteps.toNat,
    (t.traceAt k).wl.toNat ≤ (t.traceAt k).wr.toNat ∧
    (t.traceAt k).ws.toNat = (t.traceAt k).wl.toNat + (t.traceAt k).wr.toNat ∧
    (k + 1 < t.numSteps.toNat → (t.traceAt k).ws.toNat ≤ (t.traceAt (k + 1)).ws.toNat)

/- ### Code generator -/

/-- R160 (42_code_generator.md): GENC on a tree of two or more leaves completes; the code of a leaf's symbol is its path
from the root, a symbol without a leaf has LEN = 0 and VAL = 0, VAL has no bit at or above LEN, MAX_LEN is the largest
LEN, and nothing else changes. -/
def Obligations.GencWritesTheTreePaths : Prop :=
  ∀ (s : State), s.treeValid = true → s.TreeWf → 2 ≤ s.numLeaves.toNat →
    ∃ t : State, exec .genc s = .next { s with
        code := t.code, maxLen := t.maxLen, err := false, errCode := .none, errInfo := 0#32, done := true,
        doneIp := true, pending := 0#32, phase := .idle } ∧
      (∀ i < s.numLeaves.toNat, ∃ path, s.nodeAlong s.root.toNat path = some i ∧ 1 ≤ path.length ∧ path.length ≤ 255 ∧
        t.codeBits (s.nodeAt i).sym.toNat = path ∧
        ∀ p, s.nodeAlong s.root.toNat p = some i → p = path) ∧
      (∀ k, (∀ i < s.numLeaves.toNat, (s.nodeAt i).sym.toNat ≠ k) → t.codeAt k = CodeEntry.zero) ∧
      (∀ k, (t.codeAt k).val.toNat < 2 ^ (t.codeAt k).len.toNat) ∧
      (∀ k, (t.codeAt k).len.toNat ≤ t.maxLen.toNat) ∧ (∃ k < 256, (t.codeAt k).len.toNat = t.maxLen.toNat)

/-- R160, the single leaf (42_code_generator.md): its symbol gets the code "0", every other symbol none; MAX_LEN is 1. -/
def Obligations.GencGivesTheSingleLeafTheCodeZero : Prop :=
  ∀ (s : State), s.treeValid = true → s.numLeaves = 1#9 →
    ∃ c, exec .genc s = .next { s with
        code := c, maxLen := 1#8, err := false, errCode := .none, errInfo := 0#32, done := true, doneIp := true,
        pending := 0#32, phase := .idle } ∧
      ∀ k, ramRead CodeEntry.zero c k = if k = (s.nodeAt 0).sym.toNat then { len := 1#8, val := 0#256 } else CodeEntry.zero

/-- R161: CCLR clears every CODE entry and MAX_LEN, and nothing else. -/
def Obligations.CclrClearsEveryCode : Prop :=
  encode .cclr = 0x00000031#32 ∧
  ∀ (s : State), ∃ c, exec .cclr s = .next { s with
      code := c, maxLen := 0#8, err := false, errCode := .none, errInfo := 0#32, done := true, doneIp := true,
      pending := 0#32, phase := .idle } ∧
    ∀ k, ramRead CodeEntry.zero c k = CodeEntry.zero

/-- R162 laws 1 to 3 (42_code_generator.md): after BUILD and GENC, exactly the symbols with a count have a code, no code
is a prefix of another, and with two or more symbols the codes are complete (their Kraft sum, scaled by 2^255, is
2^255). -/
def Obligations.GeneratedCodesArePrefixFreeAndComplete : Prop :=
  ∀ (s t u : State), exec .build s = .next t → t.err = false → exec .genc t = .next u →
    u.err = false ∧ (∀ k < 256, u.coded k ↔ s.freqAt k ≠ 0#32) ∧ u.PrefixFree ∧
    (2 ≤ t.numLeaves.toNat →
      ((List.range 256).map fun k =>
        if (u.codeAt k).len.toNat = 0 then 0 else 2 ^ (255 - (u.codeAt k).len.toNat)).sum = 2 ^ 255)

/- ### Bit packer and unpacker -/

/-- R181 with R180 and R182, success (43_bit_packer.md): when every input byte has a code and the stream fits, PACK
stores the stream most significant bit first, pads the last byte with 0 bits, leaves the bytes after it, and writes
BIT_COUNT and PACK_LEN; nothing else changes. -/
def Obligations.PackStoresTheStream : Prop :=
  ∀ (s : State), s.dataLen.toNat ≤ 65536 → (∀ i < s.dataLen.toNat, s.coded (s.dataAt i).toNat) →
    (s.stream ((List.range s.dataLen.toNat).map s.dataAt)).length ≤ 524288 →
    ∃ t : State, exec .pack s = .next { s with
        pack := t.pack, bitCount := t.bitCount, packLen := t.packLen, err := false, errCode := .none,
        errInfo := 0#32, done := true, doneIp := true, pending := 0#32, phase := .idle } ∧
      t.bitCount.toNat = (s.stream ((List.range s.dataLen.toNat).map s.dataAt)).length ∧
      t.packLen.toNat = (t.bitCount.toNat + 7) / 8 ∧
      t.packedBits t.bitCount.toNat = s.stream ((List.range s.dataLen.toNat).map s.dataAt) ∧
      (∀ p, t.bitCount.toNat ≤ p → p < 8 * t.packLen.toNat → t.packBit p = false) ∧
      (∀ j, t.packLen.toNat ≤ j → t.packAt j = s.packAt j)

/-- R181, errors (43_bit_packer.md): the first byte without a code raises NO_CODE with index × 256 + symbol, the first
byte whose code would take the stream past 524288 bits raises PACK_OVERFLOW with its index, whichever comes first. -/
def Obligations.PackReportsTheFirstBadByte : Prop :=
  ∀ (s : State) (i : Nat), s.dataLen.toNat ≤ 65536 → i < s.dataLen.toNat →
    (∀ j < i, s.coded (s.dataAt j).toNat) → (s.stream ((List.range i).map s.dataAt)).length ≤ 524288 →
    (¬ s.coded (s.dataAt i).toNat →
      exec .pack s = .next { s with
          err := true, errCode := .noCode, errInfo := BitVec.ofNat 32 (i * 256 + (s.dataAt i).toNat), done := true,
          doneIp := true, errIp := true, pending := 0#32, phase := .idle }) ∧
    (s.coded (s.dataAt i).toNat → 524288 < (s.stream ((List.range (i + 1)).map s.dataAt)).length →
      exec .pack s = .next { s with
          err := true, errCode := .packOverflow, errInfo := BitVec.ofNat 32 i, done := true, doneIp := true,
          errIp := true, pending := 0#32, phase := .idle })

/-- R185, R186 and the order of R188 (43_bit_packer.md): for UNPACK and DECODE alike, the first clashing pair of codes is
reported before an empty table, that before a length mismatch. -/
def Obligations.UnpackChecksTableThenLength : Prop :=
  ∀ (s : State), s.packLen.toNat ≤ 65536 → ∀ i ∈ [Instr.unpack, Instr.decode],
    (∀ a b, a < b → b < 256 → s.coded a → s.coded b → (s.codeBits a <+: s.codeBits b ∨ s.codeBits b <+: s.codeBits a) →
      (∀ a' b', a' < b' → b' < 256 → (a' < a ∨ (a' = a ∧ b' < b)) → s.coded a' → s.coded b' →
        ¬ s.codeBits a' <+: s.codeBits b' ∧ ¬ s.codeBits b' <+: s.codeBits a') →
      exec i s = .next { s with
          err := true, errCode := .invalidCodeTable, errInfo := BitVec.ofNat 32 (0x00010000 + b * 256 + a),
          done := true, doneIp := true, errIp := true, pending := 0#32, phase := .idle }) ∧
    ((∀ k < 256, ¬ s.coded k) → s.bitCount ≠ 0#32 →
      exec i s = .next { s with
          err := true, errCode := .invalidCodeTable, errInfo := 0#32, done := true, doneIp := true, errIp := true,
          pending := 0#32, phase := .idle }) ∧
    (s.PrefixFree → (s.bitCount ≠ 0#32 → ∃ k < 256, s.coded k) → s.packLen.toNat ≠ (s.bitCount.toNat + 7) / 8 →
      exec i s = .next { s with
          err := true, errCode := .malformedBitstream, errInfo := 0x40000000#32, done := true, doneIp := true,
          errIp := true, pending := 0#32, phase := .idle })

/-- R187 and R188, success (43_bit_packer.md): when the checks pass and the meaningful bits are the codes of `out` in
order, UNPACK delivers exactly `out`, leaves the bytes after it, writes DATA_LEN, and changes nothing else. -/
def Obligations.UnpackDeliversTheCodedBytes : Prop :=
  ∀ (s : State) (out : List Byte), s.Unpackable → out.length ≤ 65536 → (∀ b ∈ out, s.coded b.toNat) →
    s.packedBits s.bitCount.toNat = s.stream out →
    ∃ d, exec .unpack s = .next { s with
        data := d, dataLen := BitVec.ofNat 32 out.length, err := false, errCode := .none, errInfo := 0#32,
        done := true, doneIp := true, pending := 0#32, phase := .idle } ∧
      ∀ i, ramRead 0#8 d i = if h : i < out.length then out[i] else s.dataAt i

/-- 43_bit_packer.md section 3 (R187, R189 law 4): whenever UNPACK succeeds, its checks passed and the codes of the
bytes it delivered concatenate to exactly the meaningful bits it read. -/
def Obligations.UnpackSuccessIsSound : Prop :=
  ∀ (s t : State), exec .unpack s = .next t → t.err = false →
    s.Unpackable ∧ t.dataLen.toNat ≤ 65536 ∧ (∀ i < t.dataLen.toNat, s.coded (t.dataAt i).toNat) ∧
    s.stream ((List.range t.dataLen.toNat).map t.dataAt) = s.packedBits s.bitCount.toNat

/-- R187, the walk's errors (43_bit_packer.md): after the codes of `out` and a path inside a code, a bit with no branch
is reason 2 at its position and the end of the bits is reason 3; a 65537th symbol is OUTPUT_OVERFLOW at its last bit.
UNPACK and DECODE report them alike. -/
def Obligations.WalkErrorsAreReportedAtTheirBit : Prop :=
  ∀ (s : State) (out : List Byte) (path : List Bool), s.Unpackable → (∀ b ∈ out, s.coded b.toNat) →
    (path = [] ∨ ∃ k < 256, s.coded k ∧ path <+: s.codeBits k ∧ path ≠ s.codeBits k) →
    ∀ i ∈ [Instr.unpack, Instr.decode],
    (out.length ≤ 65536 → ∀ b rest, s.packedBits s.bitCount.toNat = s.stream out ++ path ++ b :: rest →
      (∀ k < 256, s.coded k → ¬ (path ++ [b]) <+: s.codeBits k) →
      exec i s = .next { s with
          err := true, errCode := .malformedBitstream,
          errInfo := BitVec.ofNat 32 (0x80000000 + (s.stream out).length + path.length), done := true,
          doneIp := true, errIp := true, pending := 0#32, phase := .idle }) ∧
    (out.length ≤ 65536 → path ≠ [] → s.packedBits s.bitCount.toNat = s.stream out ++ path →
      exec i s = .next { s with
          err := true, errCode := .malformedBitstream, errInfo := BitVec.ofNat 32 (0xC0000000 + s.bitCount.toNat),
          done := true, doneIp := true, errIp := true, pending := 0#32, phase := .idle }) ∧
    (out.length = 65537 → s.stream out <+: s.packedBits s.bitCount.toNat →
      exec i s = .next { s with
          err := true, errCode := .outputOverflow, errInfo := BitVec.ofNat 32 ((s.stream out).length - 1),
          done := true, doneIp := true, errIp := true, pending := 0#32, phase := .idle })

/-- R189 law 1 (43_bit_packer.md): what PACK made with a prefix-free table, UNPACK on any state that holds the same
table, packed bytes, BIT_COUNT and PACK_LEN turns back into the input. -/
def Obligations.UnpackInvertsPack : Prop :=
  ∀ (s t u : State), exec .pack s = .next t → t.err = false → s.PrefixFree → (∀ k < 256, u.codeAt k = s.codeAt k) →
    u.bitCount = t.bitCount → u.packLen = t.packLen → (∀ j < t.packLen.toNat, u.packAt j = t.packAt j) →
    ∃ v, exec .unpack u = .next v ∧ v.err = false ∧ v.dataLen = s.dataLen ∧
      ∀ i < s.dataLen.toNat, v.dataAt i = s.dataAt i

/-- R189 law 2 and R230 law 3 (43_bit_packer.md, 45_control.md): an artifact with PACK_LEN lowered by one and BIT_COUNT
kept is rejected as a length mismatch by UNPACK and DECODE. -/
def Obligations.TruncatedArtifactIsRejected : Prop :=
  ∀ (s t u : State), exec .pack s = .next t → t.err = false → s.PrefixFree → 1 ≤ s.dataLen.toNat →
    (∀ k < 256, u.codeAt k = s.codeAt k) → u.bitCount = t.bitCount → u.packLen = t.packLen - 1#32 →
    ∀ i ∈ [Instr.unpack, Instr.decode],
      exec i u = .next { u with
          err := true, errCode := .malformedBitstream, errInfo := 0x40000000#32, done := true, doneIp := true,
          errIp := true, pending := 0#32, phase := .idle }

/-- R189 law 3 and R187 (43_bit_packer.md): padding bits and the bytes after the packed ones are never read: two states
that agree on the meaningful bits give the same outcome for UNPACK and DECODE. -/
def Obligations.PaddingIsNeverRead : Prop :=
  ∀ (s : State) (m : Memory), (∀ p < s.bitCount.toNat, State.packBit { s with pack := m } p = s.packBit p) →
    ∀ i ∈ [Instr.unpack, Instr.decode], ∀ t, exec i s = .next t → exec i { s with pack := m } = .next { t with pack := m }

/- ### CRC -/

/-- R211: CRC writes the checksum of the input and nothing else, and raises LEN_RANGE when the length is out of range. -/
def Obligations.CrcWritesTheChecksumOfTheInput : Prop :=
  encode .crc = 0x00000060#32 ∧
  ∀ (s : State),
    (s.dataLen.toNat ≤ 65536 →
      exec .crc s = .next { s with
          crcResult := crc32 ((List.range s.dataLen.toNat).map s.dataAt), err := false, errCode := .none,
          errInfo := 0#32, done := true, doneIp := true, pending := 0#32, phase := .idle }) ∧
    (65536 < s.dataLen.toNat →
      exec .crc s = .next { s with
          err := true, errCode := .lenRange, errInfo := s.dataLen, done := true, doneIp := true, errIp := true,
          pending := 0#32, phase := .idle })

/-- R210 and R212 (44_crc.md): the published check value, the checksums of no byte, of 00 and of FF. -/
def Obligations.CrcHasItsCheckValues : Prop :=
  crc32 [0x31#8, 0x32#8, 0x33#8, 0x34#8, 0x35#8, 0x36#8, 0x37#8, 0x38#8, 0x39#8] = 0xCBF43926#32 ∧
  crc32 [] = 0#32 ∧ crc32 [0#8] = 0xD202EF8D#32 ∧ crc32 [0xFF#8] = 0xFF000000#32

/-- R212 (44_crc.md): two sequences of equal length that differ in exactly one bit, and more generally in one byte, have
different checksums. -/
def Obligations.CrcDetectsAChangedByte : Prop :=
  ∀ (pre post : List Byte) (a b : Byte), a ≠ b → crc32 (pre ++ a :: post) ≠ crc32 (pre ++ b :: post)

/- ### Sequencer -/

/-- R226: ENCODE of the empty input succeeds, writes the empty artifact, writes no PACK byte, and reports EMPTY. -/
def Obligations.EncodeOfNothingWritesTheEmptyArtifact : Prop :=
  ∀ (s : State), s.dataLen = 0#32 →
    ∃ f c nd tr, exec .encode s = .next { s with
        freq := f, code := c, node := nd, trace := tr, numLeaves := 0#9, numSteps := 0#8, root := 0#9,
        totalWeight := 0#32, treeValid := false, maxLen := 0#8, bitCount := 0#32, packLen := 0#32,
        crcResult := 0x00000000#32, empty := true, err := false, errCode := .none, errInfo := 0#32, done := true,
        doneIp := true, pending := 0#32, phase := .idle } ∧
      ∀ k, ramRead 0#32 f k = 0#32 ∧ ramRead CodeEntry.zero c k = CodeEntry.zero ∧
        ramRead Node.zero nd k = Node.zero ∧ ramRead TraceEntry.zero tr k = TraceEntry.zero

/-- R227 (45_control.md): ENCODE of 1 to 65536 bytes always succeeds; its results are those of BUILD on the fresh counts
of the input, GENC on that tree and PACK with those codes, none of which fails, and the checksum of the input; they are
committed together and nothing else changes. -/
def Obligations.EncodeRunsTheUnitsAndNeverFails : Prop :=
  ∀ (s : State), 1 ≤ s.dataLen.toNat → s.dataLen.toNat ≤ 65536 →
    ∃ (f : Ram Word) (t1 t2 t3 : State),
      (∀ k < 256, (ramRead 0#32 f k).toNat =
        (List.range s.dataLen.toNat).countP (fun i => (s.dataAt i).toNat == k)) ∧
      exec .build { s with freq := f } = .next t1 ∧ t1.err = false ∧
      exec .genc t1 = .next t2 ∧ t2.err = false ∧ exec .pack t2 = .next t3 ∧ t3.err = false ∧
      exec .encode s = .next { s with
          freq := f, node := t1.node, trace := t1.trace, numLeaves := t1.numLeaves, numSteps := t1.numSteps,
          root := t1.root, totalWeight := t1.totalWeight, treeValid := true, code := t2.code, maxLen := t2.maxLen,
          pack := t3.pack, bitCount := t3.bitCount, packLen := t3.packLen,
          crcResult := crc32 ((List.range s.dataLen.toNat).map s.dataAt), err := false, errCode := .none,
          errInfo := 0#32, done := true, doneIp := true, pending := 0#32, phase := .idle }

/-- R230 law 2 (45_control.md): k copies of one byte encode to the one-bit code "0", k bits, all-zero packed bytes. -/
def Obligations.EncodeOfOneRepeatedByte : Prop :=
  ∀ (s : State) (b : Byte), 1 ≤ s.dataLen.toNat → s.dataLen.toNat ≤ 65536 →
    (∀ i < s.dataLen.toNat, s.dataAt i = b) →
    ∃ t, exec .encode s = .next t ∧ t.err = false ∧ t.codeAt b.toNat = { len := 1#8, val := 0#256 } ∧
      t.bitCount = s.dataLen ∧ (∀ j < t.packLen.toNat, t.packAt j = 0#8)

/-- R228 and R229, success (45_control.md): when the checks pass, the meaningful bits are the codes of `out` and the
checksum of `out` is CRC_EXPECT, DECODE delivers `out` and its checksum, and changes nothing else. -/
def Obligations.DecodeDeliversTheVerifiedBytes : Prop :=
  ∀ (s : State) (out : List Byte), s.Unpackable → out.length ≤ 65536 → (∀ b ∈ out, s.coded b.toNat) →
    s.packedBits s.bitCount.toNat = s.stream out → crc32 out = s.crcExpect →
    ∃ d, exec .decode s = .next { s with
        data := d, dataLen := BitVec.ofNat 32 out.length, crcResult := crc32 out, err := false, errCode := .none,
        errInfo := 0#32, done := true, doneIp := true, pending := 0#32, phase := .idle } ∧
      ∀ i, ramRead 0#8 d i = if h : i < out.length then out[i] else s.dataAt i

/-- R229: DECODE compares the checksum of the decoded bytes with CRC_EXPECT, all 32 bits; any difference raises
INTEGRITY_FAILURE with the computed checksum, and the bytes are not delivered. -/
def Obligations.DecodeRejectsAWrongChecksum : Prop :=
  ∀ (s : State) (out : List Byte), s.Unpackable → out.length ≤ 65536 → (∀ b ∈ out, s.coded b.toNat) →
    s.packedBits s.bitCount.toNat = s.stream out → crc32 out ≠ s.crcExpect →
    exec .decode s = .next { s with
        err := true, errCode := .integrityFailure, errInfo := crc32 out, done := true, doneIp := true, errIp := true,
        pending := 0#32, phase := .idle }

/-- R230 law 1 (45_control.md): ENCODE, then DECODE of the artifact on any instance that holds it, gives the input back,
for every input of 0 to 65536 bytes. -/
def Obligations.DecodeInvertsEncode : Prop :=
  ∀ (s t u : State), s.dataLen.toNat ≤ 65536 → exec .encode s = .next t → (∀ k < 256, u.codeAt k = t.codeAt k) →
    u.bitCount = t.bitCount → u.packLen = t.packLen → u.crcExpect = t.crcResult →
    (∀ j < t.packLen.toNat, u.packAt j = t.packAt j) →
    t.err = false ∧ ∃ v, exec .decode u = .next v ∧ v.err = false ∧ v.dataLen = s.dataLen ∧
      ∀ i < s.dataLen.toNat, v.dataAt i = s.dataAt i

/- ### The whole machine -/

/-- R96 (30_encoding.md section 4): in every state whose tree state is consistent, every command ends in a next state.
30_encoding.md section 6 (R99): hence every WAIT ends too, whatever turns of the engine and of the reset input come
between its reads: after at least one step, with a read of STATUS that has bit 0 = 0 and an idle engine; before that no
later turn comes. -/
def Obligations.EveryCommandEnds : Prop :=
  ∀ (s : State), s.TreeConsistent →
    (∀ (i : Instr), ∃ t, exec i s = .next t) ∧
    (∀ (gaps : List (List Turn)) (rest : List Event), s.inbox = .wait gaps :: rest →
      ∃ n t, 1 ≤ n ∧ runSteps n s = .next t ∧ t.inbox = rest ∧ t.phase = .idle ∧
        t.reply = some (.read .ok t.statusWord) ∧ t.statusWord.getLsbD 0 = false ∧
        ∀ m < n, ∃ (u : State) (between : List Turn) (more : List (List Turn)), runSteps m s = .next u ∧
          u.inbox = between.map turnEvent ++ .wait more :: rest)

/-- 10_state.md section 4: the reset state meets the three invariants below. -/
def Obligations.ResetMeetsTheInvariants : Prop :=
  State.reset.MemCanonical ∧ State.reset.EngineConsistent ∧ State.reset.TreeConsistent

/-- 10_state.md section 4 and the sizes of 00_scope.md R6: every step keeps the canonical form of the six RAMs (the
form is the model's own, log entry 8): no entry outside its RAM is ever written. -/
def Obligations.StepKeepsTheRamsCanonical : Prop :=
  ∀ (s t : State), s.MemCanonical → step s = .next t → t.MemCanonical

/-- 10_state.md sections 2 and 3 (R22, R24 to R26): every step keeps the engine's control state consistent. -/
def Obligations.StepKeepsTheEngineConsistent : Prop :=
  ∀ (s t : State), s.EngineConsistent → step s = .next t → t.EngineConsistent

/-- 41_tree_builder.md (R143) and 10_state.md section 4 (R35, R39, R40): every step keeps NODE, TRACE and the tree
registers one whole Huffman tree, or nothing at all. -/
def Obligations.StepKeepsTheTreeConsistent : Prop :=
  ∀ (s t : State), s.TreeConsistent → step s = .next t → t.TreeConsistent
end

