-- ==== Sys2Proof/Laws/Ram.lean ====
section
/-! SUPPORT. The laws of the RAM operations: what an entry reads as after a write, and that every operation keeps the
canonical form. -/

namespace Sys2Proof.Machine

variable {α : Type} [DecidableEq α]

@[simp] theorem ramRead_nil {α : Type} (d : α) (i : Nat) : ramRead d [] i = d := rfl

theorem ramRead_cons {α : Type} (d : α) (j : Nat) (v : α) (m : Ram α) (i : Nat) :
    ramRead d ((j, v) :: m) i = if j = i then v else ramRead d m i := rfl

theorem ramRead_of_not_mem {α : Type} (d : α) (m : Ram α) (i : Nat) (h : ∀ c ∈ m, c.1 ≠ i) : ramRead d m i = d := by
  induction m with
  | nil => rfl
  | cons c m ih =>
    obtain ⟨j, v⟩ := c
    have hj : j ≠ i := h (j, v) (by simp)
    rw [ramRead_cons, if_neg hj]
    exact ih fun c hc => h c (by simp [hc])

theorem ramRead_filter {α : Type} (d : α) (p : Nat → Bool) (m : Ram α) (i : Nat) :
    ramRead d (m.filter fun c => p c.1) i = if p i then ramRead d m i else d := by
  induction m with
  | nil => simp
  | cons c m ih =>
    obtain ⟨j, v⟩ := c
    by_cases hj : j = i
    · subst hj
      cases hp : p j <;> simp [hp, ramRead_cons, ih]
    · cases hp : p j <;> simp [hp, ramRead_cons, hj, ih]

theorem ramRead_append_right {α : Type} (d : α) (x y : Ram α) (i : Nat) (h : ∀ c ∈ x, c.1 ≠ i) :
    ramRead d (x ++ y) i = ramRead d y i := by
  induction x with
  | nil => rfl
  | cons c x ih =>
    obtain ⟨j, v⟩ := c
    have hj : j ≠ i := h (j, v) (by simp)
    rw [List.cons_append, ramRead_cons, if_neg hj]
    exact ih fun c hc => h c (by simp [hc])

theorem ramRead_append_left {α : Type} (d : α) (x y : Ram α) (i : Nat) (h : ∀ c ∈ y, c.1 ≠ i) :
    ramRead d (x ++ y) i = ramRead d x i := by
  induction x with
  | nil => simpa using ramRead_of_not_mem d y i h
  | cons c x ih =>
    obtain ⟨j, v⟩ := c
    rw [List.cons_append, ramRead_cons, ramRead_cons, ih]

theorem ramCells_nil (d : α) (a : Nat) : ramCells d a ([] : List α) = [] := rfl

theorem ramCells_cons (d : α) (a : Nat) (v : α) (vs : List α) :
    ramCells d a (v :: vs) = if v = d then ramCells d (a + 1) vs else (a, v) :: ramCells d (a + 1) vs := by
  by_cases h : v = d <;> simp [ramCells, List.zipIdx_cons, h]

theorem ramCells_mem (d : α) (a : Nat) (vs : List α) (c : Nat × α) (h : c ∈ ramCells d a vs) :
    a ≤ c.1 ∧ c.1 < a + vs.length ∧ c.2 ≠ d := by
  induction vs generalizing a with
  | nil => simp [ramCells_nil] at h
  | cons v vs ih =>
    rw [ramCells_cons] at h
    by_cases hv : v = d
    · rw [if_pos hv] at h
      have := ih (a + 1) h
      simp only [List.length_cons]
      exact ⟨by omega, by omega, this.2.2⟩
    · rw [if_neg hv, List.mem_cons] at h
      simp only [List.length_cons]
      rcases h with rfl | h
      · exact ⟨le_refl _, by simp, hv⟩
      · have := ih (a + 1) h
        exact ⟨by omega, by omega, this.2.2⟩

theorem ramRead_cells (d : α) (a : Nat) (vs : List α) (i : Nat) :
    ramRead d (ramCells d a vs) i = if a ≤ i then vs.getD (i - a) d else d := by
  induction vs generalizing a with
  | nil => simp [ramCells_nil]
  | cons v vs ih =>
    rw [ramCells_cons]
    by_cases hai : a = i
    · subst hai
      by_cases hv : v = d
      · rw [if_pos hv, ih, if_neg (by omega)]; simp [hv]
      · rw [if_neg hv, ramRead_cons, if_pos rfl]; simp
    · have hrec : ramRead d (if v = d then ramCells d (a + 1) vs else (a, v) :: ramCells d (a + 1) vs) i
          = ramRead d (ramCells d (a + 1) vs) i := by
        by_cases hv : v = d
        · rw [if_pos hv]
        · rw [if_neg hv, ramRead_cons, if_neg hai]
      rw [hrec, ih]
      by_cases h : a + 1 ≤ i
      · rw [if_pos h, if_pos (by omega), show i - a = (i - (a + 1)) + 1 by omega, List.getD_cons_succ]
      · rw [if_neg h, if_neg (by omega)]

/-- What an entry reads as after a block write. -/
theorem ramRead_splice (d : α) (m : Ram α) (a : Nat) (vs : List α) (i : Nat) :
    ramRead d (ramSplice d m a vs) i =
      if a ≤ i ∧ i < a + vs.length then vs.getD (i - a) d else ramRead d m i := by
  have hlow : ∀ c ∈ m.filter (fun c => decide (c.1 < a)), c.1 < a := by simp
  have hhigh : ∀ c ∈ m.filter (fun c => decide (a + vs.length ≤ c.1)), a + vs.length ≤ c.1 := by simp
  have hmid := ramCells_mem d a vs
  rw [ramSplice]
  by_cases h1 : i < a
  · rw [ramRead_append_left _ _ _ _ (fun c hc => by have := hhigh c hc; omega),
      ramRead_append_left _ _ _ _ (fun c hc => by have := hmid c hc; omega),
      ramRead_filter d (fun k => decide (k < a)), if_pos (by simpa using h1), if_neg (by omega)]
  · by_cases h2 : i < a + vs.length
    · rw [ramRead_append_left _ _ _ _ (fun c hc => by have := hhigh c hc; omega),
        ramRead_append_right _ _ _ _ (fun c hc => by have := hlow c hc; omega), ramRead_cells, if_pos (by omega),
        if_pos (by omega)]
    · rw [ramRead_append_right _ _ _ _ (by
          intro c hc
          rcases List.mem_append.mp hc with hc | hc
          · have := hlow c hc; omega
          · have := hmid c hc; omega),
        ramRead_filter d (fun k => decide (a + vs.length ≤ k)), if_pos (by simp; omega), if_neg (by omega)]

@[simp] theorem ramRead_write (d : α) (m : Ram α) (i : Nat) (v : α) (j : Nat) :
    ramRead d (ramWrite d m i v) j = if j = i then v else ramRead d m j := by
  rw [ramWrite, ramRead_splice]
  by_cases h : j = i
  · subst h; simp
  · rw [if_neg (by simp; omega), if_neg h]

theorem ramRead_ofList (d : α) (vs : List α) (i : Nat) : ramRead d (ramOfList d vs) i = vs.getD i d := by
  rw [ramOfList, ramRead_cells]; simp

theorem ramRead_memWrite (m : Memory) (a : Nat) (v : List Byte) (i : Nat) :
    ramRead 0#8 (memWrite m a v) i = if a ≤ i ∧ i < a + v.length then v.getD (i - a) 0#8 else ramRead 0#8 m i :=
  ramRead_splice _ _ _ _ _

@[simp] theorem memRead_length (m : Memory) (a n : Nat) : (memRead m a n).length = n := by simp [memRead]

theorem memRead_zero_eq (m : Memory) (n : Nat) : memRead m 0 n = (List.range n).map (ramRead 0#8 m) := by
  simp [memRead, List.range_eq_range']

/- The canonical form. -/

theorem ramWf_iff (size : Nat) (d : α) (m : Ram α) :
    ramWf size d m = true ↔ m.Pairwise (fun x y => x.1 < y.1) ∧ ∀ c ∈ m, c.1 < size ∧ c.2 ≠ d := by
  simp [ramWf]

@[simp] theorem ramWf_nil (size : Nat) (d : α) : ramWf size d ([] : Ram α) = true := by simp [ramWf]

theorem ramCells_sorted (d : α) (a : Nat) (vs : List α) : (ramCells d a vs).Pairwise fun x y => x.1 < y.1 := by
  induction vs generalizing a with
  | nil => simp [ramCells_nil]
  | cons v vs ih =>
    rw [ramCells_cons]
    by_cases hv : v = d
    · rw [if_pos hv]; exact ih _
    · rw [if_neg hv, List.pairwise_cons]
      refine ⟨fun c hc => ?_, ih _⟩
      have := ramCells_mem d (a + 1) vs c hc
      simp only
      omega

theorem ramOfList_wf (size : Nat) (d : α) (vs : List α) (h : vs.length ≤ size) :
    ramWf size d (ramOfList d vs) = true := by
  rw [ramWf_iff]
  refine ⟨ramCells_sorted _ _ _, fun c hc => ?_⟩
  have := ramCells_mem d 0 vs c hc
  exact ⟨by omega, this.2.2⟩

/-- A block write inside the RAM keeps the canonical form. -/
theorem ramSplice_wf (size : Nat) (d : α) (m : Ram α) (a : Nat) (vs : List α) (hm : ramWf size d m = true)
    (h : a + vs.length ≤ size) : ramWf size d (ramSplice d m a vs) = true := by
  rw [ramWf_iff] at hm ⊢
  obtain ⟨hs, hb⟩ := hm
  have hmid := ramCells_mem d a vs
  constructor
  · rw [ramSplice, List.pairwise_append, List.pairwise_append]
    refine ⟨⟨hs.filter _, ramCells_sorted _ _ _, ?_⟩, hs.filter _, ?_⟩
    · intro x hx y hy
      have := hmid y hy
      simp only [List.mem_filter, decide_eq_true_eq] at hx
      omega
    · intro x hx y hy
      simp only [List.mem_append, List.mem_filter, decide_eq_true_eq] at hx hy
      rcases hx with hx | hx
      · omega
      · have := hmid x hx; omega
  · intro c hc
    simp only [ramSplice, List.mem_append, List.mem_filter] at hc
    rcases hc with (⟨hc, -⟩ | hc) | ⟨hc, -⟩
    · exact hb c hc
    · have := hmid c hc
      exact ⟨by omega, this.2.2⟩
    · exact hb c hc

theorem ramWrite_wf (size : Nat) (d : α) (m : Ram α) (i : Nat) (v : α) (hm : ramWf size d m = true) (h : i < size) :
    ramWf size d (ramWrite d m i v) = true :=
  ramSplice_wf size d m i [v] hm (by simp; omega)

/-- `MemWrite` inside the RAM keeps the canonical form of a byte RAM. -/
theorem memWrite_wf (m : Memory) (a : Nat) (v : List Byte) (hm : Memory.wf m = true) (h : a + v.length ≤ 65536) :
    Memory.wf (memWrite m a v) = true := ramSplice_wf _ _ _ _ _ hm h

/-- A bus write of a word of a byte window keeps the canonical form. -/
theorem memSetWord_wf (m : Memory) (w : Nat) (v : Word) (hm : Memory.wf m = true) (h : w < 16384) :
    Memory.wf (memSetWord m w v) = true := by
  unfold memSetWord
  refine ramWrite_wf _ _ _ _ _ (ramWrite_wf _ _ _ _ _ (ramWrite_wf _ _ _ _ _ (ramWrite_wf _ _ _ _ _ hm ?_) ?_) ?_) ?_
    <;> omega

/-- In canonical form, equal contents are equal data. -/
theorem ramWf_ext (size : Nat) (d : α) (x y : Ram α) (hx : ramWf size d x = true) (hy : ramWf size d y = true)
    (h : ∀ i, ramRead d x i = ramRead d y i) : x = y := by
  rw [ramWf_iff] at hx hy
  induction x generalizing y with
  | nil =>
    cases y with
    | nil => rfl
    | cons c y =>
      obtain ⟨j, v⟩ := c
      have := h j
      rw [ramRead_cons, if_pos rfl] at this
      exact absurd this.symm (hy.2 (j, v) (by simp)).2
  | cons c x ih =>
    obtain ⟨i, u⟩ := c
    cases y with
    | nil =>
      have := h i
      rw [ramRead_cons, if_pos rfl] at this
      exact absurd this (hx.2 (i, u) (by simp)).2
    | cons c' y =>
      obtain ⟨j, v⟩ := c'
      have hxs := List.pairwise_cons.mp hx.1
      have hys := List.pairwise_cons.mp hy.1
      have hnx : ∀ k ≤ i, ramRead d x k = d := fun k hk =>
        ramRead_of_not_mem d x k fun c hc => by have := hxs.1 c hc; simp only at this; omega
      have hny : ∀ k ≤ j, ramRead d y k = d := fun k hk =>
        ramRead_of_not_mem d y k fun c hc => by have := hys.1 c hc; simp only at this; omega
      have hu : u ≠ d := (hx.2 (i, u) (by simp)).2
      have hv : v ≠ d := (hy.2 (j, v) (by simp)).2
      have hij : i = j := by
        by_contra hne
        rcases Nat.lt_or_gt_of_ne hne with hlt | hlt
        · have := h i
          rw [ramRead_cons, if_pos rfl, ramRead_cons, if_neg (by omega), hny i (by omega)] at this
          exact hu this
        · have := h j
          rw [ramRead_cons, if_neg (by omega), ramRead_cons, if_pos rfl, hnx j (by omega)] at this
          exact hv this.symm
      subst hij
      have huv : u = v := by simpa [ramRead_cons] using h i
      subst huv
      congr 1
      refine ih y ⟨hxs.2, fun c hc => hx.2 c (by simp [hc])⟩ ⟨hys.2, fun c hc => hy.2 c (by simp [hc])⟩ fun k => ?_
      by_cases hk : i = k
      · subst hk; rw [hnx i (le_refl _), hny i (le_refl _)]
      · simpa [ramRead_cons, hk] using h k

end Sys2Proof.Machine
end

