-- ==== Sys2Proof/Laws/State.lean ====
section
/-! SUPPORT. One lemma per field per named update of State, each true by rfl, so that no later proof unfolds a record
update. -/

namespace Sys2Proof.Machine

@[simp] theorem State.completeOk_phase (s : State) : (State.completeOk s).phase = .idle := rfl
@[simp] theorem State.completeOk_pending (s : State) : (State.completeOk s).pending = 0#32 := rfl
@[simp] theorem State.completeOk_lastCmd (s : State) : (State.completeOk s).lastCmd = s.lastCmd := rfl
@[simp] theorem State.completeOk_done (s : State) : (State.completeOk s).done = true := rfl
@[simp] theorem State.completeOk_err (s : State) : (State.completeOk s).err = false := rfl
@[simp] theorem State.completeOk_empty (s : State) : (State.completeOk s).empty = s.empty := rfl
@[simp] theorem State.completeOk_treeValid (s : State) : (State.completeOk s).treeValid = s.treeValid := rfl
@[simp] theorem State.completeOk_overrun (s : State) : (State.completeOk s).overrun = s.overrun := rfl
@[simp] theorem State.completeOk_errCode (s : State) : (State.completeOk s).errCode = .none := rfl
@[simp] theorem State.completeOk_errInfo (s : State) : (State.completeOk s).errInfo = 0#32 := rfl
@[simp] theorem State.completeOk_cmdCount (s : State) : (State.completeOk s).cmdCount = s.cmdCount := rfl
@[simp] theorem State.completeOk_doneIe (s : State) : (State.completeOk s).doneIe = s.doneIe := rfl
@[simp] theorem State.completeOk_errIe (s : State) : (State.completeOk s).errIe = s.errIe := rfl
@[simp] theorem State.completeOk_doneIp (s : State) : (State.completeOk s).doneIp = true := rfl
@[simp] theorem State.completeOk_errIp (s : State) : (State.completeOk s).errIp = s.errIp := rfl
@[simp] theorem State.completeOk_dataLen (s : State) : (State.completeOk s).dataLen = s.dataLen := rfl
@[simp] theorem State.completeOk_bitCount (s : State) : (State.completeOk s).bitCount = s.bitCount := rfl
@[simp] theorem State.completeOk_packLen (s : State) : (State.completeOk s).packLen = s.packLen := rfl
@[simp] theorem State.completeOk_crcResult (s : State) : (State.completeOk s).crcResult = s.crcResult := rfl
@[simp] theorem State.completeOk_crcExpect (s : State) : (State.completeOk s).crcExpect = s.crcExpect := rfl
@[simp] theorem State.completeOk_numLeaves (s : State) : (State.completeOk s).numLeaves = s.numLeaves := rfl
@[simp] theorem State.completeOk_numSteps (s : State) : (State.completeOk s).numSteps = s.numSteps := rfl
@[simp] theorem State.completeOk_root (s : State) : (State.completeOk s).root = s.root := rfl
@[simp] theorem State.completeOk_totalWeight (s : State) : (State.completeOk s).totalWeight = s.totalWeight := rfl
@[simp] theorem State.completeOk_maxLen (s : State) : (State.completeOk s).maxLen = s.maxLen := rfl
@[simp] theorem State.completeOk_freq (s : State) : (State.completeOk s).freq = s.freq := rfl
@[simp] theorem State.completeOk_node (s : State) : (State.completeOk s).node = s.node := rfl
@[simp] theorem State.completeOk_trace (s : State) : (State.completeOk s).trace = s.trace := rfl
@[simp] theorem State.completeOk_code (s : State) : (State.completeOk s).code = s.code := rfl
@[simp] theorem State.completeOk_data (s : State) : (State.completeOk s).data = s.data := rfl
@[simp] theorem State.completeOk_pack (s : State) : (State.completeOk s).pack = s.pack := rfl
@[simp] theorem State.completeOk_reply (s : State) : (State.completeOk s).reply = s.reply := rfl
@[simp] theorem State.completeOk_inbox (s : State) : (State.completeOk s).inbox = s.inbox := rfl
@[simp] theorem State.completeOk_draws (s : State) : (State.completeOk s).draws = s.draws := rfl

@[simp] theorem State.commitError_phase (s : State) (code : ErrCode) (info : Word) : (State.commitError s code info).phase = .idle := rfl
@[simp] theorem State.commitError_pending (s : State) (code : ErrCode) (info : Word) : (State.commitError s code info).pending = 0#32 := rfl
@[simp] theorem State.commitError_lastCmd (s : State) (code : ErrCode) (info : Word) : (State.commitError s code info).lastCmd = s.lastCmd := rfl
@[simp] theorem State.commitError_done (s : State) (code : ErrCode) (info : Word) : (State.commitError s code info).done = true := rfl
@[simp] theorem State.commitError_err (s : State) (code : ErrCode) (info : Word) : (State.commitError s code info).err = true := rfl
@[simp] theorem State.commitError_empty (s : State) (code : ErrCode) (info : Word) : (State.commitError s code info).empty = s.empty := rfl
@[simp] theorem State.commitError_treeValid (s : State) (code : ErrCode) (info : Word) : (State.commitError s code info).treeValid = s.treeValid := rfl
@[simp] theorem State.commitError_overrun (s : State) (code : ErrCode) (info : Word) : (State.commitError s code info).overrun = s.overrun := rfl
@[simp] theorem State.commitError_errCode (s : State) (code : ErrCode) (info : Word) : (State.commitError s code info).errCode = code := rfl
@[simp] theorem State.commitError_errInfo (s : State) (code : ErrCode) (info : Word) : (State.commitError s code info).errInfo = info := rfl
@[simp] theorem State.commitError_cmdCount (s : State) (code : ErrCode) (info : Word) : (State.commitError s code info).cmdCount = s.cmdCount := rfl
@[simp] theorem State.commitError_doneIe (s : State) (code : ErrCode) (info : Word) : (State.commitError s code info).doneIe = s.doneIe := rfl
@[simp] theorem State.commitError_errIe (s : State) (code : ErrCode) (info : Word) : (State.commitError s code info).errIe = s.errIe := rfl
@[simp] theorem State.commitError_doneIp (s : State) (code : ErrCode) (info : Word) : (State.commitError s code info).doneIp = true := rfl
@[simp] theorem State.commitError_errIp (s : State) (code : ErrCode) (info : Word) : (State.commitError s code info).errIp = true := rfl
@[simp] theorem State.commitError_dataLen (s : State) (code : ErrCode) (info : Word) : (State.commitError s code info).dataLen = s.dataLen := rfl
@[simp] theorem State.commitError_bitCount (s : State) (code : ErrCode) (info : Word) : (State.commitError s code info).bitCount = s.bitCount := rfl
@[simp] theorem State.commitError_packLen (s : State) (code : ErrCode) (info : Word) : (State.commitError s code info).packLen = s.packLen := rfl
@[simp] theorem State.commitError_crcResult (s : State) (code : ErrCode) (info : Word) : (State.commitError s code info).crcResult = s.crcResult := rfl
@[simp] theorem State.commitError_crcExpect (s : State) (code : ErrCode) (info : Word) : (State.commitError s code info).crcExpect = s.crcExpect := rfl
@[simp] theorem State.commitError_numLeaves (s : State) (code : ErrCode) (info : Word) : (State.commitError s code info).numLeaves = s.numLeaves := rfl
@[simp] theorem State.commitError_numSteps (s : State) (code : ErrCode) (info : Word) : (State.commitError s code info).numSteps = s.numSteps := rfl
@[simp] theorem State.commitError_root (s : State) (code : ErrCode) (info : Word) : (State.commitError s code info).root = s.root := rfl
@[simp] theorem State.commitError_totalWeight (s : State) (code : ErrCode) (info : Word) : (State.commitError s code info).totalWeight = s.totalWeight := rfl
@[simp] theorem State.commitError_maxLen (s : State) (code : ErrCode) (info : Word) : (State.commitError s code info).maxLen = s.maxLen := rfl
@[simp] theorem State.commitError_freq (s : State) (code : ErrCode) (info : Word) : (State.commitError s code info).freq = s.freq := rfl
@[simp] theorem State.commitError_node (s : State) (code : ErrCode) (info : Word) : (State.commitError s code info).node = s.node := rfl
@[simp] theorem State.commitError_trace (s : State) (code : ErrCode) (info : Word) : (State.commitError s code info).trace = s.trace := rfl
@[simp] theorem State.commitError_code (s : State) (code : ErrCode) (info : Word) : (State.commitError s code info).code = s.code := rfl
@[simp] theorem State.commitError_data (s : State) (code : ErrCode) (info : Word) : (State.commitError s code info).data = s.data := rfl
@[simp] theorem State.commitError_pack (s : State) (code : ErrCode) (info : Word) : (State.commitError s code info).pack = s.pack := rfl
@[simp] theorem State.commitError_reply (s : State) (code : ErrCode) (info : Word) : (State.commitError s code info).reply = s.reply := rfl
@[simp] theorem State.commitError_inbox (s : State) (code : ErrCode) (info : Word) : (State.commitError s code info).inbox = s.inbox := rfl
@[simp] theorem State.commitError_draws (s : State) (code : ErrCode) (info : Word) : (State.commitError s code info).draws = s.draws := rfl

@[simp] theorem State.acceptRecord_phase (s : State) (v : Word) : (State.acceptRecord s v).phase = s.phase := rfl
@[simp] theorem State.acceptRecord_pending (s : State) (v : Word) : (State.acceptRecord s v).pending = s.pending := rfl
@[simp] theorem State.acceptRecord_lastCmd (s : State) (v : Word) : (State.acceptRecord s v).lastCmd = v := rfl
@[simp] theorem State.acceptRecord_done (s : State) (v : Word) : (State.acceptRecord s v).done = false := rfl
@[simp] theorem State.acceptRecord_err (s : State) (v : Word) : (State.acceptRecord s v).err = false := rfl
@[simp] theorem State.acceptRecord_empty (s : State) (v : Word) : (State.acceptRecord s v).empty = false := rfl
@[simp] theorem State.acceptRecord_treeValid (s : State) (v : Word) : (State.acceptRecord s v).treeValid = s.treeValid := rfl
@[simp] theorem State.acceptRecord_overrun (s : State) (v : Word) : (State.acceptRecord s v).overrun = s.overrun := rfl
@[simp] theorem State.acceptRecord_errCode (s : State) (v : Word) : (State.acceptRecord s v).errCode = .none := rfl
@[simp] theorem State.acceptRecord_errInfo (s : State) (v : Word) : (State.acceptRecord s v).errInfo = 0#32 := rfl
@[simp] theorem State.acceptRecord_cmdCount (s : State) (v : Word) : (State.acceptRecord s v).cmdCount = s.cmdCount + 1#32 := rfl
@[simp] theorem State.acceptRecord_doneIe (s : State) (v : Word) : (State.acceptRecord s v).doneIe = s.doneIe := rfl
@[simp] theorem State.acceptRecord_errIe (s : State) (v : Word) : (State.acceptRecord s v).errIe = s.errIe := rfl
@[simp] theorem State.acceptRecord_doneIp (s : State) (v : Word) : (State.acceptRecord s v).doneIp = s.doneIp := rfl
@[simp] theorem State.acceptRecord_errIp (s : State) (v : Word) : (State.acceptRecord s v).errIp = s.errIp := rfl
@[simp] theorem State.acceptRecord_dataLen (s : State) (v : Word) : (State.acceptRecord s v).dataLen = s.dataLen := rfl
@[simp] theorem State.acceptRecord_bitCount (s : State) (v : Word) : (State.acceptRecord s v).bitCount = s.bitCount := rfl
@[simp] theorem State.acceptRecord_packLen (s : State) (v : Word) : (State.acceptRecord s v).packLen = s.packLen := rfl
@[simp] theorem State.acceptRecord_crcResult (s : State) (v : Word) : (State.acceptRecord s v).crcResult = s.crcResult := rfl
@[simp] theorem State.acceptRecord_crcExpect (s : State) (v : Word) : (State.acceptRecord s v).crcExpect = s.crcExpect := rfl
@[simp] theorem State.acceptRecord_numLeaves (s : State) (v : Word) : (State.acceptRecord s v).numLeaves = s.numLeaves := rfl
@[simp] theorem State.acceptRecord_numSteps (s : State) (v : Word) : (State.acceptRecord s v).numSteps = s.numSteps := rfl
@[simp] theorem State.acceptRecord_root (s : State) (v : Word) : (State.acceptRecord s v).root = s.root := rfl
@[simp] theorem State.acceptRecord_totalWeight (s : State) (v : Word) : (State.acceptRecord s v).totalWeight = s.totalWeight := rfl
@[simp] theorem State.acceptRecord_maxLen (s : State) (v : Word) : (State.acceptRecord s v).maxLen = s.maxLen := rfl
@[simp] theorem State.acceptRecord_freq (s : State) (v : Word) : (State.acceptRecord s v).freq = s.freq := rfl
@[simp] theorem State.acceptRecord_node (s : State) (v : Word) : (State.acceptRecord s v).node = s.node := rfl
@[simp] theorem State.acceptRecord_trace (s : State) (v : Word) : (State.acceptRecord s v).trace = s.trace := rfl
@[simp] theorem State.acceptRecord_code (s : State) (v : Word) : (State.acceptRecord s v).code = s.code := rfl
@[simp] theorem State.acceptRecord_data (s : State) (v : Word) : (State.acceptRecord s v).data = s.data := rfl
@[simp] theorem State.acceptRecord_pack (s : State) (v : Word) : (State.acceptRecord s v).pack = s.pack := rfl
@[simp] theorem State.acceptRecord_reply (s : State) (v : Word) : (State.acceptRecord s v).reply = s.reply := rfl
@[simp] theorem State.acceptRecord_inbox (s : State) (v : Word) : (State.acceptRecord s v).inbox = s.inbox := rfl
@[simp] theorem State.acceptRecord_draws (s : State) (v : Word) : (State.acceptRecord s v).draws = s.draws := rfl

@[simp] theorem State.issue_phase (s : State) (v : Word) : (State.issue s v).phase = .busy := rfl
@[simp] theorem State.issue_pending (s : State) (v : Word) : (State.issue s v).pending = v := rfl
@[simp] theorem State.issue_lastCmd (s : State) (v : Word) : (State.issue s v).lastCmd = s.lastCmd := rfl
@[simp] theorem State.issue_done (s : State) (v : Word) : (State.issue s v).done = s.done := rfl
@[simp] theorem State.issue_err (s : State) (v : Word) : (State.issue s v).err = s.err := rfl
@[simp] theorem State.issue_empty (s : State) (v : Word) : (State.issue s v).empty = s.empty := rfl
@[simp] theorem State.issue_treeValid (s : State) (v : Word) : (State.issue s v).treeValid = s.treeValid := rfl
@[simp] theorem State.issue_overrun (s : State) (v : Word) : (State.issue s v).overrun = s.overrun := rfl
@[simp] theorem State.issue_errCode (s : State) (v : Word) : (State.issue s v).errCode = s.errCode := rfl
@[simp] theorem State.issue_errInfo (s : State) (v : Word) : (State.issue s v).errInfo = s.errInfo := rfl
@[simp] theorem State.issue_cmdCount (s : State) (v : Word) : (State.issue s v).cmdCount = s.cmdCount := rfl
@[simp] theorem State.issue_doneIe (s : State) (v : Word) : (State.issue s v).doneIe = s.doneIe := rfl
@[simp] theorem State.issue_errIe (s : State) (v : Word) : (State.issue s v).errIe = s.errIe := rfl
@[simp] theorem State.issue_doneIp (s : State) (v : Word) : (State.issue s v).doneIp = s.doneIp := rfl
@[simp] theorem State.issue_errIp (s : State) (v : Word) : (State.issue s v).errIp = s.errIp := rfl
@[simp] theorem State.issue_dataLen (s : State) (v : Word) : (State.issue s v).dataLen = s.dataLen := rfl
@[simp] theorem State.issue_bitCount (s : State) (v : Word) : (State.issue s v).bitCount = s.bitCount := rfl
@[simp] theorem State.issue_packLen (s : State) (v : Word) : (State.issue s v).packLen = s.packLen := rfl
@[simp] theorem State.issue_crcResult (s : State) (v : Word) : (State.issue s v).crcResult = s.crcResult := rfl
@[simp] theorem State.issue_crcExpect (s : State) (v : Word) : (State.issue s v).crcExpect = s.crcExpect := rfl
@[simp] theorem State.issue_numLeaves (s : State) (v : Word) : (State.issue s v).numLeaves = s.numLeaves := rfl
@[simp] theorem State.issue_numSteps (s : State) (v : Word) : (State.issue s v).numSteps = s.numSteps := rfl
@[simp] theorem State.issue_root (s : State) (v : Word) : (State.issue s v).root = s.root := rfl
@[simp] theorem State.issue_totalWeight (s : State) (v : Word) : (State.issue s v).totalWeight = s.totalWeight := rfl
@[simp] theorem State.issue_maxLen (s : State) (v : Word) : (State.issue s v).maxLen = s.maxLen := rfl
@[simp] theorem State.issue_freq (s : State) (v : Word) : (State.issue s v).freq = s.freq := rfl
@[simp] theorem State.issue_node (s : State) (v : Word) : (State.issue s v).node = s.node := rfl
@[simp] theorem State.issue_trace (s : State) (v : Word) : (State.issue s v).trace = s.trace := rfl
@[simp] theorem State.issue_code (s : State) (v : Word) : (State.issue s v).code = s.code := rfl
@[simp] theorem State.issue_data (s : State) (v : Word) : (State.issue s v).data = s.data := rfl
@[simp] theorem State.issue_pack (s : State) (v : Word) : (State.issue s v).pack = s.pack := rfl
@[simp] theorem State.issue_reply (s : State) (v : Word) : (State.issue s v).reply = s.reply := rfl
@[simp] theorem State.issue_inbox (s : State) (v : Word) : (State.issue s v).inbox = s.inbox := rfl
@[simp] theorem State.issue_draws (s : State) (v : Word) : (State.issue s v).draws = s.draws := rfl

@[simp] theorem State.emptyArtifact_phase (s : State) : (State.emptyArtifact s).phase = s.phase := rfl
@[simp] theorem State.emptyArtifact_pending (s : State) : (State.emptyArtifact s).pending = s.pending := rfl
@[simp] theorem State.emptyArtifact_lastCmd (s : State) : (State.emptyArtifact s).lastCmd = s.lastCmd := rfl
@[simp] theorem State.emptyArtifact_done (s : State) : (State.emptyArtifact s).done = s.done := rfl
@[simp] theorem State.emptyArtifact_err (s : State) : (State.emptyArtifact s).err = s.err := rfl
@[simp] theorem State.emptyArtifact_empty (s : State) : (State.emptyArtifact s).empty = true := rfl
@[simp] theorem State.emptyArtifact_treeValid (s : State) : (State.emptyArtifact s).treeValid = false := rfl
@[simp] theorem State.emptyArtifact_overrun (s : State) : (State.emptyArtifact s).overrun = s.overrun := rfl
@[simp] theorem State.emptyArtifact_errCode (s : State) : (State.emptyArtifact s).errCode = s.errCode := rfl
@[simp] theorem State.emptyArtifact_errInfo (s : State) : (State.emptyArtifact s).errInfo = s.errInfo := rfl
@[simp] theorem State.emptyArtifact_cmdCount (s : State) : (State.emptyArtifact s).cmdCount = s.cmdCount := rfl
@[simp] theorem State.emptyArtifact_doneIe (s : State) : (State.emptyArtifact s).doneIe = s.doneIe := rfl
@[simp] theorem State.emptyArtifact_errIe (s : State) : (State.emptyArtifact s).errIe = s.errIe := rfl
@[simp] theorem State.emptyArtifact_doneIp (s : State) : (State.emptyArtifact s).doneIp = s.doneIp := rfl
@[simp] theorem State.emptyArtifact_errIp (s : State) : (State.emptyArtifact s).errIp = s.errIp := rfl
@[simp] theorem State.emptyArtifact_dataLen (s : State) : (State.emptyArtifact s).dataLen = s.dataLen := rfl
@[simp] theorem State.emptyArtifact_bitCount (s : State) : (State.emptyArtifact s).bitCount = 0#32 := rfl
@[simp] theorem State.emptyArtifact_packLen (s : State) : (State.emptyArtifact s).packLen = 0#32 := rfl
@[simp] theorem State.emptyArtifact_crcResult (s : State) : (State.emptyArtifact s).crcResult = 0#32 := rfl
@[simp] theorem State.emptyArtifact_crcExpect (s : State) : (State.emptyArtifact s).crcExpect = s.crcExpect := rfl
@[simp] theorem State.emptyArtifact_numLeaves (s : State) : (State.emptyArtifact s).numLeaves = 0#9 := rfl
@[simp] theorem State.emptyArtifact_numSteps (s : State) : (State.emptyArtifact s).numSteps = 0#8 := rfl
@[simp] theorem State.emptyArtifact_root (s : State) : (State.emptyArtifact s).root = 0#9 := rfl
@[simp] theorem State.emptyArtifact_totalWeight (s : State) : (State.emptyArtifact s).totalWeight = 0#32 := rfl
@[simp] theorem State.emptyArtifact_maxLen (s : State) : (State.emptyArtifact s).maxLen = 0#8 := rfl
@[simp] theorem State.emptyArtifact_freq (s : State) : (State.emptyArtifact s).freq = [] := rfl
@[simp] theorem State.emptyArtifact_node (s : State) : (State.emptyArtifact s).node = [] := rfl
@[simp] theorem State.emptyArtifact_trace (s : State) : (State.emptyArtifact s).trace = [] := rfl
@[simp] theorem State.emptyArtifact_code (s : State) : (State.emptyArtifact s).code = [] := rfl
@[simp] theorem State.emptyArtifact_data (s : State) : (State.emptyArtifact s).data = s.data := rfl
@[simp] theorem State.emptyArtifact_pack (s : State) : (State.emptyArtifact s).pack = s.pack := rfl
@[simp] theorem State.emptyArtifact_reply (s : State) : (State.emptyArtifact s).reply = s.reply := rfl
@[simp] theorem State.emptyArtifact_inbox (s : State) : (State.emptyArtifact s).inbox = s.inbox := rfl
@[simp] theorem State.emptyArtifact_draws (s : State) : (State.emptyArtifact s).draws = s.draws := rfl

@[simp] theorem State.commitOutput_phase (s : State) (out : List Byte) : (State.commitOutput s out).phase = s.phase := rfl
@[simp] theorem State.commitOutput_pending (s : State) (out : List Byte) : (State.commitOutput s out).pending = s.pending := rfl
@[simp] theorem State.commitOutput_lastCmd (s : State) (out : List Byte) : (State.commitOutput s out).lastCmd = s.lastCmd := rfl
@[simp] theorem State.commitOutput_done (s : State) (out : List Byte) : (State.commitOutput s out).done = s.done := rfl
@[simp] theorem State.commitOutput_err (s : State) (out : List Byte) : (State.commitOutput s out).err = s.err := rfl
@[simp] theorem State.commitOutput_empty (s : State) (out : List Byte) : (State.commitOutput s out).empty = s.empty := rfl
@[simp] theorem State.commitOutput_treeValid (s : State) (out : List Byte) : (State.commitOutput s out).treeValid = s.treeValid := rfl
@[simp] theorem State.commitOutput_overrun (s : State) (out : List Byte) : (State.commitOutput s out).overrun = s.overrun := rfl
@[simp] theorem State.commitOutput_errCode (s : State) (out : List Byte) : (State.commitOutput s out).errCode = s.errCode := rfl
@[simp] theorem State.commitOutput_errInfo (s : State) (out : List Byte) : (State.commitOutput s out).errInfo = s.errInfo := rfl
@[simp] theorem State.commitOutput_cmdCount (s : State) (out : List Byte) : (State.commitOutput s out).cmdCount = s.cmdCount := rfl
@[simp] theorem State.commitOutput_doneIe (s : State) (out : List Byte) : (State.commitOutput s out).doneIe = s.doneIe := rfl
@[simp] theorem State.commitOutput_errIe (s : State) (out : List Byte) : (State.commitOutput s out).errIe = s.errIe := rfl
@[simp] theorem State.commitOutput_doneIp (s : State) (out : List Byte) : (State.commitOutput s out).doneIp = s.doneIp := rfl
@[simp] theorem State.commitOutput_errIp (s : State) (out : List Byte) : (State.commitOutput s out).errIp = s.errIp := rfl
@[simp] theorem State.commitOutput_dataLen (s : State) (out : List Byte) : (State.commitOutput s out).dataLen = BitVec.ofNat 32 out.length := rfl
@[simp] theorem State.commitOutput_bitCount (s : State) (out : List Byte) : (State.commitOutput s out).bitCount = s.bitCount := rfl
@[simp] theorem State.commitOutput_packLen (s : State) (out : List Byte) : (State.commitOutput s out).packLen = s.packLen := rfl
@[simp] theorem State.commitOutput_crcResult (s : State) (out : List Byte) : (State.commitOutput s out).crcResult = s.crcResult := rfl
@[simp] theorem State.commitOutput_crcExpect (s : State) (out : List Byte) : (State.commitOutput s out).crcExpect = s.crcExpect := rfl
@[simp] theorem State.commitOutput_numLeaves (s : State) (out : List Byte) : (State.commitOutput s out).numLeaves = s.numLeaves := rfl
@[simp] theorem State.commitOutput_numSteps (s : State) (out : List Byte) : (State.commitOutput s out).numSteps = s.numSteps := rfl
@[simp] theorem State.commitOutput_root (s : State) (out : List Byte) : (State.commitOutput s out).root = s.root := rfl
@[simp] theorem State.commitOutput_totalWeight (s : State) (out : List Byte) : (State.commitOutput s out).totalWeight = s.totalWeight := rfl
@[simp] theorem State.commitOutput_maxLen (s : State) (out : List Byte) : (State.commitOutput s out).maxLen = s.maxLen := rfl
@[simp] theorem State.commitOutput_freq (s : State) (out : List Byte) : (State.commitOutput s out).freq = s.freq := rfl
@[simp] theorem State.commitOutput_node (s : State) (out : List Byte) : (State.commitOutput s out).node = s.node := rfl
@[simp] theorem State.commitOutput_trace (s : State) (out : List Byte) : (State.commitOutput s out).trace = s.trace := rfl
@[simp] theorem State.commitOutput_code (s : State) (out : List Byte) : (State.commitOutput s out).code = s.code := rfl
@[simp] theorem State.commitOutput_data (s : State) (out : List Byte) : (State.commitOutput s out).data = memWrite s.data 0 out := rfl
@[simp] theorem State.commitOutput_pack (s : State) (out : List Byte) : (State.commitOutput s out).pack = s.pack := rfl
@[simp] theorem State.commitOutput_reply (s : State) (out : List Byte) : (State.commitOutput s out).reply = s.reply := rfl
@[simp] theorem State.commitOutput_inbox (s : State) (out : List Byte) : (State.commitOutput s out).inbox = s.inbox := rfl
@[simp] theorem State.commitOutput_draws (s : State) (out : List Byte) : (State.commitOutput s out).draws = s.draws := rfl

@[simp] theorem State.resetBlock_phase (s : State) : s.resetBlock.phase = State.reset.phase := rfl
@[simp] theorem State.resetBlock_pending (s : State) : s.resetBlock.pending = State.reset.pending := rfl
@[simp] theorem State.resetBlock_lastCmd (s : State) : s.resetBlock.lastCmd = State.reset.lastCmd := rfl
@[simp] theorem State.resetBlock_done (s : State) : s.resetBlock.done = State.reset.done := rfl
@[simp] theorem State.resetBlock_err (s : State) : s.resetBlock.err = State.reset.err := rfl
@[simp] theorem State.resetBlock_empty (s : State) : s.resetBlock.empty = State.reset.empty := rfl
@[simp] theorem State.resetBlock_treeValid (s : State) : s.resetBlock.treeValid = State.reset.treeValid := rfl
@[simp] theorem State.resetBlock_overrun (s : State) : s.resetBlock.overrun = State.reset.overrun := rfl
@[simp] theorem State.resetBlock_errCode (s : State) : s.resetBlock.errCode = State.reset.errCode := rfl
@[simp] theorem State.resetBlock_errInfo (s : State) : s.resetBlock.errInfo = State.reset.errInfo := rfl
@[simp] theorem State.resetBlock_cmdCount (s : State) : s.resetBlock.cmdCount = State.reset.cmdCount := rfl
@[simp] theorem State.resetBlock_doneIe (s : State) : s.resetBlock.doneIe = State.reset.doneIe := rfl
@[simp] theorem State.resetBlock_errIe (s : State) : s.resetBlock.errIe = State.reset.errIe := rfl
@[simp] theorem State.resetBlock_doneIp (s : State) : s.resetBlock.doneIp = State.reset.doneIp := rfl
@[simp] theorem State.resetBlock_errIp (s : State) : s.resetBlock.errIp = State.reset.errIp := rfl
@[simp] theorem State.resetBlock_dataLen (s : State) : s.resetBlock.dataLen = State.reset.dataLen := rfl
@[simp] theorem State.resetBlock_bitCount (s : State) : s.resetBlock.bitCount = State.reset.bitCount := rfl
@[simp] theorem State.resetBlock_packLen (s : State) : s.resetBlock.packLen = State.reset.packLen := rfl
@[simp] theorem State.resetBlock_crcResult (s : State) : s.resetBlock.crcResult = State.reset.crcResult := rfl
@[simp] theorem State.resetBlock_crcExpect (s : State) : s.resetBlock.crcExpect = State.reset.crcExpect := rfl
@[simp] theorem State.resetBlock_numLeaves (s : State) : s.resetBlock.numLeaves = State.reset.numLeaves := rfl
@[simp] theorem State.resetBlock_numSteps (s : State) : s.resetBlock.numSteps = State.reset.numSteps := rfl
@[simp] theorem State.resetBlock_root (s : State) : s.resetBlock.root = State.reset.root := rfl
@[simp] theorem State.resetBlock_totalWeight (s : State) : s.resetBlock.totalWeight = State.reset.totalWeight := rfl
@[simp] theorem State.resetBlock_maxLen (s : State) : s.resetBlock.maxLen = State.reset.maxLen := rfl
@[simp] theorem State.resetBlock_freq (s : State) : s.resetBlock.freq = State.reset.freq := rfl
@[simp] theorem State.resetBlock_node (s : State) : s.resetBlock.node = State.reset.node := rfl
@[simp] theorem State.resetBlock_trace (s : State) : s.resetBlock.trace = State.reset.trace := rfl
@[simp] theorem State.resetBlock_code (s : State) : s.resetBlock.code = State.reset.code := rfl
@[simp] theorem State.resetBlock_data (s : State) : s.resetBlock.data = State.reset.data := rfl
@[simp] theorem State.resetBlock_pack (s : State) : s.resetBlock.pack = State.reset.pack := rfl
@[simp] theorem State.resetBlock_reply (s : State) : s.resetBlock.reply = s.reply := rfl
@[simp] theorem State.resetBlock_inbox (s : State) : s.resetBlock.inbox = s.inbox := rfl
@[simp] theorem State.resetBlock_draws (s : State) : s.resetBlock.draws = s.draws := rfl

@[simp] theorem State.reset_phase : State.reset.phase = .init := rfl
@[simp] theorem State.reset_pending : State.reset.pending = 0 := rfl
@[simp] theorem State.reset_lastCmd : State.reset.lastCmd = 0 := rfl
@[simp] theorem State.reset_done : State.reset.done = false := rfl
@[simp] theorem State.reset_err : State.reset.err = false := rfl
@[simp] theorem State.reset_empty : State.reset.empty = false := rfl
@[simp] theorem State.reset_treeValid : State.reset.treeValid = false := rfl
@[simp] theorem State.reset_overrun : State.reset.overrun = false := rfl
@[simp] theorem State.reset_errCode : State.reset.errCode = .none := rfl
@[simp] theorem State.reset_errInfo : State.reset.errInfo = 0 := rfl
@[simp] theorem State.reset_cmdCount : State.reset.cmdCount = 0 := rfl
@[simp] theorem State.reset_doneIe : State.reset.doneIe = false := rfl
@[simp] theorem State.reset_errIe : State.reset.errIe = false := rfl
@[simp] theorem State.reset_doneIp : State.reset.doneIp = false := rfl
@[simp] theorem State.reset_errIp : State.reset.errIp = false := rfl
@[simp] theorem State.reset_dataLen : State.reset.dataLen = 0 := rfl
@[simp] theorem State.reset_bitCount : State.reset.bitCount = 0 := rfl
@[simp] theorem State.reset_packLen : State.reset.packLen = 0 := rfl
@[simp] theorem State.reset_crcResult : State.reset.crcResult = 0 := rfl
@[simp] theorem State.reset_crcExpect : State.reset.crcExpect = 0 := rfl
@[simp] theorem State.reset_numLeaves : State.reset.numLeaves = 0 := rfl
@[simp] theorem State.reset_numSteps : State.reset.numSteps = 0 := rfl
@[simp] theorem State.reset_root : State.reset.root = 0 := rfl
@[simp] theorem State.reset_totalWeight : State.reset.totalWeight = 0 := rfl
@[simp] theorem State.reset_maxLen : State.reset.maxLen = 0 := rfl
@[simp] theorem State.reset_freq : State.reset.freq = [] := rfl
@[simp] theorem State.reset_node : State.reset.node = [] := rfl
@[simp] theorem State.reset_trace : State.reset.trace = [] := rfl
@[simp] theorem State.reset_code : State.reset.code = [] := rfl
@[simp] theorem State.reset_data : State.reset.data = [] := rfl
@[simp] theorem State.reset_pack : State.reset.pack = [] := rfl
@[simp] theorem State.reset_reply : State.reset.reply = none := rfl
@[simp] theorem State.reset_inbox : State.reset.inbox = [] := rfl
@[simp] theorem State.reset_draws : State.reset.draws = 0 := rfl

end Sys2Proof.Machine
end

