-- ==== Sys2Proof/Laws/Ops.lean ====
section
/-! SUPPORT. The laws of what the commands share: command outcomes, the completion, the length check, the operand reads,
and exec's arms. -/

namespace Sys2Proof.Machine

/- Command outcomes. -/

theorem CmdM.bind_eq_ok {α β : Type} (x : CmdM α) (f : α → CmdM β) (r : β) :
    (x >>= f) = .ok r ↔ ∃ a, x = .ok a ∧ f a = .ok r := by
  cases x <;> simp [bind, Except.bind]

theorem CmdM.bind_eq_error {α β : Type} (x : CmdM α) (f : α → CmdM β) (e : Stop) :
    (x >>= f) = .error e ↔ x = .error e ∨ ∃ a, x = .ok a ∧ f a = .error e := by
  cases x <;> simp [bind, Except.bind]

@[simp] theorem CmdM.bind_raise {α β : Type} (c : ErrCode) (i : Word) (f : α → CmdM β) :
    ((raiseError c i : CmdM α) >>= f) = raiseError c i := rfl

@[simp] theorem CmdM.bind_ok {α β : Type} (a : α) (f : α → CmdM β) : ((Except.ok a : CmdM α) >>= f) = f a := rfl

@[simp] theorem raiseError_ne_ok {α : Type} (c : ErrCode) (i : Word) (r : α) : (raiseError c i : CmdM α) ≠ .ok r := by
  simp [raiseError]

@[simp] theorem raiseError_eq_raised {α : Type} (c c' : ErrCode) (i i' : Word) :
    (raiseError c i : CmdM α) = .error (.raised c' i') ↔ c = c' ∧ i = i' := by simp [raiseError]

@[simp] theorem raiseError_ne_stuck {α : Type} (c : ErrCode) (i : Word) (f : Fault) :
    (raiseError c i : CmdM α) ≠ .error (.stuck f) := by simp [raiseError]

@[simp] theorem finish_ok (s t : State) : finish s (.ok t) = .next t.completeOk := rfl

@[simp] theorem finish_raise (s : State) (c : ErrCode) (i : Word) :
    finish s (raiseError c i) = .next (s.commitError c i) := rfl

/-- Everything a completion step can be (R95, R241). -/
theorem finish_eq_next (s : State) (r : CmdM State) (u : State) :
    finish s r = .next u ↔ (∃ t, r = .ok t ∧ u = t.completeOk) ∨
      (∃ c i, r = .error (.raised c i) ∧ u = s.commitError c i) := by
  unfold finish
  split <;> simp [eq_comm]

theorem finish_ne_refused (s : State) (r : CmdM State) (x : Refusal) : finish s r ≠ .refused x := by
  unfold finish
  split <;> simp

/-- A completion step answers a next state unless the command's rule is stuck. -/
theorem finish_next_of_not_stuck (s : State) (r : CmdM State) (h : ∀ f, r ≠ .error (.stuck f)) :
    ∃ u, finish s r = .next u := by
  rcases r with (⟨c, i⟩ | f) | t
  · exact ⟨_, rfl⟩
  · exact absurd rfl (h f)
  · exact ⟨_, rfl⟩

/- exec's arms. -/

@[simp] theorem exec_nop (s : State) : exec .nop s = finish s (.ok s) := rfl
@[simp] theorem exec_srst (s : State) : exec .srst s = .next s.resetBlock := rfl
@[simp] theorem exec_hclr (s : State) : exec .hclr s = finish s (hclr s) := rfl
@[simp] theorem exec_hacc (s : State) : exec .hacc s = finish s (hacc s) := rfl
@[simp] theorem exec_build (s : State) : exec .build s = finish s (build s) := rfl
@[simp] theorem exec_genc (s : State) : exec .genc s = finish s (genc s) := rfl
@[simp] theorem exec_cclr (s : State) : exec .cclr s = finish s (cclr s) := rfl
@[simp] theorem exec_pack (s : State) : exec .pack s = finish s (pack s) := rfl
@[simp] theorem exec_unpack (s : State) : exec .unpack s = finish s (unpack s) := rfl
@[simp] theorem exec_crc (s : State) : exec .crc s = finish s (crcCommand s) := rfl
@[simp] theorem exec_encode (s : State) : exec .encode s = finish s (encodeCommand s) := rfl
@[simp] theorem exec_decode (s : State) : exec .decode s = finish s (decodeCommand s) := rfl

/- The length check and the input. -/

theorem checkDataLen_of_le (s : State) (h : s.dataLen.toNat ≤ 65536) : s.checkDataLen = .ok () := by
  rw [State.checkDataLen, if_neg (by simp only [Config.dataBytes]; omega)]

theorem checkDataLen_of_gt (s : State) (h : 65536 < s.dataLen.toNat) :
    s.checkDataLen = raiseError .lenRange s.dataLen := by
  rw [State.checkDataLen, if_pos (by simp only [Config.dataBytes]; omega)]

theorem checkDataLen_eq_ok (s : State) (r : Unit) : s.checkDataLen = .ok r ↔ s.dataLen.toNat ≤ 65536 := by
  by_cases h : s.dataLen.toNat ≤ 65536
  · simp [checkDataLen_of_le s h, h]
  · simp [checkDataLen_of_gt s (by omega), h]

theorem checkDataLen_ne_stuck (s : State) (f : Fault) : s.checkDataLen ≠ .error (.stuck f) := by
  unfold State.checkDataLen
  split <;> simp

theorem input_eq (s : State) : s.input = (List.range s.dataLen.toNat).map s.dataAt := by
  rw [State.input, memRead_zero_eq]; rfl

@[simp] theorem input_length (s : State) : s.input.length = s.dataLen.toNat := by simp [State.input]

theorem symbolCount_input (s : State) (k : Nat) :
    symbolCount s.input k = (List.range s.dataLen.toNat).countP (fun i => (s.dataAt i).toNat == k) := by
  rw [symbolCount, input_eq, List.countP_map]; rfl

theorem ceil8_eq (b : Nat) : ceil8 b = (b + 7) / 8 := rfl

theorem codeBits_length (s : State) (k : Nat) : (s.codeBits k).length = (s.codeAt k).len.toNat := by
  simp [State.codeBits, CodeEntry.bits]

theorem packedBits_length (s : State) (B : Nat) : (s.packedBits B).length = B := by simp [State.packedBits]

end Sys2Proof.Machine
end

