-- ==== Sys2Proof/Laws/Commands.lean ====
section
/-! SUPPORT. For each command's rule: what it changes when it succeeds (its frame), that the error it raises has a code,
and that it is never stuck (GENC and ENCODE apart, which walk the tree). -/

namespace Sys2Proof.Machine

/-- A rule that raises only errors with a code (R242: `NONE` is success). -/
def RaisesNamedErrors {α : Type} (x : CmdM α) : Prop := ∀ i, x ≠ .error (.raised .none i)

/-- A rule that is never stuck. -/
def NeverStuck {α : Type} (x : CmdM α) : Prop := ∀ f, x ≠ .error (.stuck f)

theorem RaisesNamedErrors.ok {α : Type} (a : α) : RaisesNamedErrors (.ok a : CmdM α) := by simp [RaisesNamedErrors]

theorem RaisesNamedErrors.raise {α : Type} (c : ErrCode) (i : Word) (h : c ≠ .none) :
    RaisesNamedErrors (raiseError c i : CmdM α) := by simp [RaisesNamedErrors, h]

theorem RaisesNamedErrors.bind {α β : Type} (x : CmdM α) (f : α → CmdM β) (hx : RaisesNamedErrors x)
    (hf : ∀ a, RaisesNamedErrors (f a)) : RaisesNamedErrors (x >>= f) := by
  intro i h
  rcases (CmdM.bind_eq_error x f _).mp h with h | ⟨a, -, h⟩
  · exact hx i h
  · exact hf a i h

theorem NeverStuck.ok {α : Type} (a : α) : NeverStuck (.ok a : CmdM α) := by simp [NeverStuck]

theorem NeverStuck.raise {α : Type} (c : ErrCode) (i : Word) : NeverStuck (raiseError c i : CmdM α) := by
  simp [NeverStuck]

theorem NeverStuck.bind {α β : Type} (x : CmdM α) (f : α → CmdM β) (hx : NeverStuck x)
    (hf : ∀ a, x = .ok a → NeverStuck (f a)) : NeverStuck (x >>= f) := by
  intro i h
  rcases (CmdM.bind_eq_error x f _).mp h with h | ⟨a, ha, h⟩
  · exact hx i h
  · exact hf a ha i h

/- The length check. -/

theorem checkDataLen_named (s : State) : RaisesNamedErrors s.checkDataLen := by
  unfold State.checkDataLen
  split
  · exact .raise _ _ (by decide)
  · exact .ok _

theorem checkDataLen_neverStuck (s : State) : NeverStuck s.checkDataLen := by
  unfold State.checkDataLen
  split
  · exact .raise _ _
  · exact .ok _

/- HCLR and HACC. -/

theorem hacc_frame (s t : State) (h : hacc s = .ok t) : t = { s with freq := t.freq } := by
  obtain ⟨_, -, h⟩ := (CmdM.bind_eq_ok _ _ _).mp h
  split at h
  · simp at h
  · cases h; rfl

theorem hacc_named (s : State) : RaisesNamedErrors (hacc s) := by
  refine .bind _ _ (checkDataLen_named s) fun _ => ?_
  split
  · exact .raise _ _ (by decide)
  · exact .ok _

theorem hacc_neverStuck (s : State) : NeverStuck (hacc s) := by
  refine .bind _ _ (checkDataLen_neverStuck s) fun _ _ => ?_
  split
  · exact .raise _ _
  · exact .ok _

/- BUILD. -/

theorem build_frame (s t : State) (h : build s = .ok t) :
    t = { s with
      node := t.node, trace := t.trace, numLeaves := t.numLeaves, numSteps := t.numSteps, root := t.root,
      totalWeight := t.totalWeight, treeValid := true } := by
  unfold build at h
  dsimp only at h
  split at h
  · simp at h
  · split at h
    · simp at h
    · cases h; rfl

theorem build_named (s : State) : RaisesNamedErrors (build s) := by
  unfold build
  dsimp only
  split
  · exact .raise _ _ (by decide)
  · split
    · exact .raise _ _ (by decide)
    · exact .ok _

theorem build_neverStuck (s : State) : NeverStuck (build s) := by
  unfold build
  dsimp only
  split
  · exact .raise _ _
  · split
    · exact .raise _ _
    · exact .ok _

/- GENC and CCLR. -/

theorem walkTree_named (s : State) (fuel i d v : Nat) : RaisesNamedErrors (s.walkTree fuel i d v) := by
  induction fuel generalizing i d v with
  | zero => simp [State.walkTree, RaisesNamedErrors]
  | succ fuel ih =>
    unfold State.walkTree
    dsimp only
    split
    · exact .ok _
    · exact .bind _ _ (ih _ _ _) fun _ => .bind _ _ (ih _ _ _) fun _ => .ok _

theorem treeCodes_named (s : State) : RaisesNamedErrors s.treeCodes := by
  unfold State.treeCodes
  split
  · exact .ok _
  · exact walkTree_named _ _ _ _ _

theorem genc_named (s : State) : RaisesNamedErrors (genc s) := by
  unfold genc
  split
  · exact .raise _ _ (by decide)
  · exact .bind _ _ (treeCodes_named s) fun _ => .ok _

theorem genc_frame (s t : State) (h : genc s = .ok t) : t = { s with code := t.code, maxLen := t.maxLen } := by
  unfold genc at h
  split at h
  · simp at h
  · obtain ⟨codes, -, h⟩ := (CmdM.bind_eq_ok _ _ _).mp h
    cases h; rfl

/- PACK. -/

theorem packScan_named (s : State) (bytes : List Byte) (i len : Nat) (acc : List Bool) :
    RaisesNamedErrors (s.packScan i len acc bytes) := by
  induction bytes generalizing i len acc with
  | nil => exact .ok _
  | cons b rest ih =>
    unfold State.packScan
    split
    · exact .raise _ _ (by decide)
    · split
      · exact .raise _ _ (by decide)
      · exact ih _ _ _

theorem packScan_neverStuck (s : State) (bytes : List Byte) (i len : Nat) (acc : List Bool) :
    NeverStuck (s.packScan i len acc bytes) := by
  induction bytes generalizing i len acc with
  | nil => exact .ok _
  | cons b rest ih =>
    unfold State.packScan
    split
    · exact .raise _ _
    · split
      · exact .raise _ _
      · exact ih _ _ _

theorem pack_named (s : State) : RaisesNamedErrors (pack s) :=
  .bind _ _ (checkDataLen_named s) fun _ => .bind _ _ (packScan_named _ _ _ _ _) fun _ => .ok _

theorem pack_neverStuck (s : State) : NeverStuck (pack s) :=
  .bind _ _ (checkDataLen_neverStuck s) fun _ _ => .bind _ _ (packScan_neverStuck _ _ _ _ _) fun _ _ => .ok _

theorem pack_frame (s t : State) (h : pack s = .ok t) :
    t = { s with pack := t.pack, bitCount := t.bitCount, packLen := t.packLen } := by
  obtain ⟨_, -, h⟩ := (CmdM.bind_eq_ok _ _ _).mp h
  obtain ⟨bits, -, h⟩ := (CmdM.bind_eq_ok _ _ _).mp h
  cases h; rfl

/- UNPACK. -/

theorem checkCodeTable_named (s : State) (B : Nat) : RaisesNamedErrors (s.checkCodeTable B) := by
  unfold State.checkCodeTable
  split
  · exact .raise _ _ (by decide)
  · split
    · exact .raise _ _ (by decide)
    · exact .ok _

theorem checkCodeTable_neverStuck (s : State) (B : Nat) : NeverStuck (s.checkCodeTable B) := by
  unfold State.checkCodeTable
  split
  · exact .raise _ _
  · split
    · exact .raise _ _
    · exact .ok _

theorem walkBits_named (table : List (Nat × List Bool)) (B : Nat) (bits : List Bool) (p : Nat) (path : List Bool)
    (outRev : List Byte) (n : Nat) : RaisesNamedErrors (walkBits table B p path outRev n bits) := by
  induction bits generalizing p path outRev n with
  | nil =>
    unfold walkBits
    split
    · exact .ok _
    · exact .raise _ _ (by decide)
  | cons b rest ih =>
    unfold walkBits
    split
    · split
      · exact .raise _ _ (by decide)
      · exact ih _ _ _ _
    · split
      · exact ih _ _ _ _
      · exact .raise _ _ (by decide)

theorem walkBits_neverStuck (table : List (Nat × List Bool)) (B : Nat) (bits : List Bool) (p : Nat) (path : List Bool)
    (outRev : List Byte) (n : Nat) : NeverStuck (walkBits table B p path outRev n bits) := by
  induction bits generalizing p path outRev n with
  | nil =>
    unfold walkBits
    split
    · exact .ok _
    · exact .raise _ _
  | cons b rest ih =>
    unfold walkBits
    split
    · split
      · exact .raise _ _
      · exact ih _ _ _ _
    · split
      · exact ih _ _ _ _
      · exact .raise _ _

theorem unpackOutput_named (s : State) : RaisesNamedErrors (unpackOutput s) := by
  unfold unpackOutput
  split
  · exact .raise _ _ (by decide)
  · refine .bind _ _ (checkCodeTable_named s _) fun _ => ?_
    split
    · exact .raise _ _ (by decide)
    · exact walkBits_named _ _ _ _ _ _ _

theorem unpackOutput_neverStuck (s : State) : NeverStuck (unpackOutput s) := by
  unfold unpackOutput
  split
  · exact .raise _ _
  · refine .bind _ _ (checkCodeTable_neverStuck s _) fun _ _ => ?_
    split
    · exact .raise _ _
    · exact walkBits_neverStuck _ _ _ _ _ _ _

theorem unpack_eq_ok (s t : State) : unpack s = .ok t ↔ ∃ out, unpackOutput s = .ok out ∧ t = s.commitOutput out := by
  simp only [unpack, CmdM.bind_eq_ok, Except.ok.injEq, eq_comm (a := t)]

theorem unpack_named (s : State) : RaisesNamedErrors (unpack s) :=
  .bind _ _ (unpackOutput_named s) fun _ => .ok _

theorem unpack_neverStuck (s : State) : NeverStuck (unpack s) :=
  .bind _ _ (unpackOutput_neverStuck s) fun _ _ => .ok _

theorem unpack_frame (s t : State) (h : unpack s = .ok t) : t = { s with data := t.data, dataLen := t.dataLen } := by
  obtain ⟨out, -, rfl⟩ := (unpack_eq_ok s t).mp h
  rfl

/- CRC. -/

theorem crcCommand_named (s : State) : RaisesNamedErrors (crcCommand s) :=
  .bind _ _ (checkDataLen_named s) fun _ => .ok _

theorem crcCommand_neverStuck (s : State) : NeverStuck (crcCommand s) :=
  .bind _ _ (checkDataLen_neverStuck s) fun _ _ => .ok _

theorem crcCommand_frame (s t : State) (h : crcCommand s = .ok t) : t = { s with crcResult := t.crcResult } := by
  obtain ⟨_, -, h⟩ := (CmdM.bind_eq_ok _ _ _).mp h
  cases h; rfl

/- ENCODE and DECODE. -/

theorem encodeNonEmpty_eq_ok (s t : State) :
    encodeNonEmpty s = .ok t ↔ ∃ s1 s2 s3, build { s with freq := inputHistogram s.input } = .ok s1 ∧ genc s1 = .ok s2 ∧
      pack s2 = .ok s3 ∧ t = { s3 with crcResult := crc32 s.input } := by
  simp only [encodeNonEmpty, CmdM.bind_eq_ok, Except.ok.injEq]
  constructor
  · rintro ⟨s1, h1, s2, h2, s3, h3, rfl⟩; exact ⟨s1, s2, s3, h1, h2, h3, rfl⟩
  · rintro ⟨s1, s2, s3, h1, h2, h3, rfl⟩; exact ⟨s1, h1, s2, h2, s3, h3, rfl⟩

theorem encodeNonEmpty_named (s : State) : RaisesNamedErrors (encodeNonEmpty s) :=
  .bind _ _ (build_named _) fun _ => .bind _ _ (genc_named _) fun _ => .bind _ _ (pack_named _) fun _ => .ok _

theorem encodeCommand_named (s : State) : RaisesNamedErrors (encodeCommand s) := by
  refine .bind _ _ (checkDataLen_named s) fun _ => ?_
  split
  · exact .ok _
  · exact encodeNonEmpty_named s

/-- Everything a successful ENCODE can be (R225 to R227). -/
theorem encodeCommand_eq_ok (s t : State) :
    encodeCommand s = .ok t ↔ s.dataLen.toNat ≤ 65536 ∧
      ((s.dataLen = 0#32 ∧ t = s.emptyArtifact) ∨ (s.dataLen ≠ 0#32 ∧ encodeNonEmpty s = .ok t)) := by
  by_cases hl : s.dataLen.toNat ≤ 65536
  · rw [encodeCommand, checkDataLen_of_le s hl, CmdM.bind_ok]
    by_cases h0 : s.dataLen = 0#32
    · rw [if_pos h0]; simp [h0, eq_comm]
    · rw [if_neg h0]; simp [hl, h0]
  · rw [encodeCommand, checkDataLen_of_gt s (by omega), CmdM.bind_raise]
    simp [hl]

theorem encodeNonEmpty_frame (s t : State) (h : encodeNonEmpty s = .ok t) :
    t = { s with
      freq := t.freq, node := t.node, trace := t.trace, numLeaves := t.numLeaves, numSteps := t.numSteps,
      root := t.root, totalWeight := t.totalWeight, treeValid := true, code := t.code, maxLen := t.maxLen,
      pack := t.pack, bitCount := t.bitCount, packLen := t.packLen, crcResult := t.crcResult } := by
  obtain ⟨s1, s2, s3, h1, h2, h3, rfl⟩ := (encodeNonEmpty_eq_ok s t).mp h
  rw [pack_frame _ _ h3, genc_frame _ _ h2, build_frame _ _ h1]

theorem decodeCommand_eq_ok (s t : State) :
    decodeCommand s = .ok t ↔ ∃ out, unpackOutput s = .ok out ∧ crc32 out = s.crcExpect ∧
      t = { s.commitOutput out with crcResult := crc32 out } := by
  simp only [decodeCommand, CmdM.bind_eq_ok]
  constructor
  · rintro ⟨out, ho, h⟩
    split at h
    · simp at h
    · rename_i hc
      exact ⟨out, ho, by simpa using hc, by cases h; rfl⟩
  · rintro ⟨out, ho, hc, rfl⟩
    exact ⟨out, ho, by rw [if_neg (by simpa using hc)]⟩

theorem decodeCommand_named (s : State) : RaisesNamedErrors (decodeCommand s) := by
  refine .bind _ _ (unpackOutput_named s) fun _ => ?_
  split
  · exact .raise _ _ (by decide)
  · exact .ok _

theorem decodeCommand_neverStuck (s : State) : NeverStuck (decodeCommand s) := by
  refine .bind _ _ (unpackOutput_neverStuck s) fun _ _ => ?_
  split
  · exact .raise _ _
  · exact .ok _

theorem decodeCommand_frame (s t : State) (h : decodeCommand s = .ok t) :
    t = { s with data := t.data, dataLen := t.dataLen, crcResult := t.crcResult } := by
  obtain ⟨out, -, -, rfl⟩ := (decodeCommand_eq_ok s t).mp h
  rfl

/- Every command but SRST. -/

/-- The rule of each command (SRST, which has no completion, apart). -/
def commandRule (i : Instr) (s : State) : CmdM State :=
  match i with
  | .nop | .srst => .ok s
  | .hclr => hclr s
  | .hacc => hacc s
  | .build => build s
  | .genc => genc s
  | .cclr => cclr s
  | .pack => pack s
  | .unpack => unpack s
  | .crc => crcCommand s
  | .encode => encodeCommand s
  | .decode => decodeCommand s

theorem exec_eq_finish (i : Instr) (s : State) (h : i ≠ .srst) : exec i s = finish s (commandRule i s) := by
  cases i <;> first | rfl | exact absurd rfl h

theorem commandRule_named (i : Instr) (s : State) : RaisesNamedErrors (commandRule i s) := by
  cases i
  · exact .ok _
  · exact .ok _
  · exact .ok _
  · exact hacc_named s
  · exact build_named s
  · exact genc_named s
  · exact .ok _
  · exact pack_named s
  · exact unpack_named s
  · exact crcCommand_named s
  · exact encodeCommand_named s
  · exact decodeCommand_named s

/-- Everything the completion of a command can be (R95, R241): its writes, or the error report alone. -/
theorem exec_cases (i : Instr) (s u : State) (hi : i ≠ .srst) (h : exec i s = .next u) :
    (∃ t, commandRule i s = .ok t ∧ u = t.completeOk) ∨
    (∃ c info, commandRule i s = .error (.raised c info) ∧ c ≠ .none ∧ u = s.commitError c info) := by
  rw [exec_eq_finish i s hi, finish_eq_next] at h
  rcases h with h | ⟨c, info, h, rfl⟩
  · exact .inl h
  · refine .inr ⟨c, info, h, ?_, rfl⟩
    rintro rfl
    exact commandRule_named i s info h

end Sys2Proof.Machine
end

