-- ==== Sys2Proof/Laws/Packer.lean ====
section
/-! SUPPORT. The laws of the packer and the unpacker: bits and bytes, the scan of PACK, the check of the code table and
the walk of UNPACK. -/

namespace Sys2Proof.Machine

/- ### Bits and bytes (R64) -/

theorem foldl_setBits (f : Nat → Bool) (n : Nat) (hn : n ≤ 8) (q : Nat) (hq : q < 8) :
    ((List.range n).foldl (fun (b : Byte) q => if f q then b ||| (1#8 <<< (7 - q)) else b) 0#8).getLsbD (7 - q)
      = (decide (q < n) && f q) := by
  induction n with
  | zero => simp
  | succ n ih =>
    rw [List.range_succ, List.foldl_append]
    simp only [List.foldl_cons, List.foldl_nil]
    split
    · rename_i hf
      rw [BitVec.getLsbD_or, ih (by omega)]
      by_cases e : q = n
      · subst e; simp [hf]; omega
      · have : (1#8 <<< (7 - n)).getLsbD (7 - q) = false := by
          simp; intros; omega
        rw [this]
        by_cases h : q < n
        · simp [h, show q < n + 1 by omega]
        · simp [h, show ¬ q < n + 1 by omega]
    · rename_i hf
      rw [ih (by omega)]
      by_cases e : q = n
      · subst e; simp [hf]
      · congr 1; simp; omega

theorem byteOfBits_getLsbD (bs : List Bool) (q : Nat) (h : q < 8) :
    (byteOfBits bs).getLsbD (7 - q) = bs.getD q false := by
  refine (foldl_setBits (fun q => bs.getD q false) 8 (by omega) q h).trans ?_
  rw [decide_eq_true h, Bool.true_and]

theorem bytesOfBits_eq (m : Nat) (bs : List Bool) (acc : List Byte) :
    bytesOfBits m bs acc = acc.reverse ++ (List.range m).map fun j => byteOfBits ((bs.drop (8 * j)).take 8) := by
  induction m generalizing bs acc with
  | zero => simp [bytesOfBits]
  | succ m ih =>
    rw [bytesOfBits, ih, List.range_succ_eq_map]
    simp [List.drop_drop, Nat.mul_add, Function.comp_def, Nat.add_comm]

@[simp] theorem bytesOfBits_length (m : Nat) (bs : List Bool) : (bytesOfBits m bs []).length = m := by
  simp [bytesOfBits_eq]

/-- Bit p of the bytes of a bit string is its bit p, and 0 after its end (R181). -/
theorem bytesOfBits_bit (m : Nat) (bs : List Bool) (p : Nat) (h : p < 8 * m) :
    ((bytesOfBits m bs []).getD (p / 8) 0#8).getLsbD (7 - p % 8) = bs.getD p false := by
  have hm : p / 8 < m := by omega
  rw [bytesOfBits_eq, List.reverse_nil, List.nil_append, List.getD_eq_getElem _ _ (by simpa using hm), List.getElem_map,
    List.getElem_range, byteOfBits_getLsbD _ _ (by omega)]
  simp only [List.getD_eq_getElem?_getD, List.getElem?_take, List.getElem?_drop]
  rw [if_pos (by omega), show 8 * (p / 8) + p % 8 = p by omega]

theorem map_range_getD (bs : List Bool) : (List.range bs.length).map (fun p => bs.getD p false) = bs := by
  apply List.ext_getElem (by simp)
  intro i h1 h2
  simp at h1
  simp [h1]

/-- What the state holds after the bytes of a bit string were written at the start of `PACK` (R181). -/
theorem packBit_of_write (s : State) (bs : List Bool) (t : State)
    (ht : t.pack = memWrite s.pack 0 (bytesOfBits (ceil8 bs.length) bs [])) :
    (∀ p < 8 * ceil8 bs.length, t.packBit p = bs.getD p false) ∧ (∀ j, ceil8 bs.length ≤ j → t.packAt j = s.packAt j) := by
  constructor
  · intro p hp
    rw [State.packBit, State.packAt, ht, ramRead_memWrite, if_pos (by simp; omega)]
    exact bytesOfBits_bit _ _ _ hp
  · intro j hj
    rw [State.packAt, ht, ramRead_memWrite, if_neg (by simp; omega)]; rfl

theorem packedBits_of_write (s : State) (bs : List Bool) (t : State)
    (ht : t.pack = memWrite s.pack 0 (bytesOfBits (ceil8 bs.length) bs [])) : t.packedBits bs.length = bs := by
  refine Eq.trans (List.map_congr_left fun p hp => ?_) (map_range_getD bs)
  have hp : p < bs.length := by simpa using hp
  exact (packBit_of_write s bs t ht).1 p (by rw [ceil8_eq]; omega)

/- ### The stream (R180) -/

@[simp] theorem stream_nil (s : State) : s.stream [] = [] := rfl

@[simp] theorem stream_cons (s : State) (b : Byte) (l : List Byte) :
    s.stream (b :: l) = s.codeBits b.toNat ++ s.stream l := by simp [State.stream]

@[simp] theorem stream_append (s : State) (x y : List Byte) : s.stream (x ++ y) = s.stream x ++ s.stream y := by
  simp [State.stream]

theorem coded_iff (s : State) (k : Nat) : s.coded k ↔ 1 ≤ (s.codeAt k).len.toNat := by
  rw [State.coded, ne_eq, ← BitVec.toNat_inj]
  simp; omega

theorem codeBits_ne_nil (s : State) (k : Nat) (h : s.coded k) : s.codeBits k ≠ [] := by
  intro e
  have := congrArg List.length e
  rw [codeBits_length] at this
  rw [coded_iff] at h
  simp at this; omega

/- ### The scan of PACK (R181) -/

theorem packScan_good (s : State) (x y : List Byte) (i len : Nat) (acc : List Bool) (hc : ∀ b ∈ x, s.coded b.toNat)
    (hl : len + (s.stream x).length ≤ 524288) :
    s.packScan i len acc (x ++ y) =
      s.packScan (i + x.length) (len + (s.stream x).length) ((s.stream x).reverse ++ acc) y := by
  induction x generalizing i len acc with
  | nil => simp
  | cons b x ih =>
    simp only [stream_cons, List.length_append, codeBits_length] at hl ⊢
    rw [List.cons_append, State.packScan, if_neg (hc b (by simp)), if_neg (by simp only [Config.maxBits]; omega),
      ih _ _ _ (fun b hb => hc b (by simp [hb])) (by omega)]
    rw [List.length_cons, show i + 1 + x.length = i + (x.length + 1) by omega,
      show len + (s.codeAt b.toNat).len.toNat + (s.stream x).length
        = len + ((s.codeAt b.toNat).len.toNat + (s.stream x).length) by omega]
    simp

theorem packScan_all (s : State) (x : List Byte) (i len : Nat) (acc : List Bool) (hc : ∀ b ∈ x, s.coded b.toNat)
    (hl : len + (s.stream x).length ≤ 524288) : s.packScan i len acc x = .ok (acc.reverse ++ s.stream x) := by
  have := packScan_good s x [] i len acc hc hl
  rw [List.append_nil] at this
  rw [this, State.packScan]; simp

/-- Everything a successful scan can be (R181). -/
theorem packScan_eq_ok (s : State) (x : List Byte) (i len : Nat) (acc bits : List Bool)
    (h : s.packScan i len acc x = .ok bits) (hlen : len ≤ 524288) :
    (∀ b ∈ x, s.coded b.toNat) ∧ bits = acc.reverse ++ s.stream x ∧ len + (s.stream x).length ≤ 524288 := by
  induction x generalizing i len acc with
  | nil => rw [State.packScan] at h; cases h; simpa using hlen
  | cons b x ih =>
    rw [State.packScan] at h
    split at h
    · simp at h
    · split at h
      · simp at h
      · rename_i hc hm
        simp only [Config.maxBits] at hm
        obtain ⟨h1, h2, h3⟩ := ih _ _ _ h (by omega)
        refine ⟨?_, ?_, ?_⟩
        · intro c hcm
          rcases List.mem_cons.mp hcm with rfl | hcm
          · exact hc
          · exact h1 c hcm
        · rw [h2]; simp
        · simp only [stream_cons, List.length_append, codeBits_length]; omega

/-- The scan stops at a byte without a code. -/
theorem packScan_noCode (s : State) (x : List Byte) (b : Byte) (y : List Byte) (hc : ∀ b ∈ x, s.coded b.toNat)
    (hl : (s.stream x).length ≤ 524288) (hb : ¬ s.coded b.toNat) :
    s.packScan 0 0 [] (x ++ b :: y) = raiseError .noCode (BitVec.ofNat 32 (x.length * 256 + b.toNat)) := by
  rw [packScan_good s x _ 0 0 [] hc (by omega), State.packScan, if_pos (by simpa [State.coded] using hb)]
  simp

/-- The scan stops at a byte whose code does not fit. -/
theorem packScan_overflow (s : State) (x : List Byte) (b : Byte) (y : List Byte) (hc : ∀ b ∈ x, s.coded b.toNat)
    (hl : (s.stream x).length ≤ 524288) (hb : s.coded b.toNat) (ho : 524288 < (s.stream (x ++ [b])).length) :
    s.packScan 0 0 [] (x ++ b :: y) = raiseError .packOverflow (BitVec.ofNat 32 x.length) := by
  simp only [stream_append, stream_cons, stream_nil, List.length_append, List.length_nil, codeBits_length] at ho
  rw [packScan_good s x _ 0 0 [] hc (by omega), State.packScan, if_neg hb,
    if_pos (by simp only [Config.maxBits]; omega)]
  simp

/-- Everything a successful PACK can be (R181). -/
theorem pack_eq_ok (s t : State) :
    pack s = .ok t ↔ s.dataLen.toNat ≤ 65536 ∧ (∀ b ∈ s.input, s.coded b.toNat) ∧ (s.stream s.input).length ≤ 524288 ∧
      t = { s with
        pack := memWrite s.pack 0 (bytesOfBits (ceil8 (s.stream s.input).length) (s.stream s.input) [])
        bitCount := BitVec.ofNat 32 (s.stream s.input).length
        packLen := BitVec.ofNat 32 (ceil8 (s.stream s.input).length) } := by
  constructor
  · intro h
    obtain ⟨_, h1, h⟩ := (CmdM.bind_eq_ok _ _ _).mp h
    obtain ⟨bits, h2, h⟩ := (CmdM.bind_eq_ok _ _ _).mp h
    obtain ⟨h3, h4, h5⟩ := packScan_eq_ok s _ _ _ _ _ h2 (by omega)
    simp at h4; subst h4
    cases h
    exact ⟨(checkDataLen_eq_ok s _).mp h1, h3, by omega, rfl⟩
  · rintro ⟨h1, h2, h3, rfl⟩
    rw [pack, checkDataLen_of_le s h1, CmdM.bind_ok, packScan_all s _ 0 0 [] h2 (by omega)]
    rfl

/- ### The check of the code table (R185) -/

theorem mem_codeTable (s : State) (k : Nat) (c : List Bool) :
    (k, c) ∈ s.codeTable ↔ k < 256 ∧ s.coded k ∧ c = s.codeBits k := by
  simp only [State.codeTable, List.mem_filterMap, List.mem_range, Config.nsym, State.coded]
  constructor
  · rintro ⟨a, ha, h⟩
    split at h
    · simp at h
    · rename_i hc
      obtain ⟨rfl, rfl⟩ : a = k ∧ s.codeBits a = c := by simpa using h
      exact ⟨ha, hc, rfl⟩
  · rintro ⟨h1, h2, rfl⟩
    exact ⟨k, h1, by rw [if_neg h2]⟩

theorem codeTable_sorted (s : State) : s.codeTable.Pairwise fun x y => x.1 < y.1 := by
  rw [State.codeTable, List.pairwise_filterMap]
  refine List.Pairwise.imp ?_ List.pairwise_lt_range
  intro a b hab x hx y hy
  split at hx
  · simp at hx
  · split at hy
    · simp at hy
    · simp at hx hy; subst hx; subst hy; exact hab

theorem prefixClash_iff (x y : List Bool) : prefixClash x y = true ↔ x <+: y ∨ y <+: x := by
  simp [prefixClash, List.isPrefixOf_iff_prefix]

theorem firstClash_eq_none (l : List (Nat × List Bool)) (h : firstClash l = none) :
    l.Pairwise fun x y => ¬ x.2 <+: y.2 ∧ ¬ y.2 <+: x.2 := by
  induction l with
  | nil => exact .nil
  | cons e l ih =>
    obtain ⟨k, c⟩ := e
    rw [firstClash] at h
    split at h
    · simp at h
    · rename_i hf
      refine .cons ?_ (ih h)
      intro y hy
      have := List.find?_eq_none.mp hf y hy
      rw [prefixClash_iff] at this
      exact not_or.mp this

/-- The pair reported is in the list and clashes. -/
theorem firstClash_eq_some (l : List (Nat × List Bool)) (hs : l.Pairwise fun x y => x.1 < y.1) (a b : Nat)
    (h : firstClash l = some (a, b)) :
    ∃ x y, (a, x) ∈ l ∧ (b, y) ∈ l ∧ a < b ∧ (x <+: y ∨ y <+: x) ∧
      ∀ a' b' x' y', (a', x') ∈ l → (b', y') ∈ l → a' < b' → (a' < a ∨ (a' = a ∧ b' < b)) →
        ¬ x' <+: y' ∧ ¬ y' <+: x' := by
  induction l with
  | nil => simp [firstClash] at h
  | cons e l ih =>
    obtain ⟨k, c⟩ := e
    rw [List.pairwise_cons] at hs
    rw [firstClash] at h
    split at h
    · rename_i t ct hf
      obtain ⟨rfl, rfl⟩ : k = a ∧ t = b := by simpa using h
      have hm := List.mem_of_find?_eq_some hf
      have hc := List.find?_some hf
      rw [prefixClash_iff] at hc
      refine ⟨c, ct, by simp, by simp [hm], hs.1 _ hm, hc, ?_⟩
      intro a' b' x' y' hx hy hab hlt
      have ha : k ≤ a' := by
        rcases List.mem_cons.mp hx with hx | hx
        · cases hx; exact le_refl _
        · exact le_of_lt (hs.1 _ hx)
      obtain ⟨rfl, hbt⟩ : a' = k ∧ b' < t := by omega
      have hy' : (b', y') ∈ l := by
        rcases List.mem_cons.mp hy with hy | hy
        · cases hy; omega
        · exact hy
      have hx' : x' = c := by
        rcases List.mem_cons.mp hx with hx | hx
        · cases hx; rfl
        · have := hs.1 _ hx; simp at this
      subst hx'
      obtain ⟨-, l1, l2, rfl, hno⟩ := List.find?_eq_some_iff_append.mp hf
      have hy1 : (b', y') ∈ l1 := by
        rcases List.mem_append.mp hy' with hy' | hy'
        · exact hy'
        · have h2 := (List.pairwise_append.mp hs.2).2.1
          rw [List.pairwise_cons] at h2
          rcases List.mem_cons.mp hy' with hy' | hy'
          · cases hy'; omega
          · have := h2.1 _ hy'; simp at this; omega
      have := hno _ hy1
      simp [← Bool.not_eq_true, prefixClash_iff] at this
      exact this
    · rename_i hf
      obtain ⟨x, y, hx, hy, hab, hc, hmin⟩ := ih hs.2 h
      refine ⟨x, y, by simp [hx], by simp [hy], hab, hc, ?_⟩
      intro a' b' x' y' hx' hy' hab' hlt
      have hy2 : (b', y') ∈ l := by
        rcases List.mem_cons.mp hy' with hy' | hy'
        · cases hy'
          rcases List.mem_cons.mp hx' with hx' | hx'
          · cases hx'; omega
          · have := hs.1 _ hx'; simp at this; omega
        · exact hy'
      rcases List.mem_cons.mp hx' with hx' | hx'
      · cases hx'
        have := List.find?_eq_none.mp hf _ hy2
        rw [prefixClash_iff] at this
        exact not_or.mp this
      · exact hmin a' b' x' y' hx' hy2 hab' hlt

theorem firstClash_codeTable (s : State) : firstClash s.codeTable = none ↔ s.PrefixFree := by
  constructor
  · intro h a ha b hb hab ca cb
    have hp := firstClash_eq_none _ h
    have hsym : Std.Symm fun x y : Nat × List Bool => ¬ x.2 <+: y.2 ∧ ¬ y.2 <+: x.2 := ⟨fun x y h => ⟨h.2, h.1⟩⟩
    have := hp.forall ((mem_codeTable s a _).mpr ⟨ha, ca, rfl⟩) ((mem_codeTable s b _).mpr ⟨hb, cb, rfl⟩)
      (by simp [hab])
    exact this.1
  · intro h
    cases hf : firstClash s.codeTable with
    | none => rfl
    | some e =>
      obtain ⟨a, b⟩ := e
      obtain ⟨x, y, hx, hy, hab, hc, -⟩ := firstClash_eq_some _ (codeTable_sorted s) a b hf
      obtain ⟨ha, ca, rfl⟩ := (mem_codeTable _ _ _).mp hx
      obtain ⟨hb, cb, rfl⟩ := (mem_codeTable _ _ _).mp hy
      rcases hc with hc | hc
      · exact absurd hc (h a ha b hb (by omega) ca cb)
      · exact absurd hc (h b hb a ha (by omega) cb ca)

theorem codeTable_isEmpty (s : State) : s.codeTable.isEmpty = true ↔ ∀ k < 256, ¬ s.coded k := by
  rw [List.isEmpty_iff]
  constructor
  · intro h k hk hc
    have := (mem_codeTable s k _).mpr ⟨hk, hc, rfl⟩
    rw [h] at this; simp at this
  · intro h
    rw [List.eq_nil_iff_forall_not_mem]
    rintro ⟨k, c⟩ hm
    obtain ⟨hk, hc, -⟩ := (mem_codeTable _ _ _).mp hm
    exact h k hk hc

theorem checkCodeTable_ok (s : State) (B : Nat) (r : Unit) :
    s.checkCodeTable B = .ok r ↔ s.PrefixFree ∧ (0 < B → ∃ k < 256, s.coded k) := by
  rw [← firstClash_codeTable, State.checkCodeTable]
  cases hf : firstClash s.codeTable with
  | some e => simp
  | none =>
    have he := codeTable_isEmpty s
    by_cases hB : 0 < B
    · by_cases h : s.codeTable.isEmpty = true
      · simp only [h, hB, decide_true, Bool.and_self, if_true]
        simp only [raiseError_ne_ok, true_and, forall_true_left, false_iff]
        push Not
        exact he.mp h
      · simp only [h, Bool.false_and]
        have : ∃ k < 256, s.coded k := by
          by_contra hn; push Not at hn; exact h (he.mpr hn)
        simp [this]
    · simp [hB]

/-- The pair that UNPACK reports is the first clashing one (R185). -/
theorem firstClash_of_first (s : State) (a b : Nat) (hab : a < b) (hb : b < 256) (ca : s.coded a) (cb : s.coded b)
    (hc : s.codeBits a <+: s.codeBits b ∨ s.codeBits b <+: s.codeBits a)
    (hmin : ∀ a' b', a' < b' → b' < 256 → (a' < a ∨ (a' = a ∧ b' < b)) → s.coded a' → s.coded b' →
      ¬ s.codeBits a' <+: s.codeBits b' ∧ ¬ s.codeBits b' <+: s.codeBits a') :
    firstClash s.codeTable = some (a, b) := by
  cases hf : firstClash s.codeTable with
  | none =>
    have := (firstClash_codeTable s).mp hf
    rcases hc with hc | hc
    · exact absurd hc (this a (by omega) b hb (by omega) ca cb)
    · exact absurd hc (this b hb a (by omega) (by omega) cb ca)
  | some e =>
    obtain ⟨p, q⟩ := e
    obtain ⟨x, y, hx, hy, hpq, hcl, hfirst⟩ := firstClash_eq_some _ (codeTable_sorted s) p q hf
    obtain ⟨hp, cp, rfl⟩ := (mem_codeTable _ _ _).mp hx
    obtain ⟨hq, cq, rfl⟩ := (mem_codeTable _ _ _).mp hy
    have h1 : ¬ (p < a ∨ (p = a ∧ q < b)) := fun hlt => by
      have := hmin p q hpq hq hlt cp cq
      tauto
    have h2 : ¬ (a < p ∨ (a = p ∧ b < q)) := fun hlt => by
      have := hfirst a b _ _ ((mem_codeTable s a _).mpr ⟨by omega, ca, rfl⟩) ((mem_codeTable s b _).mpr ⟨hb, cb, rfl⟩)
        hab hlt
      tauto
    obtain ⟨rfl, rfl⟩ : p = a ∧ q = b := by omega
    rfl

/- ### The walk (R187) -/

/-- In a prefix-free table, a string that extends to the code of k and beyond is no code, and the code of k is only k's. -/
theorem code_unique (s : State) (hp : s.PrefixFree) (k k' : Nat) (hk : k < 256) (hk' : k' < 256) (c : s.coded k)
    (c' : s.coded k') (h : s.codeBits k' <+: s.codeBits k) : k' = k := by
  by_contra hn
  exact hp k' hk' k hk hn c' c h

/-- One bit of the walk that ends the code of k. -/
theorem walkBits_leaf (s : State) (hp : s.PrefixFree) (B p n : Nat) (path : List Bool) (out : List Byte) (b : Bool)
    (rest : List Bool) (k : Byte) (c : s.coded k.toNat) (h : path ++ [b] = s.codeBits k.toNat) :
    walkBits s.codeTable B p path out n (b :: rest) =
      if n = 65536 then raiseError .outputOverflow (BitVec.ofNat 32 p)
      else walkBits s.codeTable B (p + 1) [] (k :: out) (n + 1) rest := by
  rw [walkBits]
  have hm := (mem_codeTable s k.toNat _).mpr ⟨k.isLt, c, rfl⟩
  cases hf : s.codeTable.find? (fun e => e.2 == path ++ [b]) with
  | none =>
    have := List.find?_eq_none.mp hf _ hm
    rw [h] at this; simp at this
  | some e =>
    obtain ⟨k', c'⟩ := e
    obtain ⟨hk', cc', rfl⟩ := (mem_codeTable _ _ _).mp (List.mem_of_find?_eq_some hf)
    have he := List.find?_some hf
    simp only [beq_iff_eq] at he
    have : k' = k.toNat := code_unique s hp _ _ k.isLt hk' c cc' (by rw [he, h])
    subst this
    simp

/-- One bit of the walk inside a code. -/
theorem walkBits_inside (s : State) (hp : s.PrefixFree) (B p n : Nat) (path : List Bool) (out : List Byte) (b : Bool)
    (rest : List Bool) (k : Nat) (hk : k < 256) (c : s.coded k) (h : (path ++ [b]) <+: s.codeBits k)
    (hne : path ++ [b] ≠ s.codeBits k) :
    walkBits s.codeTable B p path out n (b :: rest) = walkBits s.codeTable B (p + 1) (path ++ [b]) out n rest := by
  rw [walkBits]
  have hm := (mem_codeTable s k _).mpr ⟨hk, c, rfl⟩
  have hf : s.codeTable.find? (fun e => e.2 == path ++ [b]) = none := by
    rw [List.find?_eq_none]
    rintro ⟨k', c'⟩ hm'
    obtain ⟨hk', cc', rfl⟩ := (mem_codeTable _ _ _).mp hm'
    simp only [beq_iff_eq]
    intro he
    have : k' = k := code_unique s hp _ _ hk hk' c cc' (by rw [he]; exact h)
    subst this
    exact hne he.symm
  have ha : s.codeTable.any (fun e => (path ++ [b]).isPrefixOf e.2) = true :=
    List.any_eq_true.mpr ⟨_, hm, by simpa [List.isPrefixOf_iff_prefix] using h⟩
  rw [hf]
  simp only [ha, if_true]

/-- One bit of the walk without a branch. -/
theorem walkBits_noBranch (s : State) (B p n : Nat) (path : List Bool) (out : List Byte) (b : Bool) (rest : List Bool)
    (h : ∀ k < 256, s.coded k → ¬ (path ++ [b]) <+: s.codeBits k) :
    walkBits s.codeTable B p path out n (b :: rest)
      = raiseError .malformedBitstream (BitVec.ofNat 32 (0x80000000 + p)) := by
  rw [walkBits]
  have hf : s.codeTable.find? (fun e => e.2 == path ++ [b]) = none := by
    rw [List.find?_eq_none]
    rintro ⟨k', c'⟩ hm'
    obtain ⟨hk', cc', rfl⟩ := (mem_codeTable _ _ _).mp hm'
    simp only [beq_iff_eq]
    intro he
    exact h k' hk' cc' (by rw [he])
  have ha : s.codeTable.any (fun e => (path ++ [b]).isPrefixOf e.2) = false := by
    rw [List.any_eq_false]
    rintro ⟨k', c'⟩ hm'
    obtain ⟨hk', cc', rfl⟩ := (mem_codeTable _ _ _).mp hm'
    simpa [List.isPrefixOf_iff_prefix] using h k' hk' cc'
  rw [hf]
  simp only [ha, Bool.false_eq_true, if_false]

/-- The walk over the bits that lead from a node of the code tree to another one, no leaf on the way. -/
theorem walkBits_descend (s : State) (hp : s.PrefixFree) (B p n : Nat) (path bits : List Bool) (out : List Byte)
    (rest : List Bool) (k : Nat) (hk : k < 256) (c : s.coded k) (h : (path ++ bits) <+: s.codeBits k)
    (hne : path ++ bits ≠ s.codeBits k) :
    walkBits s.codeTable B p path out n (bits ++ rest)
      = walkBits s.codeTable B (p + bits.length) (path ++ bits) out n rest := by
  induction bits generalizing p path with
  | nil => simp
  | cons b bits ih =>
    have e : path ++ b :: bits = (path ++ [b]) ++ bits := by simp
    have h1 : (path ++ [b]) <+: s.codeBits k := by
      rw [e] at h; exact (List.prefix_append _ _).trans h
    have h2 : path ++ [b] ≠ s.codeBits k := by
      intro he
      rw [e] at h hne
      have hl := h.length_le
      rw [← he] at hl hne
      simp at hl
      subst hl; simp at hne
    rw [List.cons_append, walkBits_inside s hp B p n path out b _ k hk c h1 h2, ih _ _ (by rw [← e]; exact h)
      (by rw [← e]; exact hne), e]
    congr 1
    simp; omega

/-- The walk over one code. -/
theorem walkBits_code (s : State) (hp : s.PrefixFree) (B p n : Nat) (out : List Byte) (rest : List Bool) (k : Byte)
    (c : s.coded k.toNat) :
    walkBits s.codeTable B p [] out n (s.codeBits k.toNat ++ rest) =
      if n = 65536 then raiseError .outputOverflow (BitVec.ofNat 32 (p + (s.codeBits k.toNat).length - 1))
      else walkBits s.codeTable B (p + (s.codeBits k.toNat).length) [] (k :: out) (n + 1) rest := by
  obtain ⟨pre, b, hb⟩ : ∃ pre b, s.codeBits k.toNat = pre ++ [b] :=
    ⟨_, _, (List.dropLast_append_getLast (codeBits_ne_nil s _ c)).symm⟩
  have hd := walkBits_descend s hp B p n [] pre out (b :: rest) k.toNat k.isLt c
    (by rw [hb]; exact List.prefix_append _ _) (by rw [hb]; simp)
  rw [hb, List.append_assoc, List.singleton_append, hd, List.nil_append,
    walkBits_leaf s hp B _ n pre out b rest k c hb.symm]
  simp [Nat.add_assoc]

/-- The walk over the codes of a byte sequence. -/
theorem walkBits_stream (s : State) (hp : s.PrefixFree) (B p n : Nat) (out l : List Byte) (rest : List Bool)
    (hc : ∀ b ∈ l, s.coded b.toNat) (hn : n + l.length ≤ 65536) :
    walkBits s.codeTable B p [] out n (s.stream l ++ rest)
      = walkBits s.codeTable B (p + (s.stream l).length) [] (l.reverse ++ out) (n + l.length) rest := by
  induction l generalizing p n out with
  | nil => simp
  | cons b l ih =>
    simp only [List.length_cons] at hn
    rw [stream_cons, List.append_assoc, walkBits_code s hp B p n out _ b (hc b (by simp)), if_neg (by omega),
      ih _ _ _ (fun c hcm => hc c (by simp [hcm])) (by omega)]
    simp [Nat.add_assoc, Nat.add_comm]

/-- Everything a successful walk can be: the codes of what it delivers are exactly the bits it read. -/
theorem walkBits_eq_ok (s : State) (B p n : Nat) (path bits : List Bool) (out r : List Byte)
    (h : walkBits s.codeTable B p path out n bits = .ok r) (hn : n ≤ 65536) :
    ∃ l, r = out.reverse ++ l ∧ (∀ b ∈ l, s.coded b.toNat) ∧ s.stream l = path ++ bits ∧ n + l.length ≤ 65536 := by
  induction bits generalizing p n path out with
  | nil =>
    rw [walkBits] at h
    split at h
    · rename_i hpath
      cases h
      exact ⟨[], by simp, by simp, by simp [hpath], by simpa using hn⟩
    · simp at h
  | cons b bits ih =>
    rw [walkBits] at h
    split at h
    · rename_i k c hf
      split at h
      · simp at h
      · rename_i hne
        simp only [Config.dataBytes] at hne
        obtain ⟨l, h1, h2, h3, h4⟩ := ih _ _ _ _ h (by omega)
        obtain ⟨hk, hc, rfl⟩ := (mem_codeTable _ _ _).mp (List.mem_of_find?_eq_some hf)
        have he := List.find?_some hf
        simp only [beq_iff_eq] at he
        have hkn : (BitVec.ofNat 8 k).toNat = k := by simp; omega
        refine ⟨BitVec.ofNat 8 k :: l, by rw [h1]; simp, ?_, ?_, by simp; omega⟩
        · intro x hx
          rcases List.mem_cons.mp hx with rfl | hx
          · rw [hkn]; exact hc
          · exact h2 x hx
        · rw [stream_cons, hkn, he, h3]; simp
    · split at h
      · obtain ⟨l, h1, h2, h3, h4⟩ := ih _ _ _ _ h hn
        exact ⟨l, h1, h2, by rw [h3]; simp, h4⟩
      · simp at h

/- ### UNPACK's checks and walk (R188) -/

theorem unpackOutput_of_unpackable (s : State) (h : s.Unpackable) :
    unpackOutput s = walkBits s.codeTable s.bitCount.toNat 0 [] [] 0 (s.packedBits s.bitCount.toNat) := by
  obtain ⟨h1, h2, h3, h4⟩ := h
  rw [unpackOutput, if_neg (by simp only [Config.packBytes]; omega), (checkCodeTable_ok s _ ()).mpr ⟨h2, h3⟩,
    CmdM.bind_ok, if_neg (by rw [ceil8_eq]; omega)]

/-- Everything a successful decoding can be (R187, R188). -/
theorem unpackOutput_eq_ok (s : State) (out : List Byte) :
    unpackOutput s = .ok out ↔ s.Unpackable ∧ out.length ≤ 65536 ∧ (∀ b ∈ out, s.coded b.toNat) ∧
      s.stream out = s.packedBits s.bitCount.toNat := by
  constructor
  · intro h
    have hu : s.Unpackable := by
      rw [unpackOutput] at h
      split at h
      · simp at h
      · rename_i h1
        obtain ⟨_, h2, h⟩ := (CmdM.bind_eq_ok _ _ _).mp h
        obtain ⟨hp, he⟩ := (checkCodeTable_ok s _ _).mp h2
        split at h
        · simp at h
        · rename_i h4
          simp only [Config.packBytes] at h1
          rw [ceil8_eq] at h4
          exact ⟨by omega, hp, he, by omega⟩
    rw [unpackOutput_of_unpackable s hu] at h
    obtain ⟨l, h1, h2, h3, h4⟩ := walkBits_eq_ok s _ _ _ _ _ _ _ h (by omega)
    simp at h1; subst h1
    exact ⟨hu, by omega, h2, by simpa using h3⟩
  · rintro ⟨hu, hl, hc, hs⟩
    rw [unpackOutput_of_unpackable s hu, ← hs]
    have := walkBits_stream s hu.2.1 s.bitCount.toNat 0 0 [] out [] hc (by omega)
    rw [List.append_nil] at this
    rw [this, walkBits, if_pos rfl]
    simp

end Sys2Proof.Machine
end

