-- ==== Sys2Proof/Laws/Artifact.lean ====
section
/-! SUPPORT. What UNPACK and DECODE make of an artifact: of the packed bytes, the two lengths and the code table that
    PACK
left, on any state that holds them (43_bit_packer.md rule R189), and the shape of their errors. -/

namespace Sys2Proof.Machine

/-- The input up to byte i, and byte i. -/
theorem input_split (s : State) (i : Nat) (h : i < s.dataLen.toNat) : ∃ y, s.input =
    (List.range i).map s.dataAt ++ s.dataAt i :: y := by
  refine ⟨(List.range' (i+1) (s.dataLen.toNat - i - 1)).map s.dataAt, ?_⟩
  rw [input_eq, List.range_eq_range', List.range_eq_range', ← List.map_cons, ← List.map_append, ← List.range'_succ, ]
  congr 1
  rw [show (List.range' i (s.dataLen.toNat - i - 1 + 1)) = List.range' (0 + 1 * i)
      (s.dataLen.toNat - i) from by congr 1 <;> omega]
  rw [List.range'_append]; congr 1; omega

/-- An error of the shared checks and walk is the error of UNPACK and of DECODE (R188, R228). -/
theorem exec_unpackOutput_error (s : State) (c : ErrCode) (info : Word)
    (h : unpackOutput s = raiseError c info) : ∀ i ∈ [Instr.unpack, Instr.decode], exec i s = .next
    (s.commitError c info) := by
  intro i hi
  simp only [List.mem_cons, List.not_mem_nil, or_false] at hi
  rcases hi with rfl | rfl
  · rw [exec_unpack, unpack, h]; rfl
  · rw [exec_decode, decodeCommand, h]; rfl

/-- The delivered bytes read back (R188). -/
theorem commitOutput_read (s : State) (out : List Byte) (h : out.length ≤ 65536) :
    (List.range (s.commitOutput out).dataLen.toNat).map (s.commitOutput out).dataAt = out := by
  have hl : (s.commitOutput out).dataLen.toNat = out.length := by simp; omega
  rw [hl]
  apply List.ext_getElem (by simp)
  intro i h1 h2
  simp at h1
  simp only [List.getElem_map, List.getElem_range, State.dataAt, State.commitOutput, ramRead_memWrite]
  rw [if_pos (by omega)]; simp [h1]

/- ### What depends on the code table alone -/

theorem codeBits_congr (s u : State) (h : ∀ k < 256, u.codeAt k = s.codeAt k) (k : Nat)
    (hk : k < 256) : u.codeBits k = s.codeBits k := by
  simp only [State.codeBits, h k hk]

theorem stream_congr (s u : State) (h : ∀ k < 256, u.codeAt k = s.codeAt k)
    (l : List Byte) : u.stream l = s.stream l := by
  induction l with
  | nil => rfl
  | cons b l ih => rw [stream_cons, stream_cons, ih, codeBits_congr s u h _ b.isLt]

theorem coded_congr (s u : State) (h : ∀ k < 256, u.codeAt k = s.codeAt k) (k : Nat)
    (hk : k < 256) : u.coded k ↔ s.coded k := by
  simp only [State.coded, h k hk]

theorem prefixFree_congr (s u : State) (h : ∀ k < 256, u.codeAt k = s.codeAt k) : s.PrefixFree → u.PrefixFree := by
  intro hp a ha b hb hab ca cb
  rw [codeBits_congr s u h a ha, codeBits_congr s u h b hb]
  exact hp a ha b hb hab ((coded_congr s u h a ha).mp ca) ((coded_congr s u h b hb).mp cb)

/-- What depends on the packed bytes alone. -/
theorem packedBits_congr (t u : State) (B n : Nat) (hB : B ≤ 8 * n) (h : ∀ j < n, u.packAt j = t.packAt j) :
    u.packedBits B = t.packedBits B := by
  refine List.map_congr_left fun p hp => ?_
  have : p < B := by simpa using hp
  simp only [State.packBit, h (p / 8) (by omega)]

/-- What PACK made with a prefix-free table decodes to its input, wherever the table and the artifact stand (R189). -/
theorem unpackOutput_of_pack (s w u : State) (hw : pack s = .ok w) (hpf : s.PrefixFree)
    (h1 : ∀ k < 256, u.codeAt k = s.codeAt k) (h2 : u.bitCount = w.bitCount) (h3 : u.packLen = w.packLen)
    (h4 : ∀ j < w.packLen.toNat, u.packAt j = w.packAt j) :
   unpackOutput u = .ok s.input := by
  obtain ⟨a, b, c, rfl⟩ := (pack_eq_ok s w).mp hw
  have hB : (BitVec.ofNat 32 (s.stream s.input).length).toNat = (s.stream s.input).length := by simp; omega
  have hL : (BitVec.ofNat 32 (ceil8 (s.stream s.input).length)).toNat = ceil8 (s.stream s.input).length := by
    simp [ceil8_eq]; omega
  dsimp only at h2 h3 h4
  rw [hL] at h4
  rw [unpackOutput_eq_ok, h2, hB, stream_congr s u h1]
  refine ⟨⟨?_, prefixFree_congr s u h1 hpf, ?_, ?_⟩, by simpa using a, ?_, ?_⟩
  · rw [h3, hL, ceil8_eq]; omega
  · rw [h2, hB]
    intro hpos
    cases hin : s.input with
    | nil => rw [hin] at hpos; simp at hpos
    | cons x l =>
      exact ⟨x.toNat, x.isLt, (coded_congr s u h1 _ x.isLt).mpr (b x (by rw [hin]; simp))⟩
  · rw [h2, h3, hB, hL, ceil8_eq]
  · intro x hx; exact (coded_congr s u h1 _ x.isLt).mpr (b x hx)
  · rw [packedBits_congr _ u _ _ (by rw [ceil8_eq]; omega) h4]
    exact (packedBits_of_write s (s.stream s.input) _ rfl).symm

end Sys2Proof.Machine
end

