-- ==== Sys2Proof/Laws/Tree.lean ====
section
/-! SUPPORT. The laws of the tree builder: what one merge takes, the collection after j merges, and the tree that BUILD
leaves (R140 to R143). -/

namespace Sys2Proof.Machine

/- ### The priority order (R140) -/

theorem before_iff (x y : Key) : x.before y = true ↔ x.w < y.w ∨ (x.w = y.w ∧ x.i < y.i) := by
  simp [Key.before]

theorem before_trans (x y z : Key) (h1 : x.before y = true) (h2 : y.before z = true) : x.before z = true := by
  rw [before_iff] at *; omega

theorem before_of_not (x y : Key) (h : ¬ x.before y = true) (hi : x.i ≠ y.i) : y.before x = true := by
  rw [before_iff] at *; omega

/-- The least key of a list whose indices differ is in it, and comes before every other. -/
theorem leastKey_spec (x : Key) (A : List Key) (hnd : ((x :: A).map (·.i)).Nodup) :
    leastKey x A ∈ x :: A ∧ ∀ c ∈ x :: A, c ≠ leastKey x A → (leastKey x A).before c = true := by
  induction A generalizing x with
  | nil => simp [leastKey]
  | cons y A ih =>
    have hxy : x.i ≠ y.i := by
      intro e; simp [e] at hnd
    have step : leastKey x (y :: A) = leastKey (if y.before x then y else x) A := rfl
    simp only [List.map_cons, List.nodup_cons, List.mem_cons, not_or] at hnd
    rw [step]
    split
    · rename_i hb
      obtain ⟨hm, hle⟩ := ih y (by simp only [List.map_cons, List.nodup_cons]; exact hnd.2)
      refine ⟨by simp only [List.mem_cons] at hm ⊢; tauto, ?_⟩
      intro c hc hne
      simp only [List.mem_cons] at hc
      rcases hc with rfl | hc
      · by_cases hy : y = leastKey y A
        · rw [← hy]; exact hb
        · exact before_trans _ y _ (hle y (by simp) hy) hb
      · exact hle c (by simpa using hc) hne
    · rename_i hb
      obtain ⟨hm, hle⟩ := ih x (by simp only [List.map_cons, List.nodup_cons]; exact ⟨hnd.1.2, hnd.2.2⟩)
      refine ⟨by simp only [List.mem_cons] at hm ⊢; tauto, ?_⟩
      intro c hc hne
      simp only [List.mem_cons] at hc
      have hxb := before_of_not y x hb (Ne.symm hxy)
      rcases hc with rfl | rfl | hc
      · exact hle c (by simp) hne
      · by_cases hx : x = leastKey x A
        · rw [← hx]; exact hxb
        · exact before_trans _ x _ (hle x (by simp) hx) hxb
      · exact hle c (by simp [hc]) hne

/-- Taking the least node: what is taken comes before all that stays, and nothing is lost. -/
theorem takeLeast_spec (A A' : List Key) (a : Key) (hnd : (A.map (·.i)).Nodup) (h : takeLeast A = some (a, A')) :
    A.Perm (a :: A') ∧ ∀ c ∈ A', a.before c = true := by
  cases A with
  | nil => simp [takeLeast] at h
  | cons x A =>
    obtain ⟨rfl, rfl⟩ : leastKey x A = a ∧ (x :: A).erase (leastKey x A) = A' := by simpa [takeLeast] using h
    obtain ⟨hm, hle⟩ := leastKey_spec x A hnd
    have hp := List.perm_cons_erase hm
    refine ⟨hp, fun c hc => hle c (List.mem_of_mem_erase hc) ?_⟩
    rintro rfl
    have hn : (x :: A).Nodup := List.Nodup.of_map _ hnd
    exact (List.Nodup.not_mem_erase hn) hc

theorem takeLeast_isSome (A : List Key) (h : A ≠ []) : ∃ a A', takeLeast A = some (a, A') := by
  cases A with
  | nil => exact absurd rfl h
  | cons x A => exact ⟨_, _, rfl⟩

/- ### One merge -/

/-- The two nodes a merge takes from the collection, the left child first, and what stays (R141). -/
def picks (A : List Key) : Option (Key × Key × List Key) :=
  (takeLeast A).bind fun p => (takeLeast p.2).map fun q => (p.1, q.1, q.2)

theorem picks_spec (A A2 : List Key) (a b : Key) (hnd : (A.map (·.i)).Nodup) (h : picks A = some (a, b, A2)) :
    A.Perm (a :: b :: A2) ∧ a.before b = true ∧ (∀ c ∈ A2, a.before c = true) ∧ (∀ c ∈ A2, b.before c = true) := by
  obtain ⟨⟨a', A1⟩, h1, h⟩ := Option.bind_eq_some_iff.mp h
  obtain ⟨⟨b', A2'⟩, h2, h⟩ := Option.map_eq_some_iff.mp h
  obtain ⟨rfl, rfl, rfl⟩ : a' = a ∧ b' = b ∧ A2' = A2 := by simpa using h
  obtain ⟨p1, l1⟩ := takeLeast_spec A A1 a' hnd h1
  have hnd1 : (A1.map (·.i)).Nodup := by
    have := (p1.map (·.i)).nodup_iff.mp hnd
    exact (List.nodup_cons.mp this).2
  obtain ⟨p2, l2⟩ := takeLeast_spec A1 A2' b' hnd1 h2
  refine ⟨p1.trans (p2.cons _), l1 _ (p2.mem_iff.mpr (by simp)), fun c hc => l1 c (p2.mem_iff.mpr (by simp [hc])), l2⟩

theorem picks_isSome (A : List Key) (hnd : (A.map (·.i)).Nodup) (h : 2 ≤ A.length) : ∃ a b A2, picks A = some (a, b, A2) := by
  obtain ⟨a, A1, h1⟩ := takeLeast_isSome A (by rintro rfl; simp at h)
  have hl := (takeLeast_spec A A1 a hnd h1).1.length_eq
  obtain ⟨b, A2, h2⟩ := takeLeast_isSome A1 (by rintro rfl; simp at hl; omega)
  exact ⟨a, b, A2, by simp [picks, h1, h2]⟩

/-- The collection after a merge that makes node n (R141). -/
def mergeOnce (n : Nat) (A : List Key) : List Key :=
  match picks A with
  | some (a, b, A2) => { w := a.w + b.w, i := n } :: A2
  | none => A

/-- The collection after j merges, when the first one makes node n. -/
def collectionAt (n : Nat) (A : List Key) : Nat → List Key
  | 0 => A
  | j + 1 => mergeOnce (n + j) (collectionAt n A j)

/-- The two nodes that merge j takes. -/
def pickAt (n : Nat) (A : List Key) (j : Nat) : Key × Key :=
  match picks (collectionAt n A j) with
  | some (a, b, _) => (a, b)
  | none => ({ w := 0, i := 0 }, { w := 0, i := 0 })

theorem collectionAt_shift (n : Nat) (A : List Key) (j : Nat) :
    collectionAt (n + 1) (mergeOnce n A) j = collectionAt n A (j + 1) := by
  induction j with
  | zero => rfl
  | succ j ih => rw [collectionAt, ih, show n + 1 + j = n + (j + 1) by omega]; rfl

theorem pickAt_shift (n : Nat) (A : List Key) (j : Nat) : pickAt (n + 1) (mergeOnce n A) j = pickAt n A (j + 1) := by
  rw [pickAt, collectionAt_shift, pickAt]

/-- The nodes and steps of k merges, one by one. -/
theorem mergeAll_eq (k n : Nat) (A : List Key) (hnd : (A.map (·.i)).Nodup) (hlt : ∀ x ∈ A, x.i < n) (hlen : k + 1 ≤ A.length) :
    mergeAll k n A = (List.range k).map fun j =>
      (mergedNode (pickAt n A j).1 (pickAt n A j).2, mergeStep (pickAt n A j).1 (pickAt n A j).2 (n + j)) := by
  induction k generalizing n A with
  | zero => simp [mergeAll]
  | succ k ih =>
    obtain ⟨a, b, A2, hp⟩ := picks_isSome A hnd (by omega)
    obtain ⟨hperm, -⟩ := picks_spec A A2 a b hnd hp
    obtain ⟨⟨a', A1⟩, h1, h⟩ := Option.bind_eq_some_iff.mp hp
    obtain ⟨⟨b', A2'⟩, h2, h⟩ := Option.map_eq_some_iff.mp h
    obtain ⟨rfl, rfl, rfl⟩ : a' = a ∧ b' = b ∧ A2' = A2 := by simpa using h
    simp only at h1 h2
    have hm : mergeOnce n A = { w := a'.w + b'.w, i := n } :: A2' := by simp only [mergeOnce, hp]
    have hnd2 := List.nodup_cons.mp (List.nodup_cons.mp ((hperm.map (·.i)).nodup_iff.mp hnd)).2
    have hlt2 : ∀ x ∈ A2', x.i < n := fun x hx => hlt x (hperm.mem_iff.mpr (by simp [hx]))
    have hnd' : ((mergeOnce n A).map (·.i)).Nodup := by
      rw [hm, List.map_cons, List.nodup_cons]
      refine ⟨?_, hnd2.2⟩
      intro hc
      obtain ⟨x, hx, e⟩ := List.mem_map.mp hc
      have := hlt2 x hx
      simp at e; omega
    have hlt' : ∀ x ∈ mergeOnce n A, x.i < n + 1 := by
      rw [hm]
      intro x hx
      rcases List.mem_cons.mp hx with rfl | hx
      · simp
      · have := hlt2 x hx; omega
    have hl := hperm.length_eq
    have hr := ih (n + 1) (mergeOnce n A) hnd' hlt' (by rw [hm]; simp at hl ⊢; omega)
    rw [mergeAll, h1]
    dsimp only
    rw [h2]
    dsimp only
    rw [← hm, hr, List.range_succ_eq_map, List.map_cons, List.map_map]
    congr 1
    · simp [pickAt, collectionAt, hp]
    · refine List.map_congr_left fun j _ => ?_
      simp only [pickAt_shift, Function.comp, Nat.succ_eq_add_one]
      rw [show n + 1 + j = n + (j + 1) by omega]

/-- The weight of node i during the merges: of the nodes of A, and of the node that a merge made. -/
def nodeWeight (n : Nat) (A : List Key) (w0 : Nat → Nat) (i : Nat) : Nat :=
  if i < n then w0 i else (pickAt n A (i - n)).1.w + (pickAt n A (i - n)).2.w

/-- Node i is in the collection of merge j. -/
def stillIn (n : Nat) (A : List Key) (j i : Nat) : Prop :=
  i < n + j ∧ (i < n → i ∈ A.map (·.i)) ∧ ∀ m < j, (pickAt n A m).1.i ≠ i ∧ (pickAt n A m).2.i ≠ i

/-- Everything the collection after j merges is. -/
structure Collection (n : Nat) (A : List Key) (w0 : Nat → Nat) (j : Nat) : Prop where
  length : (collectionAt n A j).length + j = A.length
  nodup : ((collectionAt n A j).map (·.i)).Nodup
  bound : ∀ x ∈ collectionAt n A j, x.i < n + j
  sum : ((collectionAt n A j).map (·.w)).sum = (A.map (·.w)).sum
  weight : ∀ x ∈ collectionAt n A j, x.w = nodeWeight n A w0 x.i
  taken : ∀ m < j, (pickAt n A m).1.i < n + m ∧ (pickAt n A m).2.i < n + m
  mem : ∀ i, i ∈ (collectionAt n A j).map (·.i) ↔ stillIn n A j i

theorem collection_zero (n : Nat) (A : List Key) (w0 : Nat → Nat) (hnd : (A.map (·.i)).Nodup) (hlt : ∀ x ∈ A, x.i < n)
    (hw : ∀ x ∈ A, x.w = w0 x.i) : Collection n A w0 0 where
  length := rfl
  nodup := hnd
  bound := hlt
  sum := rfl
  weight := fun x hx => by rw [nodeWeight, if_pos (hlt x hx)]; exact hw x hx
  taken := by omega
  mem := fun i => by
    constructor
    · intro h
      obtain ⟨x, hx, rfl⟩ := List.mem_map.mp h
      exact ⟨hlt x hx, fun _ => h, by omega⟩
    · rintro ⟨h1, h2, -⟩
      exact h2 h1

/-- What merge j takes. -/
theorem pickAt_spec (n : Nat) (A : List Key) (w0 : Nat → Nat) (j : Nat) (h : Collection n A w0 j) (hj : j + 2 ≤ A.length) :
    ∃ A2, collectionAt n A (j + 1) = { w := (pickAt n A j).1.w + (pickAt n A j).2.w, i := n + j } :: A2 ∧
      (collectionAt n A j).Perm ((pickAt n A j).1 :: (pickAt n A j).2 :: A2) ∧
      (pickAt n A j).1.before (pickAt n A j).2 = true ∧ (∀ c ∈ A2, (pickAt n A j).1.before c = true) ∧
      (∀ c ∈ A2, (pickAt n A j).2.before c = true) := by
  obtain ⟨a, b, A2, hp⟩ := picks_isSome (collectionAt n A j) h.nodup (by have := h.length; omega)
  refine ⟨A2, ?_, ?_⟩
  · simp only [collectionAt, mergeOnce, pickAt, hp]
  · simpa only [pickAt, hp] using picks_spec _ A2 a b h.nodup hp

theorem collection_succ (n : Nat) (A : List Key) (w0 : Nat → Nat) (j : Nat) (h : Collection n A w0 j) (hj : j + 2 ≤ A.length) :
    Collection n A w0 (j + 1) := by
  obtain ⟨A2, hc, hperm, -, -, -⟩ := pickAt_spec n A w0 j h hj
  have hnd := List.nodup_cons.mp ((hperm.map (·.i)).nodup_iff.mp h.nodup)
  have hnd2 := List.nodup_cons.mp hnd.2
  have hb2 : ∀ x ∈ A2, x.i < n + j := fun x hx => h.bound x (hperm.mem_iff.mpr (by simp [hx]))
  have hl := hperm.length_eq
  have hlen := h.length
  have hsum := (hperm.map (·.w)).sum_eq
  have hs := h.sum
  have ha : (pickAt n A j).1.i < n + j := h.bound _ (hperm.mem_iff.mpr (by simp))
  have hb : (pickAt n A j).2.i < n + j := h.bound _ (hperm.mem_iff.mpr (by simp))
  refine ⟨?_, ?_, ?_, ?_, ?_, ?_, ?_⟩
  · rw [hc]; simp at hl ⊢; omega
  · rw [hc, List.map_cons, List.nodup_cons]
    refine ⟨?_, hnd2.2⟩
    intro hm
    obtain ⟨x, hx, e⟩ := List.mem_map.mp hm
    have := hb2 x hx
    simp at e; omega
  · rw [hc]
    intro x hx
    rcases List.mem_cons.mp hx with rfl | hx
    · simp
    · have := hb2 x hx; omega
  · rw [hc]; simp at hsum ⊢; omega
  · rw [hc]
    intro x hx
    rcases List.mem_cons.mp hx with rfl | hx
    · simp [nodeWeight]
    · exact h.weight x (hperm.mem_iff.mpr (by simp [hx]))
  · intro m hm
    by_cases hmj : m = j
    · subst hmj; exact ⟨ha, hb⟩
    · exact h.taken m (by omega)
  · intro i
    have hmem : i ∈ (collectionAt n A j).map (·.i) ↔
        i = (pickAt n A j).1.i ∨ i = (pickAt n A j).2.i ∨ i ∈ A2.map (·.i) := by
      rw [(hperm.map (·.i)).mem_iff]; simp
    have hj' := h.mem i
    rw [hmem] at hj'
    rw [hc, List.map_cons, List.mem_cons]
    have hnot : ∀ x, x ∈ A2.map (·.i) → x ≠ (pickAt n A j).1.i ∧ x ≠ (pickAt n A j).2.i := by
      intro x hx
      refine ⟨?_, ?_⟩
      · rintro rfl; exact hnd.1 (by simp only [List.map_cons, List.mem_cons]; exact .inr hx)
      · rintro rfl; exact hnd2.1 hx
    constructor
    · rintro (hi | hi)
      · replace hi : i = n + j := hi
        refine ⟨by omega, by omega, fun m hm => ?_⟩
        by_cases hmj : m = j
        · subst hmj; omega
        · have := h.taken m (by omega); omega
      · obtain ⟨h1, h2, h3⟩ := hj'.mp (.inr (.inr hi))
        refine ⟨by omega, h2, fun m hm => ?_⟩
        by_cases hmj : m = j
        · subst hmj; have := hnot i hi; exact ⟨this.1.symm, this.2.symm⟩
        · exact h3 m (by omega)
    · rintro ⟨h1, h2, h3⟩
      by_cases hi : i = n + j
      · exact .inl hi
      · have := h3 j (by omega)
        rcases hj'.mpr ⟨by omega, h2, fun m hm => h3 m (by omega)⟩ with e | e | e
        · exact absurd e.symm this.1
        · exact absurd e.symm this.2
        · exact .inr e

theorem collection_all (n : Nat) (A : List Key) (w0 : Nat → Nat) (hnd : (A.map (·.i)).Nodup) (hlt : ∀ x ∈ A, x.i < n)
    (hw : ∀ x ∈ A, x.w = w0 x.i) (j : Nat) (hj : j + 1 ≤ A.length ∨ j = 0) : Collection n A w0 j := by
  induction j with
  | zero => exact collection_zero n A w0 hnd hlt hw
  | succ j ih => exact collection_succ n A w0 j (ih (by omega)) (by omega)

/- ### The leaves (R140) -/

theorem presentSymbols_lt (s : State) : ∀ k ∈ s.presentSymbols, k < 256 := by
  intro k hk
  simpa [Config.nsym] using (List.mem_filter.mp hk).1

theorem mem_presentSymbols (s : State) (k : Nat) : k ∈ s.presentSymbols ↔ k < 256 ∧ s.freqAt k ≠ 0#32 := by
  simp [State.presentSymbols, Config.nsym]

theorem presentSymbols_sorted (s : State) : s.presentSymbols.Pairwise (· < ·) :=
  List.Pairwise.filter _ List.pairwise_lt_range

theorem presentSymbols_length (s : State) : s.presentSymbols.length ≤ 256 := by
  have := List.length_filter_le (fun k => s.freqAt k ≠ 0#32) (List.range 256)
  simpa [State.presentSymbols, Config.nsym] using this

@[simp] theorem leafKeys_length (s : State) : s.leafKeys.length = s.presentSymbols.length := by simp [State.leafKeys]

theorem leafKeys_getElem (s : State) (i : Nat) (h : i < s.presentSymbols.length) :
    s.leafKeys[i]'(by simpa using h) = { w := (s.freqAt s.presentSymbols[i]).toNat, i := i } := by
  simp [State.leafKeys]

theorem leafKeys_indices (s : State) : s.leafKeys.map (·.i) = List.range s.presentSymbols.length := by
  apply List.ext_getElem (by simp)
  intro i h1 h2
  rw [List.getElem_map, leafKeys_getElem s i (by simpa using h1), List.getElem_range]

theorem leafKeys_nodup (s : State) : (s.leafKeys.map (·.i)).Nodup := by
  rw [leafKeys_indices]; exact List.nodup_range

theorem leafKeys_bound (s : State) : ∀ x ∈ s.leafKeys, x.i < s.presentSymbols.length := by
  intro x hx
  have := List.mem_map_of_mem (f := fun k : Key => k.i) hx
  rw [leafKeys_indices] at this
  simpa using this

/-- The weight of leaf i. -/
def leafWeight (s : State) (i : Nat) : Nat := (s.freqAt (s.presentSymbols.getD i 0)).toNat

theorem leafKeys_weight (s : State) : ∀ x ∈ s.leafKeys, x.w = leafWeight s x.i := by
  intro x hx
  obtain ⟨i, hi, rfl⟩ := List.getElem_of_mem hx
  have hi' : i < s.presentSymbols.length := by simpa using hi
  rw [leafKeys_getElem s i hi']
  simp [leafWeight, hi']

theorem sum_filter_ne_zero (l : List Nat) (f : Nat → Word) :
    ((l.filter fun k => f k ≠ 0#32).map fun k => (f k).toNat).sum = (l.map fun k => (f k).toNat).sum := by
  induction l with
  | nil => rfl
  | cons a l ih =>
    by_cases h : f a = 0#32
    · rw [List.filter_cons_of_neg (by simp [h])]
      simp only [List.map_cons, List.sum_cons, ih, h]; simp
    · rw [List.filter_cons_of_pos (by simp [h])]
      simp only [List.map_cons, List.sum_cons, ih]

theorem leafKeys_sum (s : State) : (s.leafKeys.map (·.w)).sum = s.freqTotal := by
  have h1 : s.leafKeys.map (·.w) = s.presentSymbols.map fun k => (s.freqAt k).toNat := by
    apply List.ext_getElem (by simp)
    intro i h1 h2
    rw [List.getElem_map, leafKeys_getElem s i (by simpa using h1), List.getElem_map]
  rw [h1]
  exact sum_filter_ne_zero (List.range 256) s.freqAt

/-- The collection of merge j of BUILD (R141). -/
theorem build_collection (s : State) (j : Nat) (h : j + 1 ≤ s.presentSymbols.length ∨ j = 0) :
    Collection s.presentSymbols.length s.leafKeys (leafWeight s) j :=
  collection_all _ _ _ (leafKeys_nodup s) (leafKeys_bound s) (leafKeys_weight s) j (by simpa using h)

/-- The picks of merge j of BUILD. -/
def buildPick (s : State) (j : Nat) : Key × Key := pickAt s.presentSymbols.length s.leafKeys j

theorem merges_eq (s : State) :
    s.merges = (List.range (s.presentSymbols.length - 1)).map fun j =>
      (mergedNode (buildPick s j).1 (buildPick s j).2,
       mergeStep (buildPick s j).1 (buildPick s j).2 (s.presentSymbols.length + j)) := by
  by_cases h : s.presentSymbols.length = 0
  · simp [State.merges, h, mergeAll]
  · exact mergeAll_eq _ _ _ (leafKeys_nodup s) (leafKeys_bound s) (by simp; omega)

/-- Everything a successful BUILD can be (R141). -/
theorem build_eq_ok (s t : State) :
    build s = .ok t ↔ s.presentSymbols.length ≠ 0 ∧ s.freqTotal < 2 ^ 32 ∧ t = { s with
      node := ramOfList Node.zero (s.presentSymbols.map s.leafNode ++ s.merges.map (·.1))
      trace := ramOfList TraceEntry.zero (s.merges.map (·.2))
      numLeaves := BitVec.ofNat 9 s.presentSymbols.length
      numSteps := BitVec.ofNat 8 (s.presentSymbols.length - 1)
      root := BitVec.ofNat 9 (if s.presentSymbols.length = 1 then 0 else 2 * s.presentSymbols.length - 2)
      totalWeight := BitVec.ofNat 32 s.freqTotal
      treeValid := true } := by
  unfold build
  dsimp only
  by_cases h1 : s.presentSymbols.length = 0
  · rw [if_pos h1]; simp [h1]
  · rw [if_neg h1]
    by_cases h2 : s.freqTotal > 2 ^ 32 - 1
    · rw [if_pos h2]; simp; omega
    · rw [if_neg h2]
      constructor
      · intro h; cases h; exact ⟨h1, by omega, rfl⟩
      · rintro ⟨-, -, rfl⟩; rfl

/-- What a successful BUILD leaves in the tree registers, `NODE` and `TRACE` (R141). -/
structure Built (s t : State) : Prop where
  pos : 1 ≤ s.presentSymbols.length
  le : s.presentSymbols.length ≤ 256
  total : s.freqTotal < 2 ^ 32
  leaves : t.numLeaves.toNat = s.presentSymbols.length
  steps : t.numSteps.toNat = s.presentSymbols.length - 1
  root : t.root.toNat = 2 * s.presentSymbols.length - 2
  weight : t.totalWeight.toNat = s.freqTotal
  leaf : ∀ i (h : i < s.presentSymbols.length), t.nodeAt i = s.leafNode s.presentSymbols[i]
  inner : ∀ k < s.presentSymbols.length - 1,
    t.nodeAt (s.presentSymbols.length + k) = mergedNode (buildPick s k).1 (buildPick s k).2
  rest : ∀ i, 2 * s.presentSymbols.length - 1 ≤ i → t.nodeAt i = Node.zero
  trace : ∀ k < s.presentSymbols.length - 1,
    t.traceAt k = mergeStep (buildPick s k).1 (buildPick s k).2 (s.presentSymbols.length + k)
  traceRest : ∀ k, s.presentSymbols.length - 1 ≤ k → t.traceAt k = TraceEntry.zero

theorem built_of_ok (s t : State) (h : build s = .ok t) : Built s t := by
  obtain ⟨h1, h2, rfl⟩ := (build_eq_ok s t).mp h
  have hle := presentSymbols_length s
  have hm : s.merges.length = s.presentSymbols.length - 1 := by rw [merges_eq]; simp
  refine ⟨by omega, hle, h2, ?_, ?_, ?_, ?_, ?_, ?_, ?_, ?_, ?_⟩
  · simp; omega
  · simp; omega
  · simp only [BitVec.toNat_ofNat]; split <;> omega
  · simp; omega
  · intro i hi
    simp only [State.nodeAt, ramRead_ofList]
    rw [List.getD_append _ _ _ _ (by simpa using hi)]
    simp [hi]
  · intro k hk
    simp only [State.nodeAt, ramRead_ofList]
    rw [List.getD_append_right _ _ _ _ (by simp)]
    simp [merges_eq, hk]
  · intro i hi
    simp only [State.nodeAt, ramRead_ofList]
    rw [List.getD_eq_default]
    simp [hm]; omega
  · intro k hk
    simp only [State.traceAt, ramRead_ofList]
    simp [merges_eq, hk]
  · intro k hk
    simp only [State.traceAt, ramRead_ofList]
    rw [List.getD_eq_default]
    simp [hm]; omega

/- ### The tree (R143) -/

/-- What merge k of BUILD takes. -/
theorem buildPick_spec (s : State) (k : Nat) (hk : k < s.presentSymbols.length - 1) :
    (buildPick s k).1.i < s.presentSymbols.length + k ∧ (buildPick s k).2.i < s.presentSymbols.length + k ∧
    (buildPick s k).1.i ≠ (buildPick s k).2.i ∧ (buildPick s k).1.w + (buildPick s k).2.w ≤ s.freqTotal ∧
    (buildPick s k).1.w = nodeWeight s.presentSymbols.length s.leafKeys (leafWeight s) (buildPick s k).1.i ∧
    (buildPick s k).2.w = nodeWeight s.presentSymbols.length s.leafKeys (leafWeight s) (buildPick s k).2.i := by
  have hc := build_collection s k (by omega)
  obtain ⟨A2, -, hp, -⟩ := pickAt_spec _ _ _ k hc (by simp; omega)
  have hm1 : (buildPick s k).1 ∈ collectionAt s.presentSymbols.length s.leafKeys k := hp.mem_iff.mpr (by simp [buildPick])
  have hm2 : (buildPick s k).2 ∈ collectionAt s.presentSymbols.length s.leafKeys k := hp.mem_iff.mpr (by simp [buildPick])
  refine ⟨hc.bound _ hm1, hc.bound _ hm2, ?_, ?_, hc.weight _ hm1, hc.weight _ hm2⟩
  · have hnd := (hp.map (·.i)).nodup_iff.mp hc.nodup
    simp only [List.map_cons, List.nodup_cons, List.mem_cons, not_or] at hnd
    exact hnd.1.1
  · have hs := (hp.map (·.w)).sum_eq
    have := hc.sum
    rw [leafKeys_sum] at this
    simp only [List.map_cons, List.sum_cons] at hs
    simp only [buildPick]; omega

theorem ofNat9_toNat (i : Nat) (h : i < 512) : (BitVec.ofNat 9 i).toNat = i := by simp; omega

theorem ofNat32_toNat (i : Nat) (h : i < 2 ^ 32) : (BitVec.ofNat 32 i).toNat = i := by simp; omega

section built

variable {s t : State} (b : Built s t)
include b

theorem Built.leftOf (k : Nat) (hk : k < s.presentSymbols.length - 1) :
    t.leftOf (s.presentSymbols.length + k) = (buildPick s k).1.i := by
  have := buildPick_spec s k hk
  have := b.le
  rw [State.leftOf, b.inner k hk, mergedNode, ofNat9_toNat _ (by omega)]

theorem Built.rightOf (k : Nat) (hk : k < s.presentSymbols.length - 1) :
    t.rightOf (s.presentSymbols.length + k) = (buildPick s k).2.i := by
  have := buildPick_spec s k hk
  have := b.le
  rw [State.rightOf, b.inner k hk, mergedNode, ofNat9_toNat _ (by omega)]

/-- Every node of the tree weighs what its key weighed. -/
theorem Built.weightOf (i : Nat) (hi : i < 2 * s.presentSymbols.length - 1) :
    t.weight i = nodeWeight s.presentSymbols.length s.leafKeys (leafWeight s) i := by
  by_cases h : i < s.presentSymbols.length
  · rw [State.weight, b.leaf i h, nodeWeight, if_pos h]
    simp [State.leafNode, leafWeight, h]
  · obtain ⟨k, rfl⟩ := Nat.exists_eq_add_of_le (show s.presentSymbols.length ≤ i by omega)
    have := buildPick_spec s k (by omega)
    have := b.total
    rw [State.weight, b.inner k (by omega), nodeWeight, if_neg h, mergedNode, ofNat32_toNat _ (by omega),
      Nat.add_sub_cancel_left]
    rfl

theorem Built.leavesWf : t.LeavesWf s.presentSymbols.length := by
  constructor
  · intro i hi
    have hm := (mem_presentSymbols s _).mp (List.getElem_mem hi)
    simp only [State.leftOf, State.rightOf, State.weight, b.leaf i hi, State.leafNode]
    refine ⟨trivial, trivial, rfl, rfl, ?_⟩
    have h0 : (s.freqAt s.presentSymbols[i]).toNat ≠ 0 := fun e => hm.2 (BitVec.eq_of_toNat_eq (by simpa using e))
    omega
  · intro i hi j hj
    rw [b.leaf i hi, b.leaf j (by omega)]
    have h1 := List.pairwise_iff_getElem.mp (presentSymbols_sorted s) j i (by omega) hi hj
    have h2 := presentSymbols_lt s _ (List.getElem_mem hi)
    simp only [State.leafNode, BitVec.toNat_ofNat]
    omega

theorem Built.internalsWf : t.InternalsWf s.presentSymbols.length := by
  intro k hk
  obtain ⟨h1, h2, h3, h4, h5, h6⟩ := buildPick_spec s k hk
  rw [b.leftOf k hk, b.rightOf k hk, b.weightOf _ (by omega), b.weightOf (buildPick s k).1.i (by omega),
    b.weightOf (buildPick s k).2.i (by omega), b.inner k hk]
  refine ⟨rfl, rfl, rfl, h1, h2, h3, ?_⟩
  rw [← h5, ← h6, nodeWeight, if_neg (by omega), Nat.add_sub_cancel_left]
  rfl

/-- A node is in the collection of merge j (R141) exactly when no earlier merge took it. -/
theorem Built.inCollection (j i : Nat) (hj : j ≤ s.presentSymbols.length - 1) :
    t.inCollection s.presentSymbols.length j i ↔
      i ∈ (collectionAt s.presentSymbols.length s.leafKeys j).map (·.i) := by
  rw [(build_collection s j (by have := b.pos; omega)).mem i, stillIn, State.inCollection]
  constructor
  · rintro ⟨h1, h2⟩
    refine ⟨h1, fun h => by rw [leafKeys_indices]; simpa using h, fun m hm => ?_⟩
    have := h2 m hm
    rwa [b.leftOf m (by omega), b.rightOf m (by omega)] at this
  · rintro ⟨h1, -, h2⟩
    refine ⟨h1, fun m hm => ?_⟩
    rw [b.leftOf m (by omega), b.rightOf m (by omega)]
    exact h2 m hm

omit b in
/-- The one node left at the end is the root. -/
theorem last_index (hN : 2 ≤ s.presentSymbols.length) (i : Nat)
    (h : i ∈ (collectionAt s.presentSymbols.length s.leafKeys (s.presentSymbols.length - 1)).map (·.i)) :
    i = 2 * s.presentSymbols.length - 2 := by
  have hc := build_collection s (s.presentSymbols.length - 2) (by omega)
  obtain ⟨A2, h1, -, -⟩ := pickAt_spec _ _ _ _ hc (by simp; omega)
  have hl := (build_collection s (s.presentSymbols.length - 1) (by omega)).length
  rw [show s.presentSymbols.length - 2 + 1 = s.presentSymbols.length - 1 by omega] at h1
  rw [h1] at hl h
  simp only [List.length_cons, leafKeys_length] at hl
  have : A2 = [] := List.eq_nil_of_length_eq_zero (by omega)
  subst this
  simp at h
  omega

theorem Built.parentsWf : t.ParentsWf s.presentSymbols.length := by
  intro i hi
  have hN : 2 ≤ s.presentSymbols.length := by omega
  rw [State.parentCount, List.countP_eq_length_filter, List.length_eq_one_iff]
  have hmem : ∀ k, k ∈ (List.range (s.presentSymbols.length - 1)).filter (fun k =>
      t.leftOf (s.presentSymbols.length + k) == i || t.rightOf (s.presentSymbols.length + k) == i) ↔
      k < s.presentSymbols.length - 1 ∧ ((buildPick s k).1.i = i ∨ (buildPick s k).2.i = i) := by
    intro k
    rw [List.mem_filter, List.mem_range, Bool.or_eq_true, beq_iff_eq, beq_iff_eq]
    constructor
    · rintro ⟨h1, h2⟩
      rw [b.leftOf k h1, b.rightOf k h1] at h2; exact ⟨h1, h2⟩
    · rintro ⟨h1, h2⟩
      rw [b.leftOf k h1, b.rightOf k h1]; exact ⟨h1, h2⟩
  -- some merge takes it
  have hex : ∃ k < s.presentSymbols.length - 1, (buildPick s k).1.i = i ∨ (buildPick s k).2.i = i := by
    by_contra hno
    push Not at hno
    have := (build_collection s (s.presentSymbols.length - 1) (by omega)).mem i
    have := last_index hN i (this.mpr ⟨by omega, fun h => by rw [leafKeys_indices]; simpa using h, hno⟩)
    omega
  -- and no other one
  have huni : ∀ k k', k < k' → k' < s.presentSymbols.length - 1 → ((buildPick s k).1.i = i ∨ (buildPick s k).2.i = i) →
      ¬ ((buildPick s k').1.i = i ∨ (buildPick s k').2.i = i) := by
    intro k k' hkk hk' h1 h2
    have hc := build_collection s k' (by omega)
    obtain ⟨A2, -, hp, -⟩ := pickAt_spec _ _ _ k' hc (by simp; omega)
    have hi : i ∈ (collectionAt s.presentSymbols.length s.leafKeys k').map (·.i) := by
      rw [(hp.map (·.i)).mem_iff]
      rcases h2 with rfl | rfl <;> simp [buildPick]
    have := ((hc.mem i).mp hi).2.2 k hkk
    rcases h1 with h1 | h1
    · exact this.1 h1
    · exact this.2 h1
  obtain ⟨k, hk, hki⟩ := hex
  have hnd : ((List.range (s.presentSymbols.length - 1)).filter (fun k =>
      t.leftOf (s.presentSymbols.length + k) == i || t.rightOf (s.presentSymbols.length + k) == i)).Nodup :=
    List.Nodup.filter _ List.nodup_range
  refine ⟨k, List.perm_singleton.mp ((List.perm_ext_iff_of_nodup hnd (List.nodup_singleton k)).mpr fun x => ?_)⟩
  rw [hmem, List.mem_singleton]
  constructor
  · rintro ⟨hx, hxi⟩
    rcases Nat.lt_trichotomy x k with h | h | h
    · exact absurd hki (huni x k h hk hxi)
    · exact h
    · exact absurd hxi (huni k x h hx hki)
  · rintro rfl; exact ⟨hk, hki⟩

theorem Built.traceWf : t.TraceWf s.presentSymbols.length := by
  constructor
  · intro k hk
    obtain ⟨h1, h2, h3, h4, h5, h6⟩ := buildPick_spec s k hk
    have hw1 := b.weightOf (buildPick s k).1.i (by omega)
    have hw2 := b.weightOf (buildPick s k).2.i (by omega)
    have hT := b.total
    rw [b.trace k hk, b.leftOf k hk, b.rightOf k hk, b.inner k hk]
    simp only [mergeStep, mergedNode, TraceEntry.mk.injEq, and_true, true_and]
    constructor
    · apply BitVec.eq_of_toNat_eq
      rw [ofNat32_toNat _ (by omega), h5, ← hw1]; rfl
    · apply BitVec.eq_of_toNat_eq
      rw [ofNat32_toNat _ (by omega), h6, ← hw2]; rfl
  · intro k _ hk
    exact b.traceRest k hk

/-- The root weighs the total (R143 law 3). -/
theorem Built.rootWeight : t.weight t.root.toNat = t.totalWeight.toNat := by
  have hpos := b.pos
  rw [b.root, b.weight, b.weightOf _ (by omega)]
  have hc := build_collection s (s.presentSymbols.length - 1) (by omega)
  have hl := hc.length
  simp only [leafKeys_length] at hl
  obtain ⟨x, hx⟩ := List.length_eq_one_iff.mp (show (collectionAt s.presentSymbols.length s.leafKeys
    (s.presentSymbols.length - 1)).length = 1 by omega)
  have hs := hc.sum
  have hw := hc.weight x (by rw [hx]; simp)
  rw [hx, leafKeys_sum] at hs
  simp at hs
  have hi : x.i = 2 * s.presentSymbols.length - 2 := by
    by_cases hN : 2 ≤ s.presentSymbols.length
    · exact last_index hN _ (by rw [hx]; simp)
    · have := hc.bound x (by rw [hx]; simp); omega
  rw [← hi, ← hw, hs]

/-- BUILD leaves one whole Huffman tree (R143). -/
theorem Built.treeWf : t.TreeWf := by
  have h1 := b.pos
  have h2 := b.le
  unfold State.TreeWf
  rw [b.leaves, b.steps]
  exact ⟨h1, h2, rfl, b.root, b.rootWeight, b.leavesWf, b.internalsWf, b.parentsWf, fun i _ hi => b.rest i hi, b.traceWf⟩

end built

end Sys2Proof.Machine
end

