-- ==== Sys2Proof/Laws/Codes.lean ====
section
/-! SUPPORT. The laws of the code generator: the paths of a whole tree, each leaf reached by exactly one, and the code
table that GENC makes of them (R160, R162). -/

namespace Sys2Proof.Machine

/- ### Paths -/

theorem nodeAlong_nil (s : State) (i : Nat) : s.nodeAlong i [] = some i := rfl

theorem nodeAlong_cons (s : State) (i : Nat) (b : Bool) (p : List Bool) (h : (s.nodeAt i).leaf = false) :
    s.nodeAlong i (b :: p) = s.nodeAlong (if b then s.rightOf i else s.leftOf i) p := by
  rw [State.nodeAlong, if_neg (by simp [h])]

theorem nodeAlong_cons_leaf (s : State) (i : Nat) (b : Bool) (p : List Bool) (h : (s.nodeAt i).leaf = true) :
    s.nodeAlong i (b :: p) = none := by
  rw [State.nodeAlong, if_pos h]

theorem nodeAlong_append (s : State) (i : Nat) (p q : List Bool) :
    s.nodeAlong i (p ++ q) = (s.nodeAlong i p).bind fun j => s.nodeAlong j q := by
  induction p generalizing i with
  | nil => rfl
  | cons b p ih =>
    rw [List.cons_append]
    cases h : (s.nodeAt i).leaf with
    | true => rw [nodeAlong_cons_leaf s i b _ h, nodeAlong_cons_leaf s i b _ h]; rfl
    | false => rw [nodeAlong_cons s i b _ h, nodeAlong_cons s i b _ h, ih]

section tree

variable {s : State} (h : s.TreeWf)
include h

theorem State.TreeWf.leaf (i : Nat) (hi : i < s.numLeaves.toNat) : (s.nodeAt i).leaf = true := by
  obtain ⟨-, -, -, -, -, hl, -⟩ := h
  exact (hl.1 i hi).2.1

theorem State.TreeWf.inner (i : Nat) (hi : s.numLeaves.toNat ≤ i) (hi2 : i < 2 * s.numLeaves.toNat - 1) :
    (s.nodeAt i).leaf = false ∧ s.leftOf i < i ∧ s.rightOf i < i ∧ s.leftOf i ≠ s.rightOf i ∧
    s.weight i = s.weight (s.leftOf i) + s.weight (s.rightOf i) := by
  obtain ⟨-, -, -, -, -, -, hn, -⟩ := h
  obtain ⟨k, rfl⟩ := Nat.exists_eq_add_of_le hi
  obtain ⟨-, h2, -, h4, h5, h6, h7⟩ := hn k (by omega)
  exact ⟨h2, h4, h5, h6, h7⟩

theorem State.TreeWf.leaf_iff (i : Nat) (hi : i < 2 * s.numLeaves.toNat - 1) :
    (s.nodeAt i).leaf = true ↔ i < s.numLeaves.toNat := by
  constructor
  · intro hl
    by_contra hc
    have := (h.inner i (by omega) hi).1
    rw [hl] at this; simp at this
  · exact h.leaf i

/-- The child of an inner node. -/
theorem State.TreeWf.child (i : Nat) (hi : s.numLeaves.toNat ≤ i) (hi2 : i < 2 * s.numLeaves.toNat - 1) (b : Bool) :
    (if b then s.rightOf i else s.leftOf i) < i := by
  obtain ⟨-, h2, h3, -⟩ := h.inner i hi hi2
  cases b
  · exact h2
  · exact h3

theorem State.TreeWf.step (i j : Nat) (b : Bool) (p : List Bool) (hp : s.nodeAlong i (b :: p) = some j) :
    s.numLeaves.toNat ≤ i ∧ s.nodeAlong (if b then s.rightOf i else s.leftOf i) p = some j := by
  cases hl : (s.nodeAt i).leaf with
  | true => rw [nodeAlong_cons_leaf s i b p hl] at hp; simp at hp
  | false =>
    rw [nodeAlong_cons s i b p hl] at hp
    refine ⟨?_, hp⟩
    by_contra hc
    have := h.leaf i (by omega)
    rw [hl] at this; simp at this

/-- Indices fall along a path. -/
theorem State.TreeWf.falls (i j : Nat) (p : List Bool) (hi : i < 2 * s.numLeaves.toNat - 1) (hp : s.nodeAlong i p = some j) :
    j + p.length ≤ i := by
  induction p generalizing i with
  | nil => cases hp; simp
  | cons b p ih =>
    obtain ⟨h1, h2⟩ := h.step i j b p hp
    have hc := h.child i h1 hi b
    have := ih _ (by omega) h2
    simp; omega

/-- A path passes only inner nodes on its way, so it is shorter than the number of leaves. -/
theorem State.TreeWf.short (i j : Nat) (b : Bool) (p : List Bool) (hi : i < 2 * s.numLeaves.toNat - 1)
    (hp : s.nodeAlong i (b :: p) = some j) : s.numLeaves.toNat + p.length ≤ i := by
  induction p generalizing i b with
  | nil => simpa using (h.step i j b [] hp).1
  | cons c p ih =>
    obtain ⟨h1, h2⟩ := h.step i j b _ hp
    have hc := h.child i h1 hi b
    have := ih _ c (by omega) h2
    simp; omega

/-- Every node but the root has a parent. -/
theorem State.TreeWf.parent (i : Nat) (hi : i < 2 * s.numLeaves.toNat - 2) :
    ∃ k, s.numLeaves.toNat ≤ k ∧ k < 2 * s.numLeaves.toNat - 1 ∧ (s.leftOf k = i ∨ s.rightOf k = i) := by
  obtain ⟨-, -, -, -, -, -, -, hp, -⟩ := h
  have := hp i hi
  have hpos : 0 < s.parentCount s.numLeaves.toNat i := by omega
  obtain ⟨k, hk, hki⟩ := List.countP_pos_iff.mp hpos
  rw [List.mem_range] at hk
  simp only [Bool.or_eq_true, beq_iff_eq] at hki
  exact ⟨s.numLeaves.toNat + k, by omega, by omega, hki⟩

/-- And only one. -/
theorem State.TreeWf.parent_unique (i k k' : Nat) (hi : i < 2 * s.numLeaves.toNat - 2) (h1 : s.numLeaves.toNat ≤ k)
    (h2 : k < 2 * s.numLeaves.toNat - 1) (h3 : s.leftOf k = i ∨ s.rightOf k = i) (h1' : s.numLeaves.toNat ≤ k')
    (h2' : k' < 2 * s.numLeaves.toNat - 1) (h3' : s.leftOf k' = i ∨ s.rightOf k' = i) : k = k' := by
  obtain ⟨-, -, -, -, -, -, -, hp, -⟩ := h
  have hone := hp i hi
  rw [State.parentCount, List.countP_eq_length_filter, List.length_eq_one_iff] at hone
  obtain ⟨x, hx⟩ := hone
  have key : ∀ q, s.numLeaves.toNat ≤ q → q < 2 * s.numLeaves.toNat - 1 → (s.leftOf q = i ∨ s.rightOf q = i) →
      q - s.numLeaves.toNat = x := by
    intro q hq1 hq2 hq3
    have : q - s.numLeaves.toNat ∈ [x] := by
      rw [← hx, List.mem_filter, List.mem_range]
      rw [show s.numLeaves.toNat + (q - s.numLeaves.toNat) = q by omega]
      refine ⟨by omega, by simpa using hq3⟩
    simpa using this
  have a := key k h1 h2 h3
  have b := key k' h1' h2' h3'
  omega

/-- Every node is reached from the root. -/
theorem State.TreeWf.reached (i : Nat) (hi : i < 2 * s.numLeaves.toNat - 1) :
    ∃ p, s.nodeAlong (2 * s.numLeaves.toNat - 2) p = some i := by
  induction hm : 2 * s.numLeaves.toNat - 2 - i using Nat.strongRecOn generalizing i with
  | _ m ih =>
    by_cases hr : i = 2 * s.numLeaves.toNat - 2
    · exact ⟨[], by rw [hr]; rfl⟩
    · obtain ⟨k, h1, h2, h3⟩ := h.parent i (by omega)
      obtain ⟨hlf, hl, hrt, -, -⟩ := h.inner k h1 h2
      obtain ⟨p, hp⟩ := ih _ (by omega) k h2 rfl
      rcases h3 with h3 | h3
      · refine ⟨p ++ [false], ?_⟩
        rw [nodeAlong_append, hp, Option.bind_some, nodeAlong_cons s k false [] hlf]
        exact congrArg some h3
      · refine ⟨p ++ [true], ?_⟩
        rw [nodeAlong_append, hp, Option.bind_some, nodeAlong_cons s k true [] hlf]
        exact congrArg some h3

/-- The last bit of a path. -/
theorem State.TreeWf.lastStep (r i : Nat) (b : Bool) (p : List Bool) (hr : r < 2 * s.numLeaves.toNat - 1)
    (hp : s.nodeAlong r (p ++ [b]) = some i) :
    ∃ k, s.nodeAlong r p = some k ∧ s.numLeaves.toNat ≤ k ∧ k < 2 * s.numLeaves.toNat - 1 ∧
      (if b then s.rightOf k else s.leftOf k) = i := by
  rw [nodeAlong_append] at hp
  obtain ⟨k, h1, h2⟩ := Option.bind_eq_some_iff.mp hp
  have hk := h.falls r k p hr h1
  obtain ⟨h3, h4⟩ := h.step k i b [] h2
  exact ⟨k, h1, h3, by omega, by simpa [nodeAlong_nil] using h4⟩

/-- Only one path leads from the root to a node. -/
theorem State.TreeWf.path_unique (i : Nat) (p q : List Bool) (hp : s.nodeAlong (2 * s.numLeaves.toNat - 2) p = some i)
    (hq : s.nodeAlong (2 * s.numLeaves.toNat - 2) q = some i) : p = q := by
  have hpos : 1 ≤ s.numLeaves.toNat := h.1
  induction hm : p.length using Nat.strongRecOn generalizing i p q with
  | _ m ih =>
    have hfp := h.falls _ i p (by omega) hp
    have hfq := h.falls _ i q (by omega) hq
    rcases List.eq_nil_or_concat p with rfl | ⟨p', b, rfl⟩
    · cases hp
      simp at hfq; exact hfq.symm
    · rcases List.eq_nil_or_concat q with rfl | ⟨q', c, rfl⟩
      · cases hq
        simp at hfp
      · rw [List.concat_eq_append] at hp hq
        simp only [List.concat_eq_append, List.length_append, List.length_singleton] at hfp hfq hm
        obtain ⟨k, k1, k2, k3, k4⟩ := h.lastStep _ i b p' (by omega) hp
        obtain ⟨k', k1', k2', k3', k4'⟩ := h.lastStep _ i c q' (by omega) hq
        have hkk : k = k' := by
          refine h.parent_unique i k k' (by omega) k2 k3 ?_ k2' k3' ?_
          · cases b
            · exact .inl k4
            · exact .inr k4
          · cases c
            · exact .inl k4'
            · exact .inr k4'
        subst hkk
        have hne := (h.inner k k2 k3).2.2.2.1
        have hbc : b = c := by
          cases b <;> cases c <;> simp_all
        subst hbc
        rw [ih p'.length (by omega) k p' q' k1 k1' rfl]

end tree

/- ### The value of a bit string (R14) -/

/-- The number a bit string stands for, its first bit most significant. -/
def bitsVal (p : List Bool) : Nat := p.foldl (fun a b => 2 * a + b.toNat) 0

theorem foldl_bitsVal (p : List Bool) (a : Nat) :
    p.foldl (fun a b => 2 * a + b.toNat) a = a * 2 ^ p.length + bitsVal p := by
  induction p generalizing a with
  | nil => simp [bitsVal]
  | cons b p ih =>
    have e : bitsVal (b :: p) = b.toNat * 2 ^ p.length + bitsVal p := by
      rw [bitsVal, List.foldl_cons, ih]; simp
    rw [List.foldl_cons, ih, e, List.length_cons, Nat.pow_succ]
    ring

theorem bitsVal_cons (b : Bool) (p : List Bool) : bitsVal (b :: p) = b.toNat * 2 ^ p.length + bitsVal p := by
  rw [bitsVal, List.foldl_cons, foldl_bitsVal]; simp

theorem bitsVal_lt (p : List Bool) : bitsVal p < 2 ^ p.length := by
  induction p with
  | nil => simp [bitsVal]
  | cons b p ih =>
    rw [bitsVal_cons, List.length_cons, Nat.pow_succ]
    cases b <;> simp <;> omega

theorem bitsVal_testBit (p : List Bool) (j : Nat) (hj : j < p.length) :
    (bitsVal p).testBit (p.length - 1 - j) = p[j] := by
  induction p generalizing j with
  | nil => simp at hj
  | cons b p ih =>
    rw [bitsVal_cons, Nat.mul_comm, Nat.testBit_two_pow_mul_add _ (bitsVal_lt p)]
    cases j with
    | zero => cases b <;> simp
    | succ j =>
      simp only [List.length_cons] at hj ⊢
      rw [if_pos (by omega), show p.length + 1 - 1 - (j + 1) = p.length - 1 - j by omega, ih j (by omega)]
      rfl

/-- The code entry of a path holds that path. -/
theorem bits_of_path (p : List Bool) (hp : p.length ≤ 255) :
    CodeEntry.bits { len := BitVec.ofNat 8 p.length, val := BitVec.ofNat 256 (bitsVal p) } = p := by
  have hl : (BitVec.ofNat 8 p.length).toNat = p.length := by simp; omega
  apply List.ext_getElem
  · simp only [CodeEntry.bits, List.length_map, List.length_range, hl]
  · intro j h1 h2
    simp only [CodeEntry.bits, List.getElem_map, List.getElem_range, hl]
    rw [BitVec.getLsbD_ofNat, bitsVal_testBit p j h2]
    simp; omega

/- ### The walk of the tree (R160) -/

/-- The leaves below node i with their paths, left to right. The first argument bounds the depth. -/
def State.leafPaths (s : State) : Nat → Nat → List (Nat × List Bool)
  | 0, _ => []
  | f + 1, i =>
    if (s.nodeAt i).leaf then [(i, [])]
    else (s.leafPaths f (s.leftOf i)).map (fun e => (e.1, false :: e.2)) ++
      (s.leafPaths f (s.rightOf i)).map (fun e => (e.1, true :: e.2))

/-- The code entry that the walk writes for a leaf and its path. -/
def State.leafCode (s : State) (d v : Nat) (e : Nat × List Bool) : Nat × CodeEntry :=
  ((s.nodeAt e.1).sym.toNat,
    { len := BitVec.ofNat 8 (d + e.2.length), val := BitVec.ofNat 256 (v * 2 ^ e.2.length + bitsVal e.2) })

theorem leafCode_cons (s : State) (d v : Nat) (i : Nat) (b : Bool) (p : List Bool) :
    s.leafCode (d + 1) (2 * v + b.toNat) (i, p) = s.leafCode d v (i, b :: p) := by
  simp only [State.leafCode, List.length_cons, bitsVal_cons, Nat.pow_succ]
  rw [show d + 1 + p.length = d + (p.length + 1) by omega,
    show (2 * v + b.toNat) * 2 ^ p.length + bitsVal p = v * (2 ^ p.length * 2) + (b.toNat * 2 ^ p.length + bitsVal p) by
      ring]

section tree

variable {s : State} (h : s.TreeWf)
include h

/-- The walk of a whole tree ends and gives each leaf its path (R160). -/
theorem State.TreeWf.walkTree (f i d v : Nat) (hi : i < 2 * s.numLeaves.toNat - 1) (hf : i < f) :
    s.walkTree f i d v = .ok ((s.leafPaths f i).map (s.leafCode d v)) := by
  induction f generalizing i d v with
  | zero => omega
  | succ f ih =>
    unfold State.walkTree State.leafPaths
    cases hl : (s.nodeAt i).leaf with
    | true => simp [State.leafCode, bitsVal, hl]
    | false =>
      have hn : s.numLeaves.toNat ≤ i := by
        by_contra hc
        have := h.leaf i (by omega)
        rw [hl] at this; simp at this
      obtain ⟨-, h1, h2, -, -⟩ := h.inner i hn hi
      have e1 := ih (s.leftOf i) (d + 1) (2 * v) (by omega) (by omega)
      have e2 := ih (s.rightOf i) (d + 1) (2 * v + 1) (by omega) (by omega)
      simp only [State.leftOf, State.rightOf] at e1 e2
      dsimp only
      rw [if_neg (by simp [hl]), if_neg (by simp), e1, CmdM.bind_ok, e2, CmdM.bind_ok]
      congr 1
      rw [List.map_append, List.map_map, List.map_map]
      congr 1
      · exact List.map_congr_left fun e _ => leafCode_cons s d v e.1 false e.2
      · exact List.map_congr_left fun e _ => leafCode_cons s d v e.1 true e.2

/-- The leaves with their paths are exactly those that the paths lead to. -/
theorem State.TreeWf.mem_leafPaths (f i j : Nat) (p : List Bool) (hi : i < 2 * s.numLeaves.toNat - 1) (hf : i < f) :
    (j, p) ∈ s.leafPaths f i ↔ s.nodeAlong i p = some j ∧ j < s.numLeaves.toNat := by
  induction f generalizing i p with
  | zero => omega
  | succ f ih =>
    unfold State.leafPaths
    cases hl : (s.nodeAt i).leaf with
    | true =>
      have hin := (h.leaf_iff i hi).mp hl
      simp only [if_true, List.mem_singleton, Prod.mk.injEq]
      constructor
      · rintro ⟨rfl, rfl⟩; exact ⟨rfl, hin⟩
      · rintro ⟨hp, hj⟩
        cases p with
        | nil => cases hp; exact ⟨rfl, rfl⟩
        | cons b p => rw [nodeAlong_cons_leaf s i b p hl] at hp; simp at hp
    | false =>
      have hn : s.numLeaves.toNat ≤ i := by
        by_contra hc
        have := h.leaf i (by omega)
        rw [hl] at this; simp at this
      obtain ⟨-, h1, h2, -, -⟩ := h.inner i hn hi
      rw [if_neg (by simp), List.mem_append]
      cases p with
      | nil =>
        simp only [List.mem_map, Prod.mk.injEq, reduceCtorEq, and_false, exists_false, or_self, false_iff]
        rintro ⟨hp, hj⟩
        cases hp; omega
      | cons b p =>
        rw [nodeAlong_cons s i b p hl]
        cases b
        · refine Iff.trans ?_ (ih (s.leftOf i) p (by omega) (by omega))
          simp
        · refine Iff.trans ?_ (ih (s.rightOf i) p (by omega) (by omega))
          simp

omit h in
theorem leafPaths_nodup (f i : Nat) : (s.leafPaths f i).Nodup := by
  induction f generalizing i with
  | zero => simp [State.leafPaths]
  | succ f ih =>
    unfold State.leafPaths
    split
    · simp
    · rw [List.nodup_append]
      refine ⟨(ih _).map fun x y e => ?_, (ih _).map fun x y e => ?_, ?_⟩
      · simp at e; exact Prod.ext e.1 e.2
      · simp at e; exact Prod.ext e.1 e.2
      · intro a ha b hb
        obtain ⟨x, -, rfl⟩ := List.mem_map.mp ha
        obtain ⟨y, -, rfl⟩ := List.mem_map.mp hb
        simp

/-- The leaves of the whole tree, each with its path. -/
theorem State.TreeWf.root_bound : 2 * s.numLeaves.toNat - 2 < 511 ∧ 2 * s.numLeaves.toNat - 2 < 2 * s.numLeaves.toNat - 1 := by
  have h1 := h.1
  have h2 := h.2.1
  omega

theorem State.TreeWf.leaf_nodup : ((s.leafPaths 511 (2 * s.numLeaves.toNat - 2)).map (·.1)).Nodup := by
  have hb := h.root_bound
  refine (leafPaths_nodup 511 _).map_on fun x hx y hy e => ?_
  obtain ⟨i, p⟩ := x
  obtain ⟨j, q⟩ := y
  have hx' := (h.mem_leafPaths 511 _ i p hb.2 hb.1).mp hx
  have hy' := (h.mem_leafPaths 511 _ j q hb.2 hb.1).mp hy
  simp only at e
  subst e
  rw [h.path_unique i p q hx'.1 hy'.1]

/-- Different leaves have different symbols. -/
theorem State.TreeWf.sym_inj (i j : Nat) (hi : i < s.numLeaves.toNat) (hj : j < s.numLeaves.toNat)
    (e : (s.nodeAt i).sym.toNat = (s.nodeAt j).sym.toNat) : i = j := by
  obtain ⟨-, -, -, -, -, hl, -⟩ := h
  rcases Nat.lt_trichotomy i j with hlt | heq | hgt
  · have := hl.2 j hj i hlt; omega
  · exact heq
  · have := hl.2 i hi j hgt; omega

/-- The codes that GENC writes have one entry for each symbol of the tree. -/
theorem State.TreeWf.codes_nodup :
    (((s.leafPaths 511 (2 * s.numLeaves.toNat - 2)).map (s.leafCode 0 0)).map (·.1)).Nodup := by
  have hb := h.root_bound
  have e : ((s.leafPaths 511 (2 * s.numLeaves.toNat - 2)).map (s.leafCode 0 0)).map (·.1) =
      ((s.leafPaths 511 (2 * s.numLeaves.toNat - 2)).map (·.1)).map fun i => (s.nodeAt i).sym.toNat := by
    simp [State.leafCode, Function.comp_def]
  rw [e]
  refine h.leaf_nodup.map_on fun i hi j hj e => ?_
  obtain ⟨⟨i', p⟩, hx, rfl⟩ := List.mem_map.mp hi
  obtain ⟨⟨j', q⟩, hy, rfl⟩ := List.mem_map.mp hj
  exact h.sym_inj _ _ ((h.mem_leafPaths 511 _ i' p hb.2 hb.1).mp hx).2 ((h.mem_leafPaths 511 _ j' q hb.2 hb.1).mp hy).2 e

/-- A path to a leaf is no longer than a code can be (R160). -/
theorem State.TreeWf.path_length (i : Nat) (p : List Bool) (hp : s.nodeAlong (2 * s.numLeaves.toNat - 2) p = some i) :
    p.length + 1 ≤ s.numLeaves.toNat ∧ p.length ≤ 255 := by
  have hb := h.root_bound
  have h1 := h.1
  have h2 := h.2.1
  cases p with
  | nil => simp; omega
  | cons b p => have := h.short _ i b p hb.2 hp; simp; omega

end tree

/- ### A table made of codes -/

theorem ramWrite_read {α : Type} [DecidableEq α] (d : α) (m : Ram α) (i : Nat) (v : α) (j : Nat) :
    ramRead d (ramWrite d m i v) j = if j = i then v else ramRead d m j := by
  rw [ramWrite, ramRead_splice]
  by_cases h : j = i
  · subst h; simp
  · rw [if_neg (by simp; omega), if_neg h]

theorem foldl_write_read (codes : List (Nat × CodeEntry)) (m : Ram CodeEntry) (hnd : (codes.map (·.1)).Nodup) (k : Nat) :
    (∀ c, (k, c) ∈ codes → ramRead CodeEntry.zero (codes.foldl (fun m c => ramWrite CodeEntry.zero m c.1 c.2) m) k = c) ∧
    (k ∉ codes.map (·.1) →
      ramRead CodeEntry.zero (codes.foldl (fun m c => ramWrite CodeEntry.zero m c.1 c.2) m) k =
        ramRead CodeEntry.zero m k) := by
  induction codes generalizing m with
  | nil => simp
  | cons e codes ih =>
    obtain ⟨k', c'⟩ := e
    simp only [List.map_cons, List.nodup_cons] at hnd
    obtain ⟨i1, i2⟩ := ih (ramWrite CodeEntry.zero m k' c') hnd.2
    constructor
    · intro c hc
      rcases List.mem_cons.mp hc with hc | hc
      · cases hc
        rw [List.foldl_cons, i2 hnd.1, ramWrite_read, if_pos rfl]
      · exact i1 c hc
    · intro hk
      simp only [List.map_cons, List.mem_cons, not_or] at hk
      rw [List.foldl_cons, i2 hk.2, ramWrite_read, if_neg hk.1]

theorem codeRamOf_read (codes : List (Nat × CodeEntry)) (hnd : (codes.map (·.1)).Nodup) (k : Nat) (c : CodeEntry)
    (h : (k, c) ∈ codes) : ramRead CodeEntry.zero (codeRamOf codes) k = c := (foldl_write_read codes [] hnd k).1 c h

theorem codeRamOf_absent (codes : List (Nat × CodeEntry)) (hnd : (codes.map (·.1)).Nodup) (k : Nat)
    (h : k ∉ codes.map (·.1)) : ramRead CodeEntry.zero (codeRamOf codes) k = CodeEntry.zero :=
  (foldl_write_read codes [] hnd k).2 h

theorem codeRamOf_wf (codes : List (Nat × CodeEntry)) (h : ∀ c ∈ codes, c.1 < 256) :
    ramWf 256 CodeEntry.zero (codeRamOf codes) = true := by
  have key : ∀ m, ramWf 256 CodeEntry.zero m = true →
      ramWf 256 CodeEntry.zero (codes.foldl (fun m c => ramWrite CodeEntry.zero m c.1 c.2) m) = true := by
    induction codes with
    | nil => exact fun m hm => hm
    | cons e codes ih =>
      intro m hm
      exact ih (fun c hc => h c (by simp [hc])) _ (ramWrite_wf _ _ _ _ _ hm (h e (by simp)))
  exact key [] rfl

/-- The largest length of a table. -/
theorem longestCode_spec (m : Ram CodeEntry) :
    (∀ e ∈ m, e.2.len.toNat ≤ longestCode m) ∧ (m ≠ [] → ∃ e ∈ m, e.2.len.toNat = longestCode m) := by
  have key : ∀ (m : Ram CodeEntry) (a : Nat), a ≤ m.foldl (fun l c => max l c.2.len.toNat) a ∧
      (∀ e ∈ m, e.2.len.toNat ≤ m.foldl (fun l c => max l c.2.len.toNat) a) ∧
      (m.foldl (fun l c => max l c.2.len.toNat) a = a ∨ ∃ e ∈ m, e.2.len.toNat = m.foldl (fun l c => max l c.2.len.toNat) a) := by
    intro m
    induction m with
    | nil => simp
    | cons e m ih =>
      intro a
      obtain ⟨h1, h2, h3⟩ := ih (max a e.2.len.toNat)
      rw [List.foldl_cons]
      refine ⟨by omega, ?_, ?_⟩
      · intro x hx
        rcases List.mem_cons.mp hx with rfl | hx
        · omega
        · exact h2 x hx
      · rcases h3 with h3 | ⟨x, hx, h3⟩
        · rcases Nat.le_total a e.2.len.toNat with hle | hle
          · exact .inr ⟨e, by simp, by omega⟩
          · exact .inl (by omega)
        · exact .inr ⟨x, by simp [hx], h3⟩
  obtain ⟨-, h2, h3⟩ := key m 0
  refine ⟨h2, fun hne => ?_⟩
  rcases h3 with h3 | h3
  · obtain ⟨e, m', rfl⟩ := List.exists_cons_of_ne_nil hne
    refine ⟨e, by simp, ?_⟩
    have := h2 e (by simp)
    have h0 : longestCode (e :: m') = 0 := h3
    rw [h0]
    have : e.2.len.toNat ≤ longestCode (e :: m') := this
    omega
  · exact h3

theorem ramRead_of_mem {α : Type} [DecidableEq α] (size : Nat) (d : α) (m : Ram α) (h : ramWf size d m = true) (k : Nat)
    (v : α) (hm : (k, v) ∈ m) : ramRead d m k = v := by
  have hs := ((ramWf_iff size d m).mp h).1
  clear h
  induction m with
  | nil => simp at hm
  | cons e m ih =>
    rw [List.pairwise_cons] at hs
    obtain ⟨j, w⟩ := e
    rcases List.mem_cons.mp hm with hm' | hm'
    · cases hm'; simp [ramRead]
    · have := hs.1 _ hm'
      rw [ramRead_cons, if_neg (by simp at this; omega)]
      exact ih hm' hs.2

theorem ramRead_mem {α : Type} (d : α) (m : Ram α) (k : Nat) : ramRead d m k = d ∨ (k, ramRead d m k) ∈ m := by
  induction m with
  | nil => exact .inl rfl
  | cons e m ih =>
    obtain ⟨j, w⟩ := e
    rw [ramRead_cons]
    by_cases h : j = k
    · subst h; simp
    · rw [if_neg h]
      rcases ih with ih | ih
      · exact .inl ih
      · exact .inr (by simp [ih])

/- ### GENC (R160) -/

/-- The codes of a whole tree of two or more leaves. -/
def State.treePathCodes (s : State) : List (Nat × CodeEntry) :=
  (s.leafPaths 511 (2 * s.numLeaves.toNat - 2)).map (s.leafCode 0 0)

section tree

variable {s : State} (h : s.TreeWf)
include h

theorem State.TreeWf.treeCodes (hn : 2 ≤ s.numLeaves.toNat) : s.treeCodes = .ok s.treePathCodes := by
  have hb := h.root_bound
  have hr : s.root.toNat = 2 * s.numLeaves.toNat - 2 := h.2.2.2.1
  rw [State.treeCodes, if_neg (by intro e; rw [e] at hn; simp at hn), hr]
  exact h.walkTree 511 _ 0 0 hb.2 hb.1

/-- GENC on a whole tree of two or more leaves (R160). -/
theorem State.TreeWf.genc (hv : s.treeValid = true) (hn : 2 ≤ s.numLeaves.toNat) :
    Machine.genc s = .ok { s with
      code := codeRamOf s.treePathCodes, maxLen := BitVec.ofNat 8 (longestCode (codeRamOf s.treePathCodes)) } := by
  rw [Machine.genc, if_neg (by simp [hv]), h.treeCodes hn]; rfl

theorem State.TreeWf.mem_treePathCodes (k : Nat) (c : CodeEntry) :
    (k, c) ∈ s.treePathCodes ↔ ∃ i < s.numLeaves.toNat, ∃ p,
      s.nodeAlong (2 * s.numLeaves.toNat - 2) p = some i ∧ k = (s.nodeAt i).sym.toNat ∧
      c = { len := BitVec.ofNat 8 p.length, val := BitVec.ofNat 256 (bitsVal p) } := by
  have hb := h.root_bound
  rw [State.treePathCodes, List.mem_map]
  constructor
  · rintro ⟨⟨i, p⟩, hm, e⟩
    obtain ⟨hp, hi⟩ := (h.mem_leafPaths 511 _ i p hb.2 hb.1).mp hm
    simp only [State.leafCode, Prod.mk.injEq] at e
    exact ⟨i, hi, p, hp, e.1.symm, by rw [← e.2]; simp⟩
  · rintro ⟨i, hi, p, hp, rfl, rfl⟩
    exact ⟨(i, p), (h.mem_leafPaths 511 _ i p hb.2 hb.1).mpr ⟨hp, hi⟩, by simp [State.leafCode]⟩

/-- The entry of a leaf's symbol. -/
theorem State.TreeWf.code_of_leaf (i : Nat) (hi : i < s.numLeaves.toNat) (p : List Bool)
    (hp : s.nodeAlong (2 * s.numLeaves.toNat - 2) p = some i) :
    ramRead CodeEntry.zero (codeRamOf s.treePathCodes) (s.nodeAt i).sym.toNat =
      { len := BitVec.ofNat 8 p.length, val := BitVec.ofNat 256 (bitsVal p) } :=
  codeRamOf_read _ h.codes_nodup _ _ ((h.mem_treePathCodes _ _).mpr ⟨i, hi, p, hp, rfl, rfl⟩)

theorem State.TreeWf.code_absent (k : Nat) (hk : ∀ i < s.numLeaves.toNat, (s.nodeAt i).sym.toNat ≠ k) :
    ramRead CodeEntry.zero (codeRamOf s.treePathCodes) k = CodeEntry.zero := by
  refine codeRamOf_absent _ h.codes_nodup k fun hm => ?_
  obtain ⟨⟨k', c⟩, hc, rfl⟩ := List.mem_map.mp hm
  obtain ⟨i, hi, p, -, e, -⟩ := (h.mem_treePathCodes _ _).mp hc
  exact hk i hi e.symm

theorem State.TreeWf.codes_wf : ramWf 256 CodeEntry.zero (codeRamOf s.treePathCodes) = true := by
  refine codeRamOf_wf _ fun c hc => ?_
  obtain ⟨i, hi, p, -, e, -⟩ := (h.mem_treePathCodes c.1 c.2).mp hc
  rw [e]; exact (s.nodeAt i).sym.isLt

/-- Every entry of the table is a path's, or the all-zero one. -/
theorem State.TreeWf.code_cases (k : Nat) :
    ramRead CodeEntry.zero (codeRamOf s.treePathCodes) k = CodeEntry.zero ∨
    ∃ i < s.numLeaves.toNat, ∃ p, s.nodeAlong (2 * s.numLeaves.toNat - 2) p = some i ∧ k = (s.nodeAt i).sym.toNat ∧
      ramRead CodeEntry.zero (codeRamOf s.treePathCodes) k =
        { len := BitVec.ofNat 8 p.length, val := BitVec.ofNat 256 (bitsVal p) } := by
  by_cases hk : ∃ i < s.numLeaves.toNat, (s.nodeAt i).sym.toNat = k
  · obtain ⟨i, hi, rfl⟩ := hk
    obtain ⟨p, hp⟩ := h.reached i (by have := h.1; omega)
    exact .inr ⟨i, hi, p, hp, rfl, h.code_of_leaf i hi p hp⟩
  · push Not at hk
    exact .inl (h.code_absent k hk)

/-- The largest length of the table (R36). -/
theorem State.TreeWf.longest :
    (∀ k, (ramRead CodeEntry.zero (codeRamOf s.treePathCodes) k).len.toNat ≤ longestCode (codeRamOf s.treePathCodes)) ∧
    longestCode (codeRamOf s.treePathCodes) ≤ 255 ∧
    (∃ k < 256, (ramRead CodeEntry.zero (codeRamOf s.treePathCodes) k).len.toNat
      = longestCode (codeRamOf s.treePathCodes)) := by
  have hwf := h.codes_wf
  obtain ⟨h1, h2⟩ := longestCode_spec (codeRamOf s.treePathCodes)
  refine ⟨?_, ?_, ?_⟩
  · intro k
    rcases ramRead_mem CodeEntry.zero (codeRamOf s.treePathCodes) k with e | e
    · rw [e]; simp
    · exact h1 _ e
  · by_cases hne : codeRamOf s.treePathCodes = []
    · rw [hne]; simp [longestCode]
    · obtain ⟨e, -, he⟩ := h2 hne
      rw [← he]
      have := e.2.len.isLt
      omega
  · by_cases hne : codeRamOf s.treePathCodes = []
    · exact ⟨0, by omega, by rw [hne]; simp [longestCode, ramRead]⟩
    · obtain ⟨e, hm, he⟩ := h2 hne
      have hlt := (((ramWf_iff _ _ _).mp hwf).2 e hm).1
      exact ⟨e.1, hlt, by rw [ramRead_of_mem 256 _ _ hwf e.1 e.2 hm, he]⟩

end tree

/- ### The prefix property and completeness (R162) -/

theorem sum_map_mul_left (l : List Nat) (a : Nat) (f : Nat → Nat) : (l.map fun k => a * f k).sum = a * (l.map f).sum := by
  induction l with
  | nil => simp
  | cons x l ih => simp only [List.map_cons, List.sum_cons, ih, Nat.mul_add]

theorem sum_map_zero {α : Type} (l : List α) (f : α → Nat) (h : ∀ k ∈ l, f k = 0) : (l.map f).sum = 0 := by
  induction l with
  | nil => rfl
  | cons a l ih => simp [h a (by simp), ih fun k hk => h k (by simp [hk])]

/-- A sum over all indices below n of something that vanishes off a list of distinct indices is the sum over the list. -/
theorem sum_range_eq_sum_list (n : Nat) (l : List Nat) (f : Nat → Nat) (hnd : l.Nodup) (hlt : ∀ k ∈ l, k < n)
    (h0 : ∀ k < n, k ∉ l → f k = 0) : ((List.range n).map f).sum = (l.map f).sum := by
  have hp : (List.range n).Perm (l ++ (List.range n).filter fun k => decide (k ∉ l)) := by
    refine (List.perm_ext_iff_of_nodup List.nodup_range ?_).mpr fun a => ?_
    · rw [List.nodup_append]
      refine ⟨hnd, List.Nodup.filter _ List.nodup_range, ?_⟩
      rintro a ha b hb rfl
      simp only [List.mem_filter, decide_eq_true_eq] at hb
      exact hb.2 ha
    · simp only [List.mem_range, List.mem_append, List.mem_filter, decide_eq_true_eq]
      constructor
      · intro ha
        by_cases hm : a ∈ l
        · exact .inl hm
        · exact .inr ⟨ha, hm⟩
      · rintro (ha | ⟨ha, -⟩)
        · exact hlt a ha
        · exact ha
  rw [(hp.map f).sum_eq, List.map_append, List.sum_append,
    sum_map_zero ((List.range n).filter fun k => decide (k ∉ l)) f, Nat.add_zero]
  intro k hk
  simp only [List.mem_filter, List.mem_range, decide_eq_true_eq] at hk
  exact h0 k hk.1 hk.2

section tree

variable {s : State} (h : s.TreeWf)
include h

theorem State.TreeWf.leafPaths_ne_nil (f i : Nat) (hi : i < 2 * s.numLeaves.toNat - 1) (hf : i < f) :
    s.leafPaths f i ≠ [] := by
  induction f generalizing i with
  | zero => omega
  | succ f ih =>
    unfold State.leafPaths
    split
    · simp
    · rename_i hl
      have hn : s.numLeaves.toNat ≤ i := by
        by_contra hc
        exact hl (h.leaf i (by omega))
      obtain ⟨-, h1, -, -, -⟩ := h.inner i hn hi
      have := ih (s.leftOf i) (by omega) (by omega)
      simp [this]

/-- The Kraft sum of the paths below a node, scaled by 2^D, is 2^D. -/
theorem State.TreeWf.kraft (f i D : Nat) (hi : i < 2 * s.numLeaves.toNat - 1) (hf : i < f)
    (hD : ∀ e ∈ s.leafPaths f i, e.2.length ≤ D) :
    ((s.leafPaths f i).map fun e => 2 ^ (D - e.2.length)).sum = 2 ^ D := by
  induction f generalizing i D with
  | zero => omega
  | succ f ih =>
    unfold State.leafPaths at hD ⊢
    cases hl : (s.nodeAt i).leaf with
    | true => simp
    | false =>
      have hn : s.numLeaves.toNat ≤ i := by
        by_contra hc
        have := h.leaf i (by omega)
        rw [hl] at this; simp at this
      obtain ⟨-, h1, h2, -, -⟩ := h.inner i hn hi
      rw [if_neg (by simp [hl])] at hD
      rw [if_neg (by simp)]
      obtain ⟨e, he⟩ := List.exists_mem_of_ne_nil _ (h.leafPaths_ne_nil f (s.leftOf i) (by omega) (by omega))
      have hD1 := hD (e.1, false :: e.2) (List.mem_append.mpr (.inl (List.mem_map.mpr ⟨e, he, rfl⟩)))
      simp only [List.length_cons] at hD1
      have hl' := ih (s.leftOf i) (D - 1) (by omega) (by omega) fun x hx => by
        have := hD (x.1, false :: x.2) (List.mem_append.mpr (.inl (List.mem_map.mpr ⟨x, hx, rfl⟩)))
        simp only [List.length_cons] at this; omega
      have hr' := ih (s.rightOf i) (D - 1) (by omega) (by omega) fun x hx => by
        have := hD (x.1, true :: x.2) (List.mem_append.mpr (.inr (List.mem_map.mpr ⟨x, hx, rfl⟩)))
        simp only [List.length_cons] at this; omega
      rw [List.map_append, List.sum_append, List.map_map, List.map_map]
      have e1 : ∀ (l : List (Nat × List Bool)) (b : Bool),
          l.map ((fun e : Nat × List Bool => 2 ^ (D - e.2.length)) ∘ fun e => (e.1, b :: e.2)) =
            l.map fun e => 2 ^ (D - 1 - e.2.length) := fun l b => List.map_congr_left fun x _ => by
        simp only [Function.comp, List.length_cons]; congr 1; omega
      rw [e1, e1, hl', hr', ← Nat.two_mul, ← Nat.pow_succ', show (D - 1).succ = D by omega]

/-- The table of a whole tree (R162 laws 1 and 2), on any state that holds it. -/
theorem State.TreeWf.table (hn : 2 ≤ s.numLeaves.toNat) (u : State)
    (hu : ∀ k, u.codeAt k = ramRead CodeEntry.zero (codeRamOf s.treePathCodes) k) :
    (∀ k, u.coded k ↔ ∃ i < s.numLeaves.toNat, (s.nodeAt i).sym.toNat = k) ∧
    (∀ i < s.numLeaves.toNat, ∀ p, s.nodeAlong (2 * s.numLeaves.toNat - 2) p = some i →
      u.codeBits (s.nodeAt i).sym.toNat = p) ∧ u.PrefixFree := by
  have hbits : ∀ i < s.numLeaves.toNat, ∀ p, s.nodeAlong (2 * s.numLeaves.toNat - 2) p = some i →
      u.codeBits (s.nodeAt i).sym.toNat = p := fun i hi p hp => by
    rw [State.codeBits, hu, h.code_of_leaf i hi p hp]
    exact bits_of_path p (h.path_length i p hp).2
  have hcoded : ∀ k, u.coded k ↔ ∃ i < s.numLeaves.toNat, (s.nodeAt i).sym.toNat = k := fun k => by
    rw [State.coded, hu]
    constructor
    · intro hc
      by_contra hno
      push Not at hno
      rw [h.code_absent k hno] at hc
      exact hc rfl
    · rintro ⟨i, hi, rfl⟩ e
      obtain ⟨p, hp⟩ := h.reached i (by omega)
      rw [h.code_of_leaf i hi p hp] at e
      have hl := (h.path_length i p hp).2
      have e := congrArg BitVec.toNat e
      have hp0 : p = [] := by
        apply List.eq_nil_of_length_eq_zero
        simp at e; omega
      subst hp0
      cases hp
      omega
  refine ⟨hcoded, hbits, ?_⟩
  intro a _ b _ hab ca cb hpre
  obtain ⟨i, hi, rfl⟩ := (hcoded a).mp ca
  obtain ⟨j, hj, rfl⟩ := (hcoded b).mp cb
  obtain ⟨p, hp⟩ := h.reached i (by omega)
  obtain ⟨q, hq⟩ := h.reached j (by omega)
  rw [hbits i hi p hp, hbits j hj q hq] at hpre
  obtain ⟨r, rfl⟩ := hpre
  rw [nodeAlong_append, hp, Option.bind_some] at hq
  cases r with
  | nil => cases hq; exact hab rfl
  | cons c r => rw [nodeAlong_cons_leaf s i c r (h.leaf i hi)] at hq; simp at hq

/-- A sum over the table of a whole tree is the sum over its leaves' paths. -/
theorem State.TreeWf.sum_table (F : Nat → CodeEntry → Nat) (h0 : ∀ k < 256,
      ramRead CodeEntry.zero (codeRamOf s.treePathCodes) k = CodeEntry.zero → F k CodeEntry.zero = 0) :
    ((List.range 256).map fun k => F k (ramRead CodeEntry.zero (codeRamOf s.treePathCodes) k)).sum =
      (s.treePathCodes.map fun e => F e.1 e.2).sum := by
  rw [sum_range_eq_sum_list 256 (s.treePathCodes.map (·.1)) _ h.codes_nodup, List.map_map]
  · refine congrArg List.sum (List.map_congr_left fun e he => ?_)
    have hr : ramRead CodeEntry.zero (codeRamOf s.treePathCodes) e.1 = e.2 :=
      codeRamOf_read _ h.codes_nodup e.1 e.2 he
    simp only [Function.comp, hr]
  · intro k hk
    obtain ⟨e, he, rfl⟩ := List.mem_map.mp hk
    obtain ⟨i, hi, p, -, e', -⟩ := (h.mem_treePathCodes e.1 e.2).mp he
    rw [e']; exact (s.nodeAt i).sym.isLt
  · intro k hk hnot
    have hr : ramRead CodeEntry.zero (codeRamOf s.treePathCodes) k = CodeEntry.zero :=
      codeRamOf_absent _ h.codes_nodup k hnot
    simp only [hr]
    exact h0 k hk hr

/-- The codes of a whole tree of two or more leaves are complete (R162 law 3). -/
theorem State.TreeWf.complete (hn : 2 ≤ s.numLeaves.toNat) :
    ((List.range 256).map fun k =>
      if (ramRead CodeEntry.zero (codeRamOf s.treePathCodes) k).len.toNat = 0 then 0
      else 2 ^ (255 - (ramRead CodeEntry.zero (codeRamOf s.treePathCodes) k).len.toNat)).sum = 2 ^ 255 := by
  have hb := h.root_bound
  rw [h.sum_table (fun _ c => if c.len.toNat = 0 then 0 else 2 ^ (255 - c.len.toNat)) (fun _ _ _ => rfl),
    State.treePathCodes, List.map_map]
  have hlen : ∀ e ∈ s.leafPaths 511 (2 * s.numLeaves.toNat - 2), e.2.length ≤ 255 ∧ 1 ≤ e.2.length := fun e he => by
    obtain ⟨i, p⟩ := e
    obtain ⟨hp, hi⟩ := (h.mem_leafPaths 511 _ i p hb.2 hb.1).mp he
    refine ⟨(h.path_length i p hp).2, ?_⟩
    cases p with
    | nil => cases hp; omega
    | cons b p => simp
  rw [← h.kraft 511 (2 * s.numLeaves.toNat - 2) 255 hb.2 hb.1 fun e he => (hlen e he).1]
  refine congrArg List.sum (List.map_congr_left fun e he => ?_)
  have := hlen e he
  have hl : (BitVec.ofNat 8 (0 + e.2.length)).toNat = e.2.length := by simp; omega
  have hs : ((s.leafCode 0 0 e).2).len.toNat = e.2.length := hl
  simp only [Function.comp, hs, if_neg (show e.2.length ≠ 0 by omega)]

end tree

end Sys2Proof.Machine
end

