-- ==== Sys2Proof/Laws/Histogram.lean ====
section
/-! SUPPORT. What the histogram commands can do (40_histogram.md), and sums over the counts of a byte sequence. -/

namespace Sys2Proof.Machine

theorem getD_map_range {α : Type} (n : Nat) (f : Nat → α) (d : α) (k : Nat) :
    ((List.range n).map f).getD k d = if k < n then f k else d := by
  by_cases h : k < n
  · rw [List.getD_eq_getElem _ _ (by simpa using h)]; simp [h]
  · rw [List.getD_eq_default _ _ (by simpa using h)]; simp [h]

theorem sum_map_add_nat (l : List Nat) (g h : Nat → Nat) :
    (l.map fun k => g k + h k).sum = (l.map g).sum + (l.map h).sum := by
  induction l with
  | nil => rfl
  | cons a l ih => simp only [List.map_cons, List.sum_cons, ih]; omega

theorem sum_range_single (m a v : Nat) (h : a < m) : ((List.range m).map fun k => if a = k then v else 0).sum = v := by
  have key : ∀ m, ((List.range m).map fun k => if a = k then v else 0).sum = if a < m then v else 0 := fun m => by
    induction m with
    | zero => simp
    | succ m ih => rw [List.range_succ, List.map_append, List.sum_append, ih]; simp; split <;> split <;> split <;> omega
  rw [key, if_pos h]

/-- A sum over the bytes is the sum over the symbols, each as often as it occurs. -/
theorem sum_symbolCount (bytes : List Byte) (f : Nat → Nat) :
    ((List.range 256).map fun k => symbolCount bytes k * f k).sum = (bytes.map fun b => f b.toNat).sum := by
  induction bytes with
  | nil =>
    refine List.sum_eq_zero fun x hx => ?_
    obtain ⟨k, -, rfl⟩ := List.mem_map.mp hx
    simp [symbolCount]
  | cons b bytes ih =>
    have e : (fun k => symbolCount (b :: bytes) k * f k) =
        fun k => symbolCount bytes k * f k + if b.toNat = k then f b.toNat else 0 := by
      funext k
      simp only [symbolCount, List.countP_cons, beq_iff_eq, Nat.add_mul]
      split <;> simp_all
    rw [e, sum_map_add_nat, ih, sum_range_single _ _ _ b.isLt, List.map_cons, List.sum_cons, Nat.add_comm]

/-- The counts of a byte sequence sum to its length (R123). -/
theorem sum_symbolCounts (bytes : List Byte) : ((List.range 256).map (symbolCount bytes)).sum = bytes.length := by
  have := sum_symbolCount bytes fun _ => 1
  simpa using this

theorem symbolCount_le (bytes : List Byte) (k : Nat) : symbolCount bytes k ≤ bytes.length := List.countP_le_length

theorem symbolCount_pos (bytes : List Byte) (k : Nat) : 1 ≤ symbolCount bytes k ↔ ∃ b ∈ bytes, b.toNat = k := by
  simp [symbolCount, Nat.one_le_iff_ne_zero]

/-- The counter of symbol k in the fresh counts of R227. -/
theorem inputHistogram_read (bytes : List Byte) (k : Nat) (hk : k < 256) :
    ramRead 0#32 (inputHistogram bytes) k = BitVec.ofNat 32 (symbolCount bytes k) := by
  rw [inputHistogram, ramRead_ofList, getD_map_range, if_pos (by simpa using hk)]

/-- HACC without overflow (R122). -/
theorem hacc_eq (s : State) (h : s.dataLen.toNat ≤ 65536) (hk : ∀ k < 256, s.accumulated k < 2 ^ 32) :
    hacc s = .ok { s with
      freq := ramOfList 0#32 ((List.range Config.nsym).map fun k => BitVec.ofNat 32 (s.accumulated k)) } := by
  unfold hacc
  rw [checkDataLen_of_le s h, CmdM.bind_ok, List.find?_eq_none.mpr]
  intro k hk'
  have := hk k (by simpa using hk')
  simp; omega

/-- HACC with a first overflowing symbol k (R122). -/
theorem hacc_overflow (s : State) (h : s.dataLen.toNat ≤ 65536) (k : Nat) (hk : k < 256) (h1 : 2 ^ 32 ≤ s.accumulated k)
    (h2 : ∀ j < k, s.accumulated j < 2 ^ 32) : hacc s = raiseError .freqOverflow (BitVec.ofNat 32 k) := by
  unfold hacc
  rw [checkDataLen_of_le s h, CmdM.bind_ok]
  have : (List.range Config.nsym).find? (fun k => decide (s.accumulated k > 2 ^ 32 - 1)) = some k := by
    rw [List.find?_range_eq_some]
    refine ⟨by simp; omega, by simpa using hk, fun j hj => ?_⟩
    have := h2 j hj
    simp; omega
  rw [this]

end Sys2Proof.Machine
end

