-- ==== Sys2Proof/Laws/Encode.lean ====
section
/-! SUPPORT. Why ENCODE never fails (45_control.md rule R227): the codes of a tree that BUILD made take at most eight
    bits
per input byte on average, because k greedy merges cost at most the weight of any 2k nodes. -/

namespace Sys2Proof.Machine

/- ### Greedy merges -/

/-- One greedy merge of weights, at the cost of the sum it makes. -/
def Greedy (M M' : Multiset Nat) (c : Nat) : Prop :=
  ∃ a b R, M = a ::ₘ b ::ₘ R ∧ a ≤ b ∧ (∀ x ∈ R, b ≤ x) ∧ M' = (a + b) ::ₘ R ∧ c = a + b

/-- A least element can be exchanged into any sub-multiset, and taken out of it. -/
theorem exists_without_least (S R : Multiset Nat) (a : Nat) (h : S ≤ a ::ₘ R) (ha : ∀ x ∈ R, a ≤ x) (hS : 1 ≤ S.card) :
    ∃ S1 ≤ R, S1.card + 1 = S.card ∧ S1.sum + a ≤ S.sum := by
  by_cases hm : a ∈ S
  · refine ⟨S.erase a, ?_, ?_, ?_⟩
    · have := Multiset.erase_le_erase a h
      rwa [Multiset.erase_cons_head] at this
    · rw [Multiset.card_erase_of_mem hm]; exact Nat.succ_pred_eq_of_pos hS
    · have := congrArg Multiset.sum (Multiset.cons_erase hm)
      rw [Multiset.sum_cons] at this; omega
  · have hR := (Multiset.le_cons_of_notMem hm).mp h
    obtain ⟨x, hx⟩ := Multiset.card_pos_iff_exists_mem.mp hS
    refine ⟨S.erase x, (Multiset.erase_le x S).trans hR, ?_, ?_⟩
    · rw [Multiset.card_erase_of_mem hx]; exact Nat.succ_pred_eq_of_pos hS
    · have := congrArg Multiset.sum (Multiset.cons_erase hx)
      rw [Multiset.sum_cons] at this
      have := ha x (Multiset.mem_of_le hR hx); omega

/-- k greedy merges cost at most the weight of any 2k of the elements they start from. -/
theorem greedy_cost_le (M : Nat → Multiset Nat) (c : Nat → Nat) (k j : Nat)
    (h : ∀ i < k, Greedy (M (j + i)) (M (j + i + 1)) (c (j + i))) (S : Multiset Nat) (hS : S ≤ M j)
    (hcard : S.card = 2 * k) : ((List.range k).map fun i => c (j + i)).sum ≤ S.sum := by
  induction k generalizing j S with
  | zero => simp
  | succ k ih =>
    obtain ⟨a, b, R, hM, hab, hb, hM', hc⟩ := h 0 (by omega)
    rw [Nat.add_zero] at hM hM' hc
    rw [hM] at hS
    obtain ⟨S1, h1, hc1, hs1⟩ := exists_without_least S _ a hS
      (fun x hx => (Multiset.mem_cons.mp hx).elim (fun e => e ▸ hab) fun hx => hab.trans (hb x hx)) (by omega)
    obtain ⟨S2, h2, hc2, hs2⟩ := exists_without_least S1 _ b h1 hb (by omega)
    have h2 : S2 ≤ M (j + 1) := by rw [hM']; exact h2.trans (Multiset.le_cons_self _ _)
    have := ih (j + 1) (fun i hi => by
      have := h (i + 1) (by omega)
      rwa [show j + (i + 1) = j + 1 + i by omega] at this) S2 h2 (by omega)
    rw [List.range_succ_eq_map, List.map_cons, List.sum_cons, List.map_map, Nat.add_zero, hc]
    have e : (fun i => c (j + 1 + i)) = (fun i => c (j + i)) ∘ Nat.succ := by
      funext i; simp only [Function.comp]; congr 1; omega
    rw [e] at this
    omega

theorem exists_le_card (M : Multiset Nat) (k : Nat) (h : k ≤ M.card) : ∃ S ≤ M, S.card = k := by
  induction M using Quotient.inductionOn with
  | _ l =>
    refine ⟨(l.take k : List Nat), (List.take_sublist k l).subperm, ?_⟩
    simp at h ⊢; exact h

/-- Merging m ≤ 2^l elements of total T down to one costs at most l·T. -/
theorem greedy_total_le (M : Nat → Multiset Nat) (c : Nat → Nat) (T l m j : Nat) (hm : 1 ≤ m) (hl : m ≤ 2 ^ l)
    (hcard : ∀ i < m, (M (j + i)).card = m - i) (hsum : ∀ i < m, (M (j + i)).sum = T)
    (h : ∀ i < m - 1, Greedy (M (j + i)) (M (j + i + 1)) (c (j + i))) :
    ((List.range (m - 1)).map fun i => c (j + i)).sum ≤ l * T := by
  induction l generalizing m j with
  | zero => rw [show m - 1 = 0 by simp at hl; omega]; simp
  | succ l ih =>
    rcases Nat.lt_or_ge (2 ^ l) m with hlt | hle
    · obtain ⟨k, rfl⟩ : ∃ k, m = 2 ^ l + k := ⟨m - 2 ^ l, by omega⟩
      rw [Nat.pow_succ] at hl
      have hp : 1 ≤ 2 ^ l := Nat.one_le_two_pow
      have hM0 := hcard 0 (by omega)
      have hT0 := hsum 0 (by omega)
      rw [Nat.add_zero] at hM0 hT0
      obtain ⟨S, hS, hSc⟩ := exists_le_card (M j) (2 * k) (by omega)
      have h1 := greedy_cost_le M c k j (fun i hi => h i (by omega)) S hS hSc
      have h2 : S.sum ≤ T := by
        obtain ⟨R, hR⟩ := Multiset.le_iff_exists_add.mp hS
        have := congrArg Multiset.sum hR
        rw [Multiset.sum_add] at this; omega
      have h3 := ih (2 ^ l) (j + k) hp (le_refl _)
        (fun i hi => by have := hcard (k + i) (by omega); rw [show j + k + i = j + (k + i) by omega, this]; omega)
        (fun i hi => by rw [show j + k + i = j + (k + i) by omega]; exact hsum (k + i) (by omega))
        (fun i hi => by
          have := h (k + i) (by omega)
          rwa [show j + (k + i) = j + k + i by omega] at this)
      have e : (List.range (2 ^ l + k - 1)).map (fun i => c (j + i)) =
          (List.range k).map (fun i => c (j + i)) ++ (List.range (2 ^ l - 1)).map fun i => c (j + k + i) := by
        rw [show 2 ^ l + k - 1 = k + (2 ^ l - 1) by omega, List.range_add, List.map_append, List.map_map]
        congr 1
        exact List.map_congr_left fun i _ => by simp only [Function.comp]; congr 1; omega
      rw [e, List.sum_append, Nat.succ_mul]
      omega
    · have := ih m j hm hle hcard hsum h
      rw [Nat.succ_mul]; omega

/- ### The merges of BUILD -/

/-- The weights of the collection of merge j of BUILD. -/
def buildWeights (s : State) (j : Nat) : Multiset Nat :=
  ((collectionAt s.presentSymbols.length s.leafKeys j).map (·.w) : List Nat)

/-- The weight of the node that merge j of BUILD makes. -/
def buildCost (s : State) (j : Nat) : Nat := (buildPick s j).1.w + (buildPick s j).2.w

theorem build_greedy (s : State) (j : Nat) (hj : j < s.presentSymbols.length - 1) :
    Greedy (buildWeights s j) (buildWeights s (j + 1)) (buildCost s j) := by
  obtain ⟨A2, hA, hp, hab, ha, hb⟩ := pickAt_spec _ _ _ j (build_collection s j (by omega)) (by simp; omega)
  have hle : ∀ x y : Key, x.before y = true → x.w ≤ y.w := fun x y h => by rw [before_iff] at h; omega
  refine ⟨(buildPick s j).1.w, (buildPick s j).2.w, (A2.map (·.w) : List Nat), ?_, hle _ _ hab, ?_, ?_, rfl⟩
  · exact Multiset.coe_eq_coe.mpr (hp.map (·.w))
  · intro x hx
    obtain ⟨y, hy, rfl⟩ := List.mem_map.mp (Multiset.mem_coe.mp hx)
    exact hle _ _ (hb y hy)
  · rw [buildWeights, hA]; rfl

/-- All merges of BUILD together cost at most eight times the total (R141). -/
theorem build_cost_le (s : State) (h : 1 ≤ s.presentSymbols.length) :
    ((List.range (s.presentSymbols.length - 1)).map (buildCost s)).sum ≤ 8 * s.freqTotal := by
  have hN := presentSymbols_length s
  have := greedy_total_le (buildWeights s) (buildCost s) s.freqTotal 8 s.presentSymbols.length 0 h (by omega) ?_ ?_ ?_
  · simpa using this
  · intro i hi
    have := (build_collection s i (by omega)).length
    rw [Nat.zero_add]
    simp [buildWeights] at this ⊢; omega
  · intro i hi
    have := (build_collection s i (by omega)).sum
    rw [leafKeys_sum] at this
    rw [Nat.zero_add]
    simpa [buildWeights] using this
  · intro i hi
    simpa using build_greedy s i hi

/-- With the depth d of every node (0 at the root, one more than the parent's elsewhere), the weighted depths of a
collection are what the merges from it on still cost. -/
theorem build_depths (s : State) (d : Nat → Nat)
    (hroot : 2 ≤ s.presentSymbols.length → d (2 * s.presentSymbols.length - 2) = 0)
    (hchild : ∀ k < s.presentSymbols.length - 1, d (buildPick s k).1.i = d (s.presentSymbols.length + k) + 1 ∧
      d (buildPick s k).2.i = d (s.presentSymbols.length + k) + 1)
    (hN : 2 ≤ s.presentSymbols.length) (r : Nat) (hr : r ≤ s.presentSymbols.length - 1) :
    ((collectionAt s.presentSymbols.length s.leafKeys (s.presentSymbols.length - 1 - r)).map fun x => x.w * d x.i).sum =
      ((List.range r).map fun i => buildCost s (s.presentSymbols.length - 1 - r + i)).sum := by
  induction r with
  | zero =>
    have hc := build_collection s (s.presentSymbols.length - 1) (by omega)
    have hl := hc.length
    obtain ⟨x, hx⟩ : ∃ x, collectionAt s.presentSymbols.length s.leafKeys (s.presentSymbols.length - 1) = [x] := by
      apply List.length_eq_one_iff.mp; simp at hl; omega
    have hi : x.i = 2 * s.presentSymbols.length - 2 := by
      obtain ⟨A2, hA, -⟩ := pickAt_spec _ _ _ (s.presentSymbols.length - 2) (build_collection s _ (by omega))
          (by simp; omega)
      rw [show s.presentSymbols.length - 2 + 1 = s.presentSymbols.length - 1 by omega, hx] at hA
      rw [(List.cons.inj hA).1]
      show s.presentSymbols.length + (s.presentSymbols.length - 2) = _
      omega
    rw [Nat.sub_zero, hx]
    simp [hi, hroot hN]
  | succ r ih =>
    obtain ⟨j, hj⟩ : ∃ j, s.presentSymbols.length - 1 - (r + 1) = j := ⟨_, rfl⟩
    have hj' : s.presentSymbols.length - 1 - r = j + 1 := by omega
    have ih := ih (by omega)
    rw [hj'] at ih
    rw [hj]
    obtain ⟨A2, hA, hp, -⟩ := pickAt_spec _ _ _ j (build_collection s j (by omega)) (by simp; omega)
    obtain ⟨h1, h2⟩ := hchild j (by omega)
    rw [(hp.map fun x => x.w * d x.i).sum_eq]
    rw [hA] at ih
    have e : (fun i => buildCost s (j + 1 + i)) = (fun i => buildCost s (j + i)) ∘ Nat.succ := by
      funext i; simp only [Function.comp]; congr 1; omega
    rw [e] at ih
    rw [List.range_succ_eq_map]
    simp only [List.map_cons, List.sum_cons, List.map_map, Nat.add_zero] at ih ⊢
    rw [← ih]
    change (buildPick s j).1.w * d (buildPick s j).1.i + ((buildPick s j).2.w * d (buildPick s j).2.i + _) =
      buildCost s j + (((buildPick s j).1.w + (buildPick s j).2.w) * d (s.presentSymbols.length + j) + _)
    rw [h1, h2, buildCost]
    ring

/- ### GENC after BUILD -/

theorem sum_map_filter {α : Type} (l : List α) (p : α → Bool) (f : α → Nat) (h : ∀ x ∈ l, p x = false → f x = 0) :
    ((l.filter p).map f).sum = (l.map f).sum := by
  induction l with
  | nil => rfl
  | cons a l ih =>
    have ih := ih fun x hx => h x (List.mem_cons_of_mem _ hx)
    cases hp : p a with
    | true => simp [hp, ih]
    | false => simp [hp, ih, h a (by simp) hp]

/-- What GENC leaves after a successful BUILD (R160, R162), on any state that holds its table: exactly the present
    symbols
have a code, the codes are prefix-free, and they take at most eight bits a count. -/
theorem genc_of_built (s t : State) (hb : build s = .ok t) :
    ∃ c m, genc t = .ok { t with code := c, maxLen := m } ∧ ∀ u : State, u.code = c →
      (∀ k < 256, u.coded k ↔ s.freqAt k ≠ 0#32) ∧ u.PrefixFree ∧
      ((List.range 256).map fun k => (s.freqAt k).toNat * (u.codeAt k).len.toNat).sum ≤ 8 * s.freqTotal := by
  have b := built_of_ok s t hb
  have h := b.treeWf
  have hv : t.treeValid = true := by obtain ⟨-, -, rfl⟩ := (build_eq_ok s t).mp hb; rfl
  have hN := b.leaves
  have hpos := b.pos
  have hsym : ∀ i (hi : i < s.presentSymbols.length), (t.nodeAt i).sym.toNat = s.presentSymbols[i] := fun i hi => by
    rw [b.leaf i hi]
    have := presentSymbols_lt s _ (List.getElem_mem hi)
    simp only [State.leafNode, BitVec.toNat_ofNat]
    exact Nat.mod_eq_of_lt (by omega)
  have hpres : ∀ k, (∃ i < t.numLeaves.toNat, (t.nodeAt i).sym.toNat = k) ↔ k < 256 ∧ s.freqAt k ≠ 0#32 := fun k => by
    rw [← mem_presentSymbols, hN]
    constructor
    · rintro ⟨i, hi, rfl⟩; rw [hsym i hi]; exact List.getElem_mem hi
    · intro hk
      obtain ⟨i, hi, rfl⟩ := List.getElem_of_mem hk
      exact ⟨i, hi, hsym i hi⟩
  by_cases h1 : t.numLeaves = 1#9
  · refine ⟨_, _, by rw [genc, if_neg (by simp [hv]), State.treeCodes, if_pos h1]; rfl, fun u hu => ?_⟩
    have hu' : ∀ k, u.codeAt k = if k = (t.nodeAt 0).sym.toNat then { len := 1#8, val := 0#256 } else CodeEntry.zero
        := fun k => by
      rw [State.codeAt, hu]
      simp only [codeRamOf, List.foldl_cons, List.foldl_nil, ramWrite_read]
      rfl
    have h1' : t.numLeaves.toNat = 1 := by rw [h1]; rfl
    have hc : ∀ k, u.coded k ↔ k = (t.nodeAt 0).sym.toNat := fun k => by
      rw [State.coded, hu']
      by_cases e : k = (t.nodeAt 0).sym.toNat
      · rw [if_pos e]; simp [e]
      · rw [if_neg e]; simp [e]
    refine ⟨fun k hk => ?_, ?_, ?_⟩
    · rw [hc]
      have := hpres k
      rw [h1'] at this
      constructor
      · intro e; exact (this.mp ⟨0, by omega, e.symm⟩).2
      · intro e
        obtain ⟨i, hi, e⟩ := this.mpr ⟨hk, e⟩
        rw [show i = 0 by omega] at e
        exact e.symm
    · intro a _ b _ hab ca cb
      exact absurd (((hc a).mp ca).trans ((hc b).mp cb).symm) hab
    · have e : ∀ k, (s.freqAt k).toNat * (u.codeAt k).len.toNat ≤ (s.freqAt k).toNat := fun k => by
        rw [hu']; split <;> simp
      have := List.sum_le_sum (l := List.range 256) fun k _ => e k
      exact this.trans (Nat.le_mul_of_pos_left _ (by omega))
  · have hn : 2 ≤ t.numLeaves.toNat := by
      have h0 : t.numLeaves.toNat ≠ 1 := fun e => h1 (BitVec.eq_of_toNat_eq (by rw [e]; rfl))
      omega
    refine ⟨_, _, h.genc hv hn, fun u hu => ?_⟩
    have hu' : ∀ k, u.codeAt k = ramRead CodeEntry.zero (codeRamOf t.treePathCodes) k := fun k => by rw
        [State.codeAt, hu]
    obtain ⟨hcoded, -, hpf⟩ := h.table hn u hu'
    refine ⟨fun k hk => (hcoded k).trans ((hpres k).trans (by simp [hk])), hpf, ?_⟩
    choose! path hpath using h.reached
    have hchild : ∀ k < s.presentSymbols.length - 1,
        (path (buildPick s k).1.i).length = (path (s.presentSymbols.length + k)).length + 1 ∧
        (path (buildPick s k).2.i).length = (path (s.presentSymbols.length + k)).length + 1 := fun k hk => by
      have hs := buildPick_spec s k hk
      have hp := hpath (s.presentSymbols.length + k) (by omega)
      have hleaf : (t.nodeAt (s.presentSymbols.length + k)).leaf = false := by rw [b.inner k hk]; rfl
      have hc : ∀ x : Bool, t.nodeAlong (2 * t.numLeaves.toNat - 2) (path (s.presentSymbols.length + k) ++ [x]) =
          some (if x then (buildPick s k).2.i else (buildPick s k).1.i) := fun x => by
        rw [nodeAlong_append, hp, Option.bind_some, nodeAlong_cons _ _ _ _ hleaf, nodeAlong_nil, b.leftOf k hk,
            b.rightOf k hk]
      rw [h.path_unique _ _ _ (hpath (buildPick s k).1.i (by omega)) (hc false),
        h.path_unique _ _ _ (hpath (buildPick s k).2.i (by omega)) (hc true)]
      simp
    have hroot : (path (2 * s.presentSymbols.length - 2)).length = 0 := by
      rw [h.path_unique (2 * s.presentSymbols.length - 2) _ [] (hpath _ (by omega)) (by rw [hN]; rfl)]; rfl
    have hd := build_depths s (fun i => (path i).length) (fun _ => hroot) hchild (by omega)
      (s.presentSymbols.length - 1) (le_refl _)
    rw [Nat.sub_self] at hd
    have hcost := build_cost_le s hpos
    have hlen : ∀ i, i < s.presentSymbols.length → ∀ k, (t.nodeAt i).sym.toNat = k →
        (u.codeAt k).len.toNat = (path i).length := by
      rintro i hi k rfl
      have hp := hpath i (by omega)
      have := (h.path_length i _ hp).2
      rw [hu', h.code_of_leaf i (by omega) _ hp]
      simp; omega
    have e1 := sum_map_filter (List.range 256) (fun k => s.freqAt k ≠ 0#32)
      (fun k => (s.freqAt k).toNat * (u.codeAt k).len.toNat) (fun k _ hk => by
        have : s.freqAt k = 0#32 := by simpa using hk
        rw [this]; simp)
    have e2 : s.presentSymbols.map (fun k => (s.freqAt k).toNat * (u.codeAt k).len.toNat) =
        s.leafKeys.map fun x => x.w * (path x.i).length := by
      apply List.ext_getElem (by simp)
      intro i h1 h2
      have hi : i < s.presentSymbols.length := by simpa using h1
      rw [List.getElem_map, List.getElem_map, leafKeys_getElem s i hi, hlen i hi _ (hsym i hi)]
    rw [← e1]
    change (s.presentSymbols.map fun k => (s.freqAt k).toNat * (u.codeAt k).len.toNat).sum ≤ _
    rw [e2]
    simp only [Nat.zero_add] at hd
    exact (le_of_eq hd).trans hcost

/- ### ENCODE -/

theorem stream_length (u : State) (bytes : List Byte) :
    (u.stream bytes).length = ((List.range 256).map fun k => symbolCount bytes k * (u.codeAt k).len.toNat).sum := by
  rw [sum_symbolCount bytes fun k => (u.codeAt k).len.toNat]
  induction bytes with
  | nil => rfl
  | cons b bytes ih => rw [stream_cons, List.length_append, ih, codeBits_length, List.map_cons, List.sum_cons]

/-- The four units of ENCODE all succeed on an input of 1 to 65536 bytes (R227). -/
theorem encode_units (s : State) (h1 : 1 ≤ s.dataLen.toNat) (h2 : s.dataLen.toNat ≤ 65536) :
    ∃ t1 t2 t3, build { s with freq := inputHistogram s.input } = .ok t1 ∧ genc t1 = .ok t2 ∧ pack t2 = .ok t3 ∧
      t2.PrefixFree ∧ (∀ k < 256, t2.coded k ↔ symbolCount s.input k ≠ 0) := by
  have hl := input_length s
  obtain ⟨s0, hs0⟩ : ∃ s0, s0 = { s with freq := inputHistogram s.input } := ⟨_, rfl⟩
  have hf : ∀ k < 256, (s0.freqAt k).toNat = symbolCount s.input k := fun k hk => by
    have := symbolCount_le s.input k
    rw [hs0]
    show (ramRead 0#32 (inputHistogram s.input) k).toNat = _
    rw [inputHistogram_read _ _ hk, ofNat32_toNat _ (by omega)]
  have hfz : ∀ k < 256, s0.freqAt k ≠ 0#32 ↔ symbolCount s.input k ≠ 0 := fun k hk => by
    rw [← hf k hk, ne_eq, ne_eq, not_iff_not]
    exact ⟨fun e => by rw [e]; rfl, fun e => BitVec.eq_of_toNat_eq e⟩
  have hT : s0.freqTotal = s.dataLen.toNat := by
    rw [State.freqTotal, List.map_congr_left fun k hk => hf k (by simpa using hk), ← hl]
    exact sum_symbolCounts s.input
  have hN : s0.presentSymbols.length ≠ 0 := by
    intro e
    obtain ⟨b, hb⟩ := List.exists_mem_of_length_pos (l := s.input) (by omega)
    have := (mem_presentSymbols s0 b.toNat).mpr ⟨b.isLt, (hfz _ b.isLt).mpr (by
      have := (symbolCount_pos s.input b.toNat).mpr ⟨b, hb, rfl⟩; omega)⟩
    rw [List.eq_nil_of_length_eq_zero e] at this
    simp at this
  obtain ⟨t1, ht1⟩ : ∃ t1, build s0 = .ok t1 := ⟨_, (build_eq_ok s0 _).mpr ⟨hN, by omega, rfl⟩⟩
  obtain ⟨c, m, hg, hc⟩ := genc_of_built s0 t1 ht1
  obtain ⟨hcoded, hpf, hcost⟩ := hc { t1 with code := c, maxLen := m } rfl
  have f1 := build_frame _ _ ht1
  have hin : State.input { t1 with code := c, maxLen := m } = s.input := by rw [f1, hs0]; rfl
  have hdl : t1.dataLen = s.dataLen := by rw [f1, hs0]
  have hall : ∀ b ∈ State.input { t1 with code := c, maxLen := m }, State.coded { t1 with code := c, maxLen := m }
      b.toNat := by
    rw [hin]
    intro b hb
    rw [hcoded _ b.isLt, hfz _ b.isLt]
    have := (symbolCount_pos s.input b.toNat).mpr ⟨b, hb, rfl⟩
    omega
  have hbits : (State.stream { t1 with code := c, maxLen := m } (State.input { t1 with code := c, maxLen := m
      })).length ≤ 524288 := by
    rw [hin, stream_length]
    rw [List.map_congr_left (fun k hk => by rw [hf k (by simpa using hk)])] at hcost
    omega
  exact ⟨t1, _, _, by rw [← hs0]; exact ht1, hg,
    (pack_eq_ok _ _).mpr ⟨by show t1.dataLen.toNat ≤ _; rw [hdl]; exact h2, hall, hbits, rfl⟩, hpf,
    fun k hk => (hcoded k hk).trans (hfz k hk)⟩

end Sys2Proof.Machine
end

