-- ==== Sys2Proof/Laws/Step.lean ====
section
/-! SUPPORT. What a step can do, said once: the engine's turn, a host transaction, a read, a write, the accept. -/

namespace Sys2Proof.Machine

theorem decode_encode (i : Instr) : decode (encode i) = .ok i := by cases i <;> decide

/- The turns. -/

theorem step_nil (s : State) (h : s.inbox = []) : step s = engineStep s := by simp only [step, h]

theorem step_engine (s : State) (rest : List Event) (h : s.inbox = .engine :: rest) :
    step s = engineStep { s with inbox := rest } := by simp only [step, h]

/-- The engine's turn, whether it comes from the schedule or because no turn waits. -/
theorem step_engineTurn (s : State) (rest : List Event) (h : s.inbox = [] ∧ rest = [] ∨ s.inbox = .engine :: rest) :
    step s = engineStep { s with inbox := rest } := by
  rcases h with ⟨h, rfl⟩ | h
  · rw [step_nil s h, ← h]
  · exact step_engine s rest h

theorem step_reset (s : State) (rest : List Event) (h : s.inbox = .reset :: rest) :
    step s = .next { State.reset with reply := s.reply, inbox := rest, draws := s.draws } := by
  simp only [step, h]; rfl

theorem step_host (s : State) (t : Transaction) (rest : List Event) (h : s.inbox = .host t :: rest) :
    step s = hostStep t { s with inbox := rest } := by simp only [step, h]

theorem step_wait (s : State) (gaps : List (List Turn)) (rest : List Event) (h : s.inbox = .wait gaps :: rest) :
    step s = waitStep gaps { s with inbox := rest } := by simp only [step, h]

theorem engineStep_idle (s : State) (h : s.phase = .idle) : engineStep s = .next s := by simp only [engineStep, h]

theorem engineStep_init (s : State) (h : s.phase = .init) : engineStep s = .next { s with phase := .idle } := by
  simp only [engineStep, h]

theorem engineStep_busy (s : State) (i : Instr) (h : s.phase = .busy) (hd : decode s.pending = .ok i) :
    engineStep s = exec i s := by simp only [engineStep, h, hd]

theorem engineStep_illegal (s : State) (e : DecodeReject) (h : s.phase = .busy) (hd : decode s.pending = .error e) :
    engineStep s = .next (s.commitError .illegalCmd s.pending) := by
  simp only [engineStep, h, hd]; rfl

theorem busy_of_ne_idle (s : State) (h : s.phase ≠ .idle) : s.busy = true := by
  unfold State.busy; cases hp : s.phase <;> simp_all

theorem busy_of_idle (s : State) (h : s.phase = .idle) : s.busy = false := by simp only [State.busy, h]

/- A transaction. -/

theorem hostStep_read (s : State) (off : Nat) (ho : off < 0x40000) (h4 : off % 4 = 0) :
    hostStep (.read off 32) s = .next (s.busRead (locate off)) := by
  rw [hostStep, if_neg (by simp only [Config.apertureBytes]; omega), if_neg (by simp [busErrorAt, h4])]

theorem hostStep_write (s : State) (off : Nat) (v : Word) (ho : off < 0x40000) (h4 : off % 4 = 0) :
    hostStep (.write off 32 v) s = State.busWrite { s with reply := some (.write .ok) } (locate off) v := by
  rw [hostStep, if_neg (by simp only [Config.apertureBytes]; omega), if_neg (by simp [busErrorAt, h4])]

theorem hostStep_read_error (s : State) (off width : Nat) (ho : off < 0x40000) (h : off % 4 ≠ 0 ∨ width ≠ 32) :
    hostStep (.read off width) s = .next { s with reply := some (.read .error 0#32) } := by
  rw [hostStep, if_neg (by simp only [Config.apertureBytes]; omega), if_pos (by simpa [busErrorAt] using h)]

theorem hostStep_write_error (s : State) (off width : Nat) (v : Word) (ho : off < 0x40000)
    (h : off % 4 ≠ 0 ∨ width ≠ 32) :
    hostStep (.write off width v) s = .next { s with reply := some (.write .error) } := by
  rw [hostStep, if_neg (by simp only [Config.apertureBytes]; omega), if_pos (by simpa [busErrorAt] using h)]

theorem hostStep_read_outside (s : State) (off width : Nat) (ho : 0x40000 ≤ off) :
    hostStep (.read off width) s = .refused (.outsideAperture off) := by
  rw [hostStep, if_pos (by simpa only [Config.apertureBytes] using ho)]

theorem hostStep_write_outside (s : State) (off width : Nat) (v : Word) (ho : 0x40000 ≤ off) :
    hostStep (.write off width v) s = .refused (.outsideAperture off) := by
  rw [hostStep, if_pos (by simpa only [Config.apertureBytes] using ho)]

/- A read and a write of a location. -/

theorem busRead_free (s : State) (l : Location) (hp : s.phase ≠ .idle) (hl : l.readableWhileBusy = false) :
    s.busRead l = { s with reply := some (.read .ok (Config.freeBusRead s.draws)), draws := s.draws + 1 } := by
  rw [State.busRead, if_pos (by simp [busy_of_ne_idle s hp, hl])]

theorem busRead_held (s : State) (l : Location) (h : s.phase = .idle ∨ l.readableWhileBusy = true) :
    s.busRead l = { s with reply := some (.read .ok (s.readLocation l)) } := by
  rw [State.busRead, if_neg]
  rcases h with h | h
  · simp [busy_of_idle s h]
  · simp [h]

theorem busWrite_through (s : State) (l : Location) (v : Word) (h : l.writableWhileBusy = true) :
    s.busWrite l v = .next (s.writeLocation l v) := by rw [State.busWrite, if_pos h]

theorem busWrite_lost (s : State) (l : Location) (v : Word) (hp : s.phase ≠ .idle) (h : l.writableWhileBusy = false) :
    s.busWrite l v = .next { s with overrun := true } := by
  rw [State.busWrite, if_neg (by simp [h]), if_pos (busy_of_ne_idle s hp)]

theorem busWrite_cmd (s : State) (v : Word) (hp : s.phase = .idle) : s.busWrite (.reg .cmd) v = s.accept v := by
  rw [State.busWrite, if_neg (by simp [Location.writableWhileBusy]), if_neg (by simp [busy_of_idle s hp]), if_pos rfl]

theorem busWrite_idle (s : State) (l : Location) (v : Word) (hp : s.phase = .idle) (hl : l ≠ .reg .cmd) :
    s.busWrite l v = .next (s.writeLocation l v) := by
  simp [State.busWrite, busy_of_idle s hp, hl]

theorem accept_srst (s : State) : s.accept 0x00000001#32 = .next s.resetBlock := by
  rw [State.accept, if_pos (by decide)]; rfl

theorem accept_other (s : State) (v : Word) (h : v ≠ 0x00000001#32) :
    s.accept v = .next ((s.acceptRecord v).issue v) := by
  rw [State.accept, if_neg (by rw [show encode .srst = 1#32 from by decide]; exact h)]

/-- Everything an accept can do (R94). -/
theorem accept_cases (s : State) (v : Word) :
    (v = 0x00000001#32 ∧ s.accept v = .next s.resetBlock) ∨
    (v ≠ 0x00000001#32 ∧ s.accept v = .next ((s.acceptRecord v).issue v)) := by
  by_cases h : v = 0x00000001#32
  · subst h; exact .inl ⟨rfl, accept_srst s⟩
  · exact .inr ⟨h, accept_other s v h⟩

/-- Everything a 32-bit write inside the aperture can do (R66, R67, R94). -/
theorem busWrite_cases (s : State) (l : Location) (v : Word) :
    (s.busWrite l v = .next (s.writeLocation l v) ∧ (s.phase = .idle ∨ l.writableWhileBusy = true)) ∨
    (s.busWrite l v = .next { s with overrun := true } ∧ s.phase ≠ .idle ∧ l.writableWhileBusy = false) ∨
    (s.busWrite l v = .next s.resetBlock ∧ s.phase = .idle ∧ l = .reg .cmd ∧ v = 0x00000001#32) ∨
    (s.busWrite l v = .next ((s.acceptRecord v).issue v) ∧ s.phase = .idle ∧ l = .reg .cmd ∧ v ≠ 0x00000001#32) := by
  by_cases hw : l.writableWhileBusy = true
  · exact .inl ⟨busWrite_through s l v hw, .inr hw⟩
  · by_cases hp : s.phase = .idle
    · by_cases hl : l = .reg .cmd
      · subst hl
        rw [busWrite_cmd s v hp]
        rcases accept_cases s v with ⟨h, e⟩ | ⟨h, e⟩
        · exact .inr (.inr (.inl ⟨e, hp, rfl, h⟩))
        · exact .inr (.inr (.inr ⟨e, hp, rfl, h⟩))
      · exact .inl ⟨busWrite_idle s l v hp hl, .inl hp⟩
    · exact .inr (.inl ⟨busWrite_lost s l v hp (by simpa using hw), hp, by simpa using hw⟩)

/-- Everything a 32-bit read inside the aperture can do (R66, R68): only the reply and the counter of free reads change. -/
theorem busRead_cases (s : State) (l : Location) :
    (∃ v, s.busRead l = { s with reply := some (.read .ok v) }) ∨
    (∃ v, s.busRead l = { s with reply := some (.read .ok v), draws := s.draws + 1 }) := by
  unfold State.busRead
  split
  · exact .inr ⟨_, rfl⟩
  · exact .inl ⟨_, rfl⟩

/-- Everything a host transaction that answers a next state can do (R61, R75). -/
theorem hostStep_cases (s u : State) (t : Transaction) (h : hostStep t s = .next u) :
    (∃ r, u = { s with reply := some r }) ∨
    (∃ l, u = s.busRead l) ∨
    (∃ off v, off < 0x40000 ∧ off % 4 = 0 ∧
      State.busWrite { s with reply := some (.write .ok) } (locate off) v = .next u) := by
  cases t with
  | read off width =>
    by_cases ho : 0x40000 ≤ off
    · rw [hostStep_read_outside s off width ho] at h; cases h
    · by_cases he : off % 4 ≠ 0 ∨ width ≠ 32
      · rw [hostStep_read_error s off width (by omega) he] at h
        exact .inl ⟨_, (Host.Outcome.next.inj h).symm⟩
      · obtain ⟨h4, rfl⟩ : off % 4 = 0 ∧ width = 32 := by simpa using he
        rw [hostStep_read s off (by omega) h4] at h
        exact .inr (.inl ⟨_, (Host.Outcome.next.inj h).symm⟩)
  | write off width v =>
    by_cases ho : 0x40000 ≤ off
    · rw [hostStep_write_outside s off width v ho] at h; cases h
    · by_cases he : off % 4 ≠ 0 ∨ width ≠ 32
      · rw [hostStep_write_error s off width v (by omega) he] at h
        exact .inl ⟨_, (Host.Outcome.next.inj h).symm⟩
      · obtain ⟨h4, rfl⟩ : off % 4 = 0 ∧ width = 32 := by simpa using he
        rw [hostStep_write s off v (by omega) h4] at h
        exact .inr (.inr ⟨off, v, by omega, h4, h⟩)

/-- Everything an engine's turn that answers a next state can do (R95, R257, R271). -/
theorem engineStep_cases (s u : State) (h : engineStep s = .next u) :
    (s.phase = .idle ∧ u = s) ∨ (s.phase = .init ∧ u = { s with phase := .idle }) ∨
    (s.phase = .busy ∧ ∃ i, decode s.pending = .ok i ∧ exec i s = .next u) ∨
    (s.phase = .busy ∧ (∃ e, decode s.pending = .error e) ∧ u = s.commitError .illegalCmd s.pending) := by
  cases hp : s.phase with
  | idle => rw [engineStep_idle s hp] at h; exact .inl ⟨rfl, (Host.Outcome.next.inj h).symm⟩
  | init => rw [engineStep_init s hp] at h; exact .inr (.inl ⟨rfl, (Host.Outcome.next.inj h).symm⟩)
  | busy =>
    cases hd : decode s.pending with
    | ok i => rw [engineStep_busy s i hp hd] at h; exact .inr (.inr (.inl ⟨rfl, i, rfl, h⟩))
    | error e =>
      rw [engineStep_illegal s e hp hd] at h
      exact .inr (.inr (.inr ⟨rfl, ⟨e, rfl⟩, (Host.Outcome.next.inj h).symm⟩))

/-- Bit 0 of `STATUS` is 0 exactly when the engine is idle (R22, R25). -/
theorem statusWord_bit0 (s : State) : s.statusWord.getLsbD 0 = decide (s.phase ≠ .idle) := by
  simp only [State.statusWord, State.busy, BitVec.getLsbD_append]
  cases s.phase <;> simp

/-- Everything the host's turn at a `WAIT` can do (R99): the value of `STATUS` is the reply; an idle engine ends the
`WAIT`, and otherwise the host stays at it. -/
theorem waitStep_eq (gaps : List (List Turn)) (s : State) :
    waitStep gaps s = .next { s with
      reply := some (.read .ok s.statusWord),
      inbox := if s.phase = .idle then s.inbox else waitAgain gaps ++ s.inbox } := by
  have hr : hostStep waitRead s = .next { s with reply := some (.read .ok s.statusWord) } := by
    rw [show waitRead = .read 0x00C 32 from rfl, hostStep_read s _ (by decide) (by decide),
      busRead_held s _ (.inr (by decide))]
    rfl
  simp only [waitStep, hr, endsWait, valueRead, Option.any_some, statusWord_bit0]
  by_cases h : s.phase = .idle <;> simp [h]

theorem step_wait_idle (s : State) (gaps : List (List Turn)) (rest : List Event) (h : s.inbox = .wait gaps :: rest)
    (hp : s.phase = .idle) : step s = .next { s with reply := some (.read .ok s.statusWord), inbox := rest } := by
  rw [step_wait s gaps rest h, waitStep_eq, if_pos (show State.phase { s with inbox := rest } = .idle from hp)]; rfl

theorem step_wait_busy (s : State) (gaps : List (List Turn)) (rest : List Event) (h : s.inbox = .wait gaps :: rest)
    (hp : s.phase ≠ .idle) :
    step s = .next { s with reply := some (.read .ok s.statusWord), inbox := waitAgain gaps ++ rest } := by
  rw [step_wait s gaps rest h, waitStep_eq, if_neg (show State.phase { s with inbox := rest } ≠ .idle from hp)]; rfl

/-- Everything a step that answers a next state can be: an agent's turn, on the state without it in `inbox`; at a `WAIT`
only the reply and the turns to come change. -/
theorem step_cases (s u : State) (h : step s = .next u) :
    ∃ rest, engineStep { s with inbox := rest } = .next u ∨ u = State.resetBlock { s with inbox := rest } ∨
      (∃ t, hostStep t { s with inbox := rest } = .next u) ∨ ∃ r, u = { s with reply := r, inbox := rest } := by
  cases hi : s.inbox with
  | nil =>
    rw [step_nil s hi] at h
    exact ⟨[], .inl (by rw [← hi]; exact h)⟩
  | cons e rest =>
    cases e with
    | engine => rw [step_engine s rest hi] at h; exact ⟨rest, .inl h⟩
    | reset => rw [step_reset s rest hi] at h; exact ⟨rest, .inr (.inl (Host.Outcome.next.inj h).symm)⟩
    | host t => rw [step_host s t rest hi] at h; exact ⟨rest, .inr (.inr (.inl ⟨t, h⟩))⟩
    | wait gaps =>
      rw [step_wait s gaps rest hi, waitStep_eq] at h
      exact ⟨_, .inr (.inr (.inr ⟨_, (Host.Outcome.next.inj h).symm⟩))⟩

/- The address map. -/

theorem regAt_eq_some (off : Nat) (r : Reg) : regAt off = some r ↔ off = regOffset r := by
  constructor
  · intro h
    unfold regAt at h
    split at h <;> simp at h <;> subst h <;> rfl
  · rintro rfl; cases r <;> rfl

theorem locate_regOffset (r : Reg) : locate (regOffset r) = .reg r := by cases r <;> decide

theorem regOffset_lt (r : Reg) : regOffset r < 0x400 := by cases r <;> decide

theorem regOffset_aligned (r : Reg) : regOffset r % 4 = 0 := by cases r <;> decide

/- The map, window by window (R62). -/

theorem locate_freq (off : Nat) (h1 : 0x400 ≤ off) (h2 : off < 0x800) : locate off = .freq ((off - 0x400) / 4) := by
  simp (disch := omega) only [locate, if_pos, if_neg]

theorem locate_low (off : Nat) (h1 : 0x800 ≤ off) (h2 : off < 0x1000) : locate off = .reserved := by
  simp (disch := omega) only [locate, if_pos, if_neg]

theorem locate_trace (off : Nat) (h1 : 0x1000 ≤ off) (h2 : off < 0x1FF0) : locate off = .trace ((off - 0x1000) / 16) (off % 16 / 4) := by
  simp (disch := omega) only [locate, if_pos, if_neg]

theorem locate_afterTrace (off : Nat) (h1 : 0x1FF0 ≤ off) (h2 : off < 0x2000) : locate off = .reserved := by
  simp (disch := omega) only [locate, if_pos, if_neg]

theorem locate_node (off : Nat) (h1 : 0x2000 ≤ off) (h2 : off < 0x3FF0) : locate off = .node ((off - 0x2000) / 16) (off % 16 / 4) := by
  simp (disch := omega) only [locate, if_pos, if_neg]

theorem locate_afterNode (off : Nat) (h1 : 0x3FF0 ≤ off) (h2 : off < 0x4000) : locate off = .reserved := by
  simp (disch := omega) only [locate, if_pos, if_neg]

theorem locate_code (off : Nat) (h1 : 0x4000 ≤ off) (h2 : off < 0x8000) : locate off = codeSlot ((off - 0x4000) / 64) (off % 64) := by
  simp (disch := omega) only [locate, if_pos, if_neg]

theorem locate_afterCode (off : Nat) (h1 : 0x8000 ≤ off) (h2 : off < 0x10000) : locate off = .reserved := by
  simp (disch := omega) only [locate, if_pos, if_neg]

theorem locate_data (off : Nat) (h1 : 0x10000 ≤ off) (h2 : off < 0x20000) : locate off = .data ((off - 0x10000) / 4) := by
  simp (disch := omega) only [locate, if_pos, if_neg]

theorem locate_pack (off : Nat) (h1 : 0x20000 ≤ off) (h2 : off < 0x30000) : locate off = .pack ((off - 0x20000) / 4) := by
  simp (disch := omega) only [locate, if_pos, if_neg]

theorem locate_high (off : Nat) (h1 : 0x30000 ≤ off) : locate off = .reserved := by
  simp (disch := omega) only [locate, if_neg]

theorem locate_register (off : Nat) (h : off < 0x400) :
    (∃ r, off = regOffset r ∧ locate off = .reg r) ∨ ((∀ r, off ≠ regOffset r) ∧ locate off = .reserved) := by
  rw [locate, if_pos h]
  cases hr : regAt off with
  | some r => exact .inl ⟨r, (regAt_eq_some off r).mp hr, rfl⟩
  | none => exact .inr ⟨fun r he => by rw [(regAt_eq_some off r).mpr he] at hr; simp at hr, rfl⟩

theorem locate_ne_reg (off : Nat) (r : Reg) (h : 0x400 ≤ off) : locate off ≠ .reg r := by
  rw [locate, if_neg (by omega)]
  repeat' split
  all_goals first | exact Location.noConfusion | skip
  unfold codeSlot
  repeat' split
  all_goals exact Location.noConfusion

theorem codeSlot_zero (k : Nat) : codeSlot k 0 = .codeLen k := rfl

theorem codeSlot_val (k w : Nat) (h1 : 1 ≤ w) (h2 : w < 0x24) : codeSlot k w = .codeVal k ((w - 4) / 4) := by
  rw [codeSlot, if_neg (by omega), if_pos h2]

theorem codeSlot_reserved (k w : Nat) (h : 0x24 ≤ w) : codeSlot k w = .reserved := by
  rw [codeSlot, if_neg (by omega), if_neg (by omega)]

/-- Every place an offset of the aperture can lead to (R62, R65). -/
theorem locate_cases (off : Nat) :
    (∃ r, off = regOffset r ∧ locate off = .reg r) ∨
    (∃ k < 256, 0x400 ≤ off ∧ off < 0x800 ∧ locate off = .freq k) ∨
    (∃ k w, 0x1000 ≤ off ∧ off < 0x1FF0 ∧ locate off = .trace k w) ∨
    (∃ i w, 0x2000 ≤ off ∧ off < 0x3FF0 ∧ locate off = .node i w) ∨
    (∃ k < 256, 0x4000 ≤ off ∧ off < 0x8000 ∧ locate off = .codeLen k) ∨
    (∃ k < 256, ∃ j, 0x4000 ≤ off ∧ off < 0x8000 ∧ locate off = .codeVal k j) ∨
    (∃ w < 16384, 0x10000 ≤ off ∧ off < 0x20000 ∧ locate off = .data w) ∨
    (∃ w < 16384, 0x20000 ≤ off ∧ off < 0x30000 ∧ locate off = .pack w) ∨
    ((∀ r, off ≠ regOffset r) ∧ locate off = .reserved) := by
  have hnr : ∀ r, 0x400 ≤ off → off ≠ regOffset r := fun r h e => by have := regOffset_lt r; omega
  by_cases h1 : off < 0x400
  · rcases locate_register off h1 with h | h
    · exact .inl h
    · exact .inr (.inr (.inr (.inr (.inr (.inr (.inr (.inr h)))))))
  have hres : locate off = .reserved → ((∀ r, off ≠ regOffset r) ∧ locate off = .reserved) :=
    fun h => ⟨fun r => hnr r (by omega), h⟩
  by_cases h2 : off < 0x800
  · exact .inr (.inl ⟨_, by omega, by omega, h2, locate_freq off (by omega) h2⟩)
  by_cases h3 : off < 0x1000
  · exact .inr (.inr (.inr (.inr (.inr (.inr (.inr (.inr (hres (locate_low off (by omega) h3)))))))))
  by_cases h4 : off < 0x1FF0
  · exact .inr (.inr (.inl ⟨_, _, by omega, h4, locate_trace off (by omega) h4⟩))
  by_cases h5 : off < 0x2000
  · exact .inr (.inr (.inr (.inr (.inr (.inr (.inr (.inr (hres (locate_afterTrace off (by omega) h5)))))))))
  by_cases h6 : off < 0x3FF0
  · exact .inr (.inr (.inr (.inl ⟨_, _, by omega, h6, locate_node off (by omega) h6⟩)))
  by_cases h7 : off < 0x4000
  · exact .inr (.inr (.inr (.inr (.inr (.inr (.inr (.inr (hres (locate_afterNode off (by omega) h7)))))))))
  by_cases h8 : off < 0x8000
  · have hc := locate_code off (by omega) h8
    by_cases hz : off % 64 = 0
    · rw [hz, codeSlot_zero] at hc
      exact .inr (.inr (.inr (.inr (.inl ⟨_, by omega, by omega, h8, hc⟩))))
    · by_cases hv : off % 64 < 0x24
      · rw [codeSlot_val _ _ (by omega) hv] at hc
        exact .inr (.inr (.inr (.inr (.inr (.inl ⟨_, by omega, _, by omega, h8, hc⟩)))))
      · rw [codeSlot_reserved _ _ (by omega)] at hc
        exact .inr (.inr (.inr (.inr (.inr (.inr (.inr (.inr (hres hc))))))))
  by_cases h9 : off < 0x10000
  · exact .inr (.inr (.inr (.inr (.inr (.inr (.inr (.inr (hres (locate_afterCode off (by omega) h9)))))))))
  by_cases h10 : off < 0x20000
  · exact .inr (.inr (.inr (.inr (.inr (.inr (.inl ⟨_, by omega, by omega, h10, locate_data off (by omega) h10⟩))))))
  by_cases h11 : off < 0x30000
  · exact .inr (.inr (.inr (.inr (.inr (.inr (.inr (.inl ⟨_, by omega, by omega, h11,
      locate_pack off (by omega) h11⟩)))))))
  · exact .inr (.inr (.inr (.inr (.inr (.inr (.inr (.inr (hres (locate_high off (by omega))))))))))

theorem locate_eq_reg (off : Nat) (r : Reg) : locate off = .reg r ↔ off = regOffset r := by
  constructor
  · intro h
    by_cases hl : off < 0x400
    · rcases locate_register off hl with ⟨q, e, hq⟩ | ⟨-, hq⟩
      · rw [h] at hq
        exact (Location.reg.inj hq) ▸ e
      · rw [h] at hq; cases hq
    · exact absurd h (locate_ne_reg off r (by omega))
  · rintro rfl; exact locate_regOffset r

theorem writableWhileBusy_iff (off : Nat) :
    (locate off).writableWhileBusy = true ↔ off = 0x00C ∨ off = 0x018 ∨ off = 0x01C := by
  constructor
  · intro h
    unfold Location.writableWhileBusy at h
    split at h
    · rename_i r hr
      have := (locate_eq_reg off r).mp hr
      cases r <;> simp at h <;> simp [this, regOffset]
    all_goals simp at h
  · rintro (rfl | rfl | rfl) <;> decide

theorem readableWhileBusy_iff (off : Nat) :
    (locate off).readableWhileBusy = true ↔ off ∈ [0x000, 0x004, 0x008, 0x00C, 0x014, 0x018, 0x01C] := by
  constructor
  · intro h
    unfold Location.readableWhileBusy at h
    split at h
    · rename_i r hr
      have := (locate_eq_reg off r).mp hr
      cases r <;> simp at h <;> simp [this, regOffset]
    all_goals simp at h
  · intro h
    simp only [List.mem_cons, List.not_mem_nil, or_false] at h
    rcases h with rfl | rfl | rfl | rfl | rfl | rfl | rfl <;> decide

end Sys2Proof.Machine
end

