-- ==== Sys2Proof/Laws/Invariants.lean ====
section
/-! SUPPORT. What the single operations keep of the invariants of Safety.lean: the canonical form of the RAMs under
    every
operation that writes one, and the consistency of the tree state under every command. -/

namespace Sys2Proof.Machine

/-- The walk of GENC ends on a whole tree (R160). -/
theorem treeCodes_neverStuck (s : State) (h : s.TreeWf) : NeverStuck s.treeCodes := by
  by_cases h1 : s.numLeaves = 1#9
  · rw [State.treeCodes, if_pos h1]; exact .ok _
  · have hn : 2 ≤ s.numLeaves.toNat := by
      have := h.1
      have h0 : s.numLeaves.toNat ≠ 1 := fun e => h1 (BitVec.eq_of_toNat_eq (by rw [e]; rfl))
      omega
    rw [h.treeCodes hn]; exact .ok _

/-- GENC is never stuck on a consistent tree state (R96). -/
theorem genc_neverStuck (s : State) (h : s.treeValid = true → s.TreeWf) : NeverStuck (genc s) := by
  unfold genc
  split
  · exact .raise _ _
  · rename_i hv
    have hv : s.treeValid = true := by simpa using hv
    exact .bind _ _ (treeCodes_neverStuck s (h hv)) fun _ _ => .ok _

/-- A host write keeps the canonical form (R45). -/
theorem writeLocation_memCanonical (s : State) (off : Nat) (v : Word) (h : s.MemCanonical) :
    (s.writeLocation (locate off) v).MemCanonical := by
  have ⟨h1, h2, h3, h4, h5, h6⟩ := h
  rcases locate_cases off with ⟨r, -, e⟩ | ⟨k, hk, -, -, e⟩ | ⟨k, w, -, -, e⟩ | ⟨k, w, -, -, e⟩ | ⟨k, hk, -, -, e⟩ |
      ⟨k, hk, j, -, -, e⟩ |
    ⟨w, hw, -, -, e⟩ | ⟨w, hw, -, -, e⟩ | ⟨-, e⟩ <;> rw [e]
  · cases r <;> exact h
  · exact ⟨ramWrite_wf _ _ _ _ _ h1 hk, h2, h3, h4, h5, h6⟩
  · exact h
  · exact h
  · exact ⟨h1, h2, h3, ramWrite_wf _ _ _ _ _ h4 hk, h5, h6⟩
  · exact ⟨h1, h2, h3, ramWrite_wf _ _ _ _ _ h4 hk, h5, h6⟩
  · exact ⟨h1, h2, h3, h4, memSetWord_wf _ _ _ h5 hw, h6⟩
  · exact ⟨h1, h2, h3, h4, h5, memSetWord_wf _ _ _ h6 hw⟩
  · exact h

theorem walkTree_sym (s : State) (f i d v : Nat) (r : List (Nat × CodeEntry))
    (h : s.walkTree f i d v = .ok r) : ∀ c ∈ r, c.1 < 256 := by
  induction f generalizing i d v r with
  | zero => cases h
  | succ f ih =>
    unfold State.walkTree at h
    dsimp only at h
    split at h
    · cases h; simp; exact (s.nodeAt i).sym.isLt
    · obtain ⟨l, hl, h⟩ := (CmdM.bind_eq_ok _ _ _).mp h
      obtain ⟨q, hq, h⟩ := (CmdM.bind_eq_ok _ _ _).mp h
      cases h
      intro c hc
      rcases List.mem_append.mp hc with hc | hc
      · exact ih _ _ _ _ hl c hc
      · exact ih _ _ _ _ hq c hc

theorem genc_wf (s t : State) (h : genc s = .ok t) : ramWf 256 CodeEntry.zero t.code = true := by
  unfold genc at h
  split at h
  · cases h
  · obtain ⟨c, hc, h⟩ := (CmdM.bind_eq_ok _ _ _).mp h
    cases h
    apply codeRamOf_wf
    unfold State.treeCodes at hc
    split at hc
    · cases hc; simp; exact (s.nodeAt 0).sym.isLt
    · exact walkTree_sym _ _ _ _ _ _ hc

theorem build_wf (s t : State) (h : build s = .ok t) : ramWf 511 Node.zero t.node = true ∧ ramWf 255 TraceEntry.zero
    t.trace = true := by
  have hl := presentSymbols_length s
  obtain ⟨-, -, rfl⟩ := (build_eq_ok s t).mp h
  have hm : s.merges.length = s.presentSymbols.length - 1 := by rw [merges_eq]; simp
  exact ⟨ramOfList_wf _ _ _ (by simp; omega), ramOfList_wf _ _ _ (by simp; omega)⟩

theorem pack_wf (s t : State) (hs : Memory.wf s.pack = true) (h : pack s = .ok t) : Memory.wf t.pack = true := by
  obtain ⟨-, -, hl, rfl⟩ := (pack_eq_ok s t).mp h
  exact memWrite_wf _ _ _ hs (by simp [ceil8_eq]; omega)

theorem commitOutput_wf (s : State) (out : List Byte) (hs : Memory.wf s.data = true)
    (hl : out.length ≤ 65536) : Memory.wf (s.commitOutput out).data = true :=
  memWrite_wf _ _ _ hs (by omega)

theorem hacc_wf (s t : State) (h : hacc s = .ok t) : ramWf 256 0#32 t.freq = true := by
  unfold hacc at h
  obtain ⟨-, -, h⟩ := (CmdM.bind_eq_ok _ _ _).mp h
  split at h
  · cases h
  · cases h; exact ramOfList_wf _ _ _ (by simp)

/-- What each command writes keeps the canonical form. -/
theorem commandRule_memCanonical (i : Instr) (s t : State) (h : s.MemCanonical)
    (hr : commandRule i s = .ok t) : t.MemCanonical := by
  have ⟨h1, h2, h3, h4, h5, h6⟩ := h
  cases i <;> simp only [commandRule] at hr
  · cases hr; exact h
  · cases hr; exact h
  · cases hr; exact ⟨by simp, h2, h3, h4, h5, h6⟩
  · have := hacc_wf s t hr
    rw [hacc_frame _ _ hr]; exact ⟨this, h2, h3, h4, h5, h6⟩
  · have := build_wf s t hr
    rw [build_frame _ _ hr]; exact ⟨h1, this.1, this.2, h4, h5, h6⟩
  · have := genc_wf s t hr
    rw [genc_frame _ _ hr]; exact ⟨h1, h2, h3, this, h5, h6⟩
  · cases hr; exact ⟨h1, h2, h3, by simp, h5, h6⟩
  · have := pack_wf s t h6 hr
    rw [pack_frame _ _ hr]; exact ⟨h1, h2, h3, h4, h5, this⟩
  · obtain ⟨out, ho, rfl⟩ := (unpack_eq_ok s t).mp hr
    exact ⟨h1, h2, h3, h4, commitOutput_wf s out h5 ((unpackOutput_eq_ok s out).mp ho).2.1, h6⟩
  · rw [crcCommand_frame _ _ hr]; exact ⟨h1, h2, h3, h4, h5, h6⟩
  · obtain ⟨-, ⟨-, rfl⟩ | ⟨-, hr⟩⟩ := (encodeCommand_eq_ok s t).mp hr
    · exact ⟨by simp [State.emptyArtifact], by simp [State.emptyArtifact], by simp [State.emptyArtifact], by simp
        [State.emptyArtifact], h5, h6⟩
    · unfold encodeNonEmpty at hr
      obtain ⟨a, ha, hr⟩ := (CmdM.bind_eq_ok _ _ _).mp hr
      obtain ⟨b, hb, hr⟩ := (CmdM.bind_eq_ok _ _ _).mp hr
      obtain ⟨c, hc, hr⟩ := (CmdM.bind_eq_ok _ _ _).mp hr
      cases hr
      have fa := build_frame _ _ ha
      have fb := genc_frame _ _ hb
      have fc := pack_frame _ _ hc
      have wa := build_wf _ _ ha
      have wb := genc_wf _ _ hb
      have hbp : b.pack = s.pack := by rw [fb, fa]
      have wc := pack_wf _ _ (by rw [hbp]; exact h6) hc
      refine ⟨?_, ?_, ?_, ?_, ?_, wc⟩
      · show ramWf _ _ c.freq = _; rw [fc, fb, fa]; exact ramOfList_wf _ _ _ (by simp)
      · show ramWf _ _ c.node = _; rw [fc, fb]; exact wa.1
      · show ramWf _ _ c.trace = _; rw [fc, fb]; exact wa.2
      · show ramWf _ _ c.code = _; rw [fc]; exact wb
      · show Memory.wf c.data = _; rw [fc, fb, fa]; exact h5
  · obtain ⟨out, ho, -, rfl⟩ := (decodeCommand_eq_ok s t).mp hr
    exact ⟨h1, h2, h3, h4, commitOutput_wf s out h5 ((unpackOutput_eq_ok s out).mp ho).2.1, h6⟩

theorem resetBlock_memCanonical (s : State) : s.resetBlock.MemCanonical := by
  simp [State.MemCanonical, State.resetBlock, State.reset, Memory.wf]

theorem resetBlock_engineConsistent (s : State) : s.resetBlock.EngineConsistent := by
  simp [State.EngineConsistent, State.resetBlock, State.reset, State.AsAfterReset]

theorem resetBlock_treeConsistent (s : State) : s.resetBlock.TreeConsistent := by simp [State.TreeConsistent,
    State.resetBlock, State.reset]

/-- A successful BUILD leaves a consistent tree state (R143). -/
theorem build_treeConsistent (s t : State) (h : build s = .ok t) : t.TreeConsistent := by
  have b := built_of_ok s t h
  have hv : t.treeValid = true := by obtain ⟨-, -, rfl⟩ := (build_eq_ok s t).mp h; rfl
  exact ⟨fun _ => b.treeWf, fun e => by rw [hv] at e; cases e⟩

/-- What each command writes keeps the tree state consistent. -/
theorem commandRule_treeConsistent (i : Instr) (s t : State) (h : s.TreeConsistent)
    (hr : commandRule i s = .ok t) : t.TreeConsistent := by
  cases i <;> simp only [commandRule] at hr
  · cases hr; exact h
  · cases hr; exact h
  · cases hr; exact h
  · rw [hacc_frame _ _ hr]; exact h
  · exact build_treeConsistent s t hr
  · rw [genc_frame _ _ hr]; exact h
  · cases hr; exact h
  · rw [pack_frame _ _ hr]; exact h
  · rw [unpack_frame _ _ hr]; exact h
  · rw [crcCommand_frame _ _ hr]; exact h
  · obtain ⟨-, ⟨-, rfl⟩ | ⟨-, hr⟩⟩ := (encodeCommand_eq_ok s t).mp hr
    · simp [State.emptyArtifact, State.TreeConsistent]
    · unfold encodeNonEmpty at hr
      obtain ⟨a, ha, hr⟩ := (CmdM.bind_eq_ok _ _ _).mp hr
      obtain ⟨b, hb, hr⟩ := (CmdM.bind_eq_ok _ _ _).mp hr
      obtain ⟨c, hc, hr⟩ := (CmdM.bind_eq_ok _ _ _).mp hr
      cases hr
      have ht := build_treeConsistent _ _ ha
      show State.TreeConsistent { c with crcResult := _ }
      rw [pack_frame _ _ hc, genc_frame _ _ hb]
      exact ht
  · rw [decodeCommand_frame _ _ hr]; exact h

end Sys2Proof.Machine
end

