-- ==== Sys2Proof/Laws/PerInstr.lean ====
section
/-! SUPPORT. Statements made per command: every command is well formed and its word decodes back to it, in the form the
opcode table numbers it too. -/

/-- The command is well formed, its word decodes to it, and the table's 32 bits of that word do (R90 to R92). -/
def Sys2Proof.Laws.RoundTrip.Statement (i : Sys2Proof.Instr) : Prop :=
  i.wf = true ∧ Sys2Proof.decode (Sys2Proof.encode i) = .ok i ∧
  Sys2Proof.decodeTableWord 32 (Sys2Proof.encode i).toNat = some i

namespace Sys2Proof.Laws.RoundTrip

theorem nop : Statement .nop := by unfold Statement; decide
theorem srst : Statement .srst := by unfold Statement; decide
theorem hclr : Statement .hclr := by unfold Statement; decide
theorem hacc : Statement .hacc := by unfold Statement; decide
theorem build : Statement .build := by unfold Statement; decide
theorem genc : Statement .genc := by unfold Statement; decide
theorem cclr : Statement .cclr := by unfold Statement; decide
theorem pack : Statement .pack := by unfold Statement; decide
theorem unpack : Statement .unpack := by unfold Statement; decide
theorem crc : Statement .crc := by unfold Statement; decide
theorem encode : Statement .encode := by unfold Statement; decide
theorem decode : Statement .decode := by unfold Statement; decide

end Sys2Proof.Laws.RoundTrip
end

