-- ==== Sys2Proof/Laws/Reads.lean ====
section
/-! SUPPORT. What each command reads (the column "reads" of 30_encoding.md rule R92): its results agree on two states
    that
agree on that. -/

namespace Sys2Proof.Machine

/-- Two commands whose results agree through F end alike. -/
theorem finish_agree {β : Type} (F : State → β) (s s' t t' : State) (r r' : CmdM State) (hr : r.map F = r'.map F)
    (h : finish s r = .next t) (h' : finish s' r' = .next t') :
   t.errCode = t'.errCode ∧ t.errInfo = t'.errInfo ∧ t.err = t'.err ∧ (t.err = false → ∃ u u', r = .ok u ∧ r' = .ok
       u' ∧ t = u.completeOk ∧ t' = u'.completeOk ∧ F u = F u') ∧ (t.err = true → ∃ c i, t = s.commitError c i ∧ t' =
       s'.commitError c i) := by
  rcases r with (⟨c, i⟩ | f) | u <;> rcases r' with (⟨c', i'⟩ | f') | u' <;> simp [Except.map] at hr <;> simp
      [finish] at h h'
  · obtain ⟨rfl, rfl⟩ := hr; subst h; subst h'; refine ⟨rfl, rfl, rfl, by simp, fun _ => ⟨_, _, rfl, rfl⟩⟩
  · subst h; subst h'; refine ⟨rfl, rfl, rfl, fun _ => ⟨_, _, rfl, rfl, rfl, rfl, hr⟩, by simp⟩

theorem input_congr (s s' : State) (h1 : s.dataLen = s'.dataLen) (h2 : s.data = s'.data) : s.input = s'.input := by
    simp only [State.input, h1, h2]
theorem check_congr (s s' : State) (h1 : s.dataLen = s'.dataLen) : s.checkDataLen = s'.checkDataLen := by simp only
    [State.checkDataLen, h1]

theorem CmdM.map_bind {α β γ : Type} (x : CmdM α) (f : α → CmdM β) (g : β → γ) : (x >>= f).map g = x >>= fun a =>
    (f a).map g := by
  cases x <;> rfl
theorem CmdM.bind_agree {α β : Type} (x x' : CmdM α) (f f' : α → CmdM β) (h : x = x') (hf : ∀ a, f a = f' a) :
    (x >>= f) = (x' >>= f') := by
  subst h; congr; funext a; exact hf a

theorem hacc_congr (s s' : State) (h1 : s.dataLen = s'.dataLen) (h2 : s.data = s'.data) (h3 : s.freq = s'.freq) :
    (hacc s).map (·.freq) = (hacc s').map (·.freq) := by
  have ha : s.accumulated = s'.accumulated := by funext k; simp only [State.accumulated, State.freqAt, h3,
      input_congr s s' h1 h2]
  unfold hacc
  rw [CmdM.map_bind, CmdM.map_bind, check_congr s s' h1, ha]
  congr; funext _
  split <;> rfl

def treeOut (u : State) := (u.node, u.trace, u.numLeaves, u.numSteps, u.root, u.totalWeight, u.treeValid)
theorem build_congr (s s' : State) (h : s.freq = s'.freq) : (build s).map treeOut = (build s').map treeOut := by
  have h1 : s.presentSymbols = s'.presentSymbols := by cases s; cases s'; dsimp only at h; subst h; rfl
  have h2 : s.freqTotal = s'.freqTotal := by simp only [State.freqTotal, State.freqAt, h]
  have h3 : s.leafNode = s'.leafNode := by funext k; simp only [State.leafNode, State.freqAt, h]
  have h4 : s.merges = s'.merges := by simp only [State.merges, State.leafKeys, h1, State.freqAt, h]
  unfold build
  simp only [h1, h2, h3, h4]
  split
  · rfl
  split
  · rfl
  · rfl

theorem walkTree_congr (s s' : State) (h : s.node = s'.node) (n i d v : Nat) : s.walkTree n i d v = s'.walkTree n i d
    v := by
  induction n generalizing i d v with
  | zero => rfl
  | succ n ih =>
    have hn : s.nodeAt = s'.nodeAt := by funext k; simp only [State.nodeAt, h]
    have ih' : s.walkTree n = s'.walkTree n := by funext a b c; exact ih a b c
    unfold State.walkTree; rw [hn, ih']

theorem genc_congr (s s' : State) (h1 : s.treeValid = s'.treeValid) (h2 : s.node = s'.node)
    (h3 : s.numLeaves = s'.numLeaves) (h4 : s.root = s'.root) : (genc s).map (fun u => (u.code, u.maxLen)) =
    (genc s').map (fun u => (u.code, u.maxLen)) := by
  have ht : s.treeCodes = s'.treeCodes := by simp only [State.treeCodes, h3, h4, State.nodeAt, h2, walkTree_congr s
      s' h2]
  unfold genc
  rw [h1]
  split
  · rfl
  · rw [CmdM.map_bind, CmdM.map_bind, ht]; rfl

theorem packScan_congr (s s' : State) (h : s.code = s'.code) (i n : Nat) (acc : List Bool)
    (l : List Byte) : s.packScan i n acc l = s'.packScan i n acc l := by
  induction l generalizing i n acc with
  | nil => rfl
  | cons b l ih =>
    have hn : s.codeAt = s'.codeAt := by funext k; simp only [State.codeAt, h]
    have hb : s.codeBits = s'.codeBits := by funext k; simp only [State.codeBits, hn]
    unfold State.packScan; rw [hn, hb, ih]

def packOut (u : State) := (u.bitCount, u.packLen, (List.range u.packLen.toNat).map u.packAt)

theorem pack_congr (s s' : State) (h1 : s.dataLen = s'.dataLen) (h2 : s.data = s'.data) (h3 : s.code = s'.code) :
    (pack s).map packOut = (pack s').map packOut := by
  unfold pack
  rw [CmdM.map_bind s.checkDataLen, CmdM.map_bind s'.checkDataLen]
  refine CmdM.bind_agree s.checkDataLen _ _ _ (check_congr s s' h1) fun _ => ?_
  rw [CmdM.map_bind, CmdM.map_bind]
  refine CmdM.bind_agree _ _ _ _ (by rw [packScan_congr s s' h3, input_congr s s' h1 h2]) fun bits => ?_
  simp only [Except.map, packOut]
  congr 3
  refine List.map_congr_left fun j hj => ?_
  simp only [State.packAt, ramRead_memWrite, bytesOfBits_length]
  simp at hj ⊢
  have := Nat.mod_le (ceil8 bits.length) 4294967296
  rw [if_pos (by omega), if_pos (by omega)]

theorem unpackOutput_congr (s s' : State) (h1 : s.packLen = s'.packLen) (h2 : s.bitCount = s'.bitCount)
    (h3 : s.pack = s'.pack) (h4 : s.code = s'.code) : unpackOutput s = unpackOutput s' := by
  have hn : s.codeAt = s'.codeAt := by funext k; simp only [State.codeAt, h4]
  have hb : s.codeBits = s'.codeBits := by funext k; simp only [State.codeBits, hn]
  have ht : s.codeTable = s'.codeTable := by unfold State.codeTable; rw [hn, hb]
  have hq : s.packBit = s'.packBit := by funext k; simp only [State.packBit, State.packAt, h3]
  have hp : s.packedBits = s'.packedBits := by funext B; unfold State.packedBits; rw [hq]
  simp only [unpackOutput, State.checkCodeTable, ht, hp, h1, h2]

def dataOut (u : State) := (u.dataLen, (List.range u.dataLen.toNat).map u.dataAt)
theorem commit_out (s s' : State) (out : List Byte) : dataOut (s.commitOutput out) = dataOut (s'.commitOutput out) := by
  simp only [dataOut, State.commitOutput]
  congr 1
  refine List.map_congr_left fun j hj => ?_
  simp only [State.dataAt, ramRead_memWrite]
  simp at hj ⊢
  have := Nat.mod_le (out.length) 4294967296
  rw [if_pos (by omega), if_pos (by omega)]

theorem unpack_congr (s s' : State) (h1 : s.packLen = s'.packLen) (h2 : s.bitCount = s'.bitCount)
    (h3 : s.pack = s'.pack) (h4 : s.code = s'.code) : (unpack s).map dataOut = (unpack s').map dataOut := by
  unfold unpack
  rw [CmdM.map_bind, CmdM.map_bind]
  refine CmdM.bind_agree _ _ _ _ (unpackOutput_congr s s' h1 h2 h3 h4) fun out => ?_
  simp only [Except.map, commit_out s s']

theorem decode_congr (s s' : State) (h1 : s.packLen = s'.packLen) (h2 : s.bitCount = s'.bitCount)
    (h3 : s.pack = s'.pack) (h4 : s.code = s'.code) (h5 : s.crcExpect = s'.crcExpect) : (decodeCommand s).map
    (fun u => (dataOut u, u.crcResult)) = (decodeCommand s').map (fun u => (dataOut u, u.crcResult)) := by
  unfold decodeCommand
  rw [CmdM.map_bind, CmdM.map_bind]
  refine CmdM.bind_agree _ _ _ _ (unpackOutput_congr s s' h1 h2 h3 h4) fun out => ?_
  rw [h5]
  split
  · rfl
  · have := commit_out s s' out
    simp only [Except.map, Except.ok.injEq, Prod.mk.injEq, and_true]
    exact this

theorem crc_congr (s s' : State) (h1 : s.dataLen = s'.dataLen) (h2 : s.data = s'.data) : (crcCommand s).map
    (·.crcResult) = (crcCommand s').map (·.crcResult) := by
  unfold crcCommand
  rw [CmdM.map_bind, CmdM.map_bind]
  refine CmdM.bind_agree _ _ _ _ (check_congr s s' h1) fun _ => ?_
  simp only [Except.map, input_congr s s' h1 h2]

def encOut (u : State) := (u.freq, treeOut u, u.code, u.maxLen, packOut u, u.crcResult)

theorem CmdM.bind_map_agree {α α' β β' γ δ : Type} (F : α → γ) (x : CmdM α) (x' : CmdM α') (F' : α' → γ)
    (h : x.map F = x'.map F') (f : α → CmdM β) (f' : α' → CmdM β') (G : β → δ) (G' : β' → δ)
   (hf : ∀ a a', x = .ok a → x' = .ok a' → F a = F' a' → (f a).map G = (f' a').map G') : (x >>= f).map G =
       (x' >>= f').map G' := by
  rcases x with e | a <;> rcases x' with e' | a' <;> simp [Except.map] at h
  · subst h; rfl
  · exact hf a a' rfl rfl h

theorem encode_congr (s s' : State) (h1 : s.dataLen = s'.dataLen) (h2 : s.data = s'.data) :
    (encodeCommand s).map encOut = (encodeCommand s').map encOut := by
  unfold encodeCommand
  rw [CmdM.map_bind, CmdM.map_bind]
  refine CmdM.bind_agree _ _ _ _ (check_congr s s' h1) fun _ => ?_
  rw [h1]
  split
  · rfl
  · unfold encodeNonEmpty
    have hi := input_congr s s' h1 h2
    refine CmdM.bind_map_agree treeOut _ _ treeOut (build_congr _ _ (by simp [hi])) _ _ _ _ fun a a' ha ha' e => ?_
    have fa := build_frame _ _ ha
    have fa' := build_frame _ _ ha'
    simp only [treeOut, Prod.mk.injEq] at e
    obtain ⟨e1, e2, e3, e4, e5, e6, e7⟩ := e
    refine CmdM.bind_map_agree _ _ _ _ (genc_congr a a' e7 e1 e3 e5) _ _ _ _ fun b b' hb hb' eb => ?_
    have fb := genc_frame _ _ hb
    have fb' := genc_frame _ _ hb'
    simp only [Prod.mk.injEq] at eb
    refine CmdM.bind_map_agree _ _ _ _ (pack_congr b b' ?_ ?_ eb.1) _ _ _ _ fun c c' hc hc' ec => ?_
    · rw [fb, fb', fa, fa']; exact h1
    · rw [fb, fb', fa, fa']; exact h2
    · have fc := pack_frame _ _ hc
      have fc' := pack_frame _ _ hc'
      simp only [Except.map, Except.ok.injEq, encOut, treeOut, Prod.mk.injEq]
      simp only [packOut, Prod.mk.injEq] at ec ⊢
      refine ⟨?_, ⟨?_, ?_, ?_, ?_, ?_, ?_, ?_⟩, ?_, ?_, ec, by rw [hi]⟩
      · rw [fc, fc', fb, fb', fa, fa']; simp [hi]
      · rw [fc, fc', fb, fb']; exact e1
      · rw [fc, fc', fb, fb']; exact e2
      · rw [fc, fc', fb, fb']; exact e3
      · rw [fc, fc', fb, fb']; exact e4
      · rw [fc, fc', fb, fb']; exact e5
      · rw [fc, fc', fb, fb']; exact e6
      · rw [fc, fc', fb, fb']; exact e7
      · rw [fc, fc']; exact eb.1
      · rw [fc, fc']; exact eb.2

theorem range_map_eq {α} (n n' : Nat) (f g : Nat → α) (h : (List.range n).map f = (List.range n').map g) : ∀ j < n, f
    j = g j := by
  have hl := congrArg List.length h
  simp at hl; subst hl
  intro j hj
  have := congrArg (fun l => l[j]?) h
  simpa [hj] using this

end Sys2Proof.Machine
end

