-- ==== Sys2Proof/Tests/Slice0.lean ====
section
/-! SUPPORT. The model's own tests: decoding, well-formedness, one step of each command with the expected values of
95_test_vectors.md, bus transactions, and for each statement of Certificates/Slice0/Obligations.lean with hypotheses a
`witness_` theorem that shows a concrete state and operands meeting them. -/

namespace Sys2Proof.Tests

-- One theorem after the other: the kernel evaluations below would else wait on each other in many threads at once.
set_option Elab.async false

open Sys2Proof.Machine

/- ### Helpers -/

/-- The state after a step that answers `next`, else the reset state. -/
def after (o : Host.Outcome State Fault Refusal) : State :=
  match o with
  | .next t => t
  | .fault _ | .refused _ => State.reset

/-- Whether a step answers `next`. -/
def goesOn (o : Host.Outcome State Fault Refusal) : Bool :=
  match o with
  | .next _ => true
  | .fault _ | .refused _ => false

/-- The block after reset and the end of INIT. -/
def idle : State := { State.reset with phase := .idle }

/-- The block with the command word w accepted. -/
def busy (w : Word) : State := { idle with phase := .busy, pending := w, lastCmd := w }

/-- The state with turns waiting. -/
def turns (s : State) (l : List Event) : State := { s with inbox := l }

/-- Byte values as bytes. -/
def bytes (l : List Nat) : List Byte := l.map (BitVec.ofNat 8)

/-- An idle block with `DATA` and `DATA_LEN` loaded. -/
def loaded (l : List Byte) : State := { idle with data := memWrite [] 0 l, dataLen := BitVec.ofNat 32 l.length }

/-- "ABRACADABRA". -/
def abra : List Byte := bytes [0x41, 0x42, 0x52, 0x41, 0x43, 0x41, 0x44, 0x41, 0x42, 0x52, 0x41]

/-- The codes of vector G1: A "0", B "110", C "100", D "101", R "111". -/
def codesG1 : Ram CodeEntry :=
  [(0x41, { len := 1, val := 0 }), (0x42, { len := 3, val := 6 }), (0x43, { len := 3, val := 4 }),
   (0x44, { len := 3, val := 5 }), (0x52, { len := 3, val := 7 })]

/-- An idle block with a code table and a packed artifact. -/
def artifact (codes : Ram CodeEntry) (packed : List Byte) (bits len : Nat) : State :=
  { idle with code := codes, pack := memWrite [] 0 packed, bitCount := BitVec.ofNat 32 bits,
              packLen := BitVec.ofNat 32 len }

/-- The artifact of vector K1: "ABRACADABRA" packed with the codes of G1. -/
def abraPacked : State := artifact codesG1 (bytes [0x6E, 0x8A, 0xDC]) 23 3

/-- The error report: `ERR_CODE` and `ERR_INFO`. -/
def report (o : Host.Outcome State Fault Refusal) : ErrCode × Word := ((after o).errCode, (after o).errInfo)

/- ### Decoding (30_encoding.md rules R90, R92, R93) -/

theorem test_decode_control :
    decode 0b00000000000000000000000000000000#32 = .ok .nop ∧
    decode 0b00000000000000000000000000000001#32 = .ok .srst := by decide

theorem test_decode_histogram :
    decode 0b00000000000000000000000000010000#32 = .ok .hclr ∧
    decode 0b00000000000000000000000000010001#32 = .ok .hacc := by decide

theorem test_decode_tree_builder : decode 0b00000000000000000000000000100000#32 = .ok .build := by decide

theorem test_decode_code_generator :
    decode 0b00000000000000000000000000110000#32 = .ok .genc ∧
    decode 0b00000000000000000000000000110001#32 = .ok .cclr := by decide

theorem test_decode_packer :
    decode 0b00000000000000000000000001000000#32 = .ok .pack ∧
    decode 0b00000000000000000000000001010000#32 = .ok .unpack := by decide

theorem test_decode_crc : decode 0b00000000000000000000000001100000#32 = .ok .crc := by decide

theorem test_decode_sequencer :
    decode 0b00000000000000000000000001110000#32 = .ok .encode ∧
    decode 0b00000000000000000000000001110001#32 = .ok .decode := by decide

/-- The ends of every range of unassigned opcodes of R93. -/
theorem test_decode_unassigned :
    [0x02#32, 0x0F#32, 0x12#32, 0x1F#32, 0x21#32, 0x2F#32, 0x32#32, 0x3F#32, 0x41#32, 0x4F#32, 0x51#32, 0x5F#32,
      0x61#32, 0x6F#32, 0x72#32, 0xFF#32].all (fun w => decide (decode w = .error .opcodeUnassigned)) = true := by
  decide +kernel

/-- RSV ≠ 0 is illegal whatever the opcode (S4 and S5 among them). -/
theorem test_decode_reserved :
    [0x00000100#32, 0x80000000#32, 0x00000101#32, 0x00000170#32, 0xFFFFFF02#32].all
      (fun w => decide (decode w = .error .reservedNonzero)) = true := by decide +kernel

theorem test_decodeTableWord :
    decodeTableWord 32 0x71 = some .decode ∧ decodeTableWord 8 0x171 = some .decode ∧ decodeTableWord 32 0x171 = none := by
  decide

/- ### Well-formedness: an ill-formed term for each check -/

theorem test_wf_every_command : ∀ i ∈ [Instr.nop, .srst, .hclr, .hacc, .build, .genc, .cclr, .pack, .unpack, .crc,
    .encode, .decode], i.wf = true := by decide

theorem test_wf_transaction :
    (Transaction.read 0x3FFFC 32).wf = true ∧ (Transaction.read 0x40000 32).wf = false ∧
    (Transaction.read 0x00002 32).wf = false ∧ (Transaction.read 0x00000 16).wf = false ∧
    (Transaction.write 0x3FFFC 32 0).wf = true ∧ (Transaction.write 0x40000 32 0).wf = false ∧
    (Transaction.write 0x00001 32 0).wf = false ∧ (Transaction.write 0x00000 8 0).wf = false := by decide

theorem test_wf_target :
    (Target.freq 255).wf = true ∧ (Target.freq 256).wf = false ∧ (Target.codeLen 256).wf = false ∧
    (Target.codeVal 256 0).wf = false ∧ (Target.codeVal 255 8).wf = false ∧ (Target.node 511 0).wf = false ∧
    (Target.node 510 4).wf = false ∧ (Target.trace 255 0).wf = false ∧ (Target.trace 254 4).wf = false ∧
    (Target.data 65536).wf = false ∧ (Target.data 2).wf = false ∧ (Target.pack 65536).wf = false ∧
    (Target.pack 1).wf = false ∧ (Target.literal 0x40000).wf = false ∧ (Target.literal 3).wf = false := by decide

theorem test_wf_line :
    HostLine.wait.wf = true ∧ (HostLine.wr (.freq 256) 0).wf = false ∧
    (HostLine.rd (.data 1)).wf = false ∧ (HostLine.rdEq (.node 511 0) 0).wf = false ∧
    (HostLine.ldbData 2 (bytes [1])).wf = false ∧ (HostLine.ldbData 65532 (bytes [1, 2, 3, 4, 5])).wf = false ∧
    (HostLine.ldbPack 3 (bytes [1])).wf = false ∧ (HostLine.ldbPack 65532 (bytes [1, 2, 3, 4, 5])).wf = false ∧
    (HostLine.ldbPack 65532 (bytes [1, 2, 3, 4])).wf = true := by decide

/- ### One step of each command -/

/-- Vector S1. -/
theorem test_nop : (after (exec .nop idle)).statusWord = 0x00000002#32 ∧ (after (exec .nop idle)).irqStatusWord = 1#32 := by
  decide +kernel

/-- Vector S2 (started from a state with results in it). -/
theorem test_srst : after (exec .srst { abraPacked with cmdCount := 7, freq := [(0x41, 7)] }) = State.reset := by
  decide +kernel

/-- Vector H1. -/
theorem test_hclr : (after (exec .hclr { idle with freq := [(0x41, 5)] })).freqAt 0x41 = 0#32 := by decide +kernel

/-- Vector H2. -/
theorem test_hacc_counts :
    (after (exec .hacc (loaded abra))).freq = [(0x41, 5), (0x42, 2), (0x43, 1), (0x44, 1), (0x52, 2)] := by
  decide +kernel

/-- Vector H8: the smallest overflowing symbol. -/
theorem test_hacc_overflow :
    report (exec .hacc { loaded (bytes [0x42, 0x41]) with freq := [(0x41, 0xFFFFFFFF), (0x42, 0xFFFFFFFF)] })
      = (.freqOverflow, 0x41#32) := by decide +kernel

/-- Vector T4: at equal weight the leaf c comes before the internal node 3. -/
theorem test_build_tie :
    (after (exec .build { idle with freq := [(0x61, 1), (0x62, 2), (0x63, 3)] })).trace.map (fun c => c.2.word 3)
      = [0x800C0200#32, 0x80100602#32] := by decide +kernel

/-- Vector T10. -/
theorem test_build_overflow :
    report (exec .build { idle with freq := [(0x00, 0xFFFFFFFF), (0x01, 1)] }) = (.weightOverflow, 0#32) := by
  decide +kernel

/-- The tree of vector T4. -/
def treeT4 : State := after (exec .build { idle with freq := [(0x61, 1), (0x62, 2), (0x63, 3)] })

/-- Vector G4. -/
theorem test_genc :
    (after (exec .genc treeT4)).code =
      [(0x61, { len := 2, val := 2 }), (0x62, { len := 2, val := 3 }), (0x63, { len := 1, val := 0 })] := by
  decide +kernel

/-- Vector G9. -/
theorem test_genc_no_tree : (after (exec .genc idle)).statusWord = 0x00060006#32 := by decide +kernel

/-- Vector G11. -/
theorem test_cclr : (after (exec .cclr { abraPacked with maxLen := 3 })).codeAt 0x42 = CodeEntry.zero ∧
    (after (exec .cclr { abraPacked with maxLen := 3 })).maxLen = 0#8 := by decide +kernel

/-- Vector K1. -/
theorem test_pack :
    (after (exec .pack { loaded abra with code := codesG1 })).pack = [(0, 0x6E), (1, 0x8A), (2, 0xDC)] ∧
    (after (exec .pack { loaded abra with code := codesG1 })).bitCount = 23#32 := by decide +kernel

/-- Vector K10. -/
theorem test_pack_no_code :
    report (exec .pack { loaded (bytes [0x41, 0x42, 0x5A]) with code := codesG1 }) = (.noCode, 0x25A#32) := by
  decide +kernel

/-- Vector U1. -/
theorem test_unpack :
    (after (exec .unpack abraPacked)).data.map (·.2) = abra ∧ (after (exec .unpack abraPacked)).dataLen = 11#32 := by
  decide +kernel

/-- Vector U12: the first clashing pair is (A, B), whatever `BIT_COUNT`. -/
theorem test_unpack_clash :
    report (exec .unpack (artifact [(0x41, { len := 1, val := 0 }), (0x42, { len := 2, val := 0 }),
      (0x43, { len := 2, val := 1 })] [] 0 0)) = (.invalidCodeTable, 0x00014241#32) := by decide +kernel

/-- Vector CR7. -/
theorem test_crc : (after (exec .crc (loaded abra))).crcResult = 0x9AE96B5F#32 := by decide +kernel

/-- Vector CR17. -/
theorem test_crc_len_range : report (exec .crc { idle with dataLen := 0x00010001 }) = (.lenRange, 0x00010001#32) := by
  decide +kernel

/-- Vector S6. -/
theorem test_encode :
    (after (exec .encode (loaded abra))).pack = [(0, 0x6E), (1, 0x8A), (2, 0xDC)] ∧
    (after (exec .encode (loaded abra))).code = codesG1 ∧
    (after (exec .encode (loaded abra))).statusWord = 0x00000012#32 := by decide +kernel

/-- Vector S7: the empty artifact; the old `PACK` bytes stay. -/
theorem test_encode_empty :
    (after (exec .encode { abraPacked with treeValid := true })).statusWord = 0x0000000A#32 ∧
    (after (exec .encode { abraPacked with treeValid := true })).pack = abraPacked.pack := by decide +kernel

/-- Vector S8. -/
theorem test_decode_command :
    (after (exec .decode { abraPacked with crcExpect := 0x9AE96B5F })).data.map (·.2) = abra := by decide +kernel

/-- Vector S9. -/
theorem test_decode_integrity : report (exec .decode abraPacked) = (.integrityFailure, 0x9AE96B5F#32) := by
  decide +kernel

/-- Vector S4: an illegal word through the whole accept and completion. -/
theorem test_illegal_word :
    report (step (turns (after (step (turns idle [.host (.write 0x008 32 0x00000170)]))) [])) = (.illegalCmd, 0x170#32) := by
  decide +kernel

/- ### Steps and the bus -/

/-- Vector B13: the reset step, then the end of INIT. -/
theorem test_reset_step :
    (after (step (turns abraPacked [.reset]))).statusWord = 0x00000021#32 ∧
    (after (step (after (step (turns abraPacked [.reset]))))).statusWord = 0#32 := by decide +kernel

/-- Vector B3. -/
theorem test_bus_error : (after (step (turns idle [.host (.read 0x00002 32)]))).reply = some (.read .error 0#32) := by
  decide +kernel

/-- Vector B17. -/
theorem test_bus_little_endian :
    (after (step (turns (loaded (bytes [0x41, 0x42, 0x43, 0x44])) [.host (.read 0x10000 32)]))).reply
      = some (.read .ok 0x44434241#32) := by decide +kernel

/-- Vector B18. -/
theorem test_bus_write_data :
    (after (step (turns idle [.host (.write 0x10000 32 0x44434241)]))).data
      = [(0, 0x41), (1, 0x42), (2, 0x43), (3, 0x44)] := by decide +kernel

/-- Vectors B14 and B16: writes while busy are lost and set OVERRUN. -/
theorem test_bus_overrun :
    (after (step (turns State.reset [.host (.write 0x00400 32 7)]))).statusWord = 0x00000121#32 ∧
    (after (step (turns (busy 0x60) [.host (.write 0x008 32 0x60)]))).cmdCount = 0#32 := by decide +kernel

/-- Vector B12: enabling a pending source asserts the line at once. -/
theorem test_irq :
    (after (step (turns { idle with doneIp := true, errIp := true } [.host (.write 0x018 32 2)]))).irq = true := by
  decide +kernel

/-- Bus words of the code table (R65): `CODE[0x42].LEN` at 0x05080 and `VAL0` at 0x05084. -/
theorem test_bus_code_words :
    (after (step (turns abraPacked [.host (.read 0x05080 32)]))).reply = some (.read .ok 3#32) ∧
    (after (step (turns abraPacked [.host (.read 0x05084 32)]))).reply = some (.read .ok 6#32) := by decide +kernel

/-- A word placed for fetching runs on the next step: NOP, ENCODE of nothing, SRST. -/
theorem test_withFetchWord :
    (after (step (State.reset.withFetchWord 32 0x00))).statusWord = 0x00000002#32 ∧
    (after (step (State.reset.withFetchWord 32 0x70))).statusWord = 0x0000000A#32 ∧
    (after (step (State.reset.withFetchWord 32 0x01))).statusWord = 0x00000021#32 := by decide +kernel

/-- R99: `LDB` and the word of "ABRACADABRA" as in program P1. -/
theorem test_host_program :
    programEvents [.ldbData 0 abra, .cmd .encode, .wait, .rdEq (.trace 3 3) 0x80200E00] =
      [.host (.write 0x10000 32 0x41524241), .host (.write 0x10004 32 0x41444143), .host (.write 0x10008 32 0x00415242),
       .host (.write 0x00008 32 0x00000070), .wait [], .host (.read 0x0103C 32)] := by decide +kernel

/-- R99: a `WAIT` after the accept of NOP reads BUSY = 1, so the host stays at it; the read after the engine's turn has
bit 0 = 0 and the next line's turn comes. -/
theorem test_wait :
    let s := turns (busy 0x00) [.wait [], .host (.read 0x000 32)]
    (after (step s)).reply = some (.read .ok 0x00000001#32) ∧
    (after (step s)).inbox = [.engine, .wait [], .host (.read 0x000 32)] ∧
    (after (runSteps 3 s)).reply = some (.read .ok 0x00000002#32) ∧
    (after (runSteps 3 s)).inbox = [.host (.read 0x000 32)] := by decide +kernel

/-- Vectors S1 and S4 as host programs, and a program that states a wrong value. -/
theorem test_program_holds :
    programHolds [.wait, .cmd .nop, .wait, .rdEq (.reg .status) 0x00000002, .rdEq (.reg .cmdCount) 1, .clrIrq,
      .rdEq (.reg .irqStatus) 0] State.reset = true ∧
    programHolds [.wait, .wr (.reg .cmd) 0x00000002, .wait, .rdEq (.reg .errInfo) 0x00000002] State.reset = true ∧
    programHolds [.wait, .cmd .nop, .wait, .rdEq (.reg .status) 0x00000003] State.reset = false := by decide +kernel

/-- R61, R98: a read at a misaligned literal offset is a bus error that returns 0, which is the value a line states. -/
theorem test_program_bus_error :
    programHolds [.rdEq (.literal 0x2) 0] idle = true ∧ programHolds [.rdEq (.literal 0x2) 1] idle = false := by
  decide +kernel

/-- R8, R99: turns of the engine and of the reset input may stand anywhere, but the host's turns keep program order. -/
theorem test_schedule :
    isScheduleOf [.cmd .nop, .wait, .clrIrq] [.engine, .host (.write 0x008 32 0), .wait [[.engine]], .reset,
      .host (.write 0x01C 32 3)] = true ∧
    isScheduleOf [.cmd .nop, .wait, .clrIrq] [.host (.write 0x008 32 0), .engine, .host (.write 0x01C 32 3)] = false := by
  decide +kernel

/- ### Witnesses: for each statement with hypotheses, a concrete state and operands that meet them, clause by clause -/

theorem goesOn_iff (o : Host.Outcome State Fault Refusal) : goesOn o = true ↔ o = .next (after o) := by
  cases o <;> simp [goesOn, after]

/-- An idle block with counts. -/
def counted (f : Ram Word) : State := { idle with freq := f }

/-- The counts of vector T4. -/
def countsT4 : Ram Word := [(0x61, 1), (0x62, 2), (0x63, 3)]

theorem witness_IllegalWordIsAcceptedAndReported :
    (0x00000170#32).toNat / 256 ≠ 0 ∧
    (0x02 ≤ (0x02#32).toNat ∧ (0x0F#32).toNat ≤ 0x0F) ∧ (0x12 ≤ (0x12#32).toNat ∧ (0x1F#32).toNat ≤ 0x1F) ∧
    (0x21 ≤ (0x21#32).toNat ∧ (0x2F#32).toNat ≤ 0x2F) ∧ (0x32 ≤ (0x32#32).toNat ∧ (0x3F#32).toNat ≤ 0x3F) ∧
    (0x41 ≤ (0x41#32).toNat ∧ (0x4F#32).toNat ≤ 0x4F) ∧ (0x51 ≤ (0x51#32).toNat ∧ (0x5F#32).toNat ≤ 0x5F) ∧
    (0x61 ≤ (0x61#32).toNat ∧ (0x6F#32).toNat ≤ 0x6F) ∧ (0x72 ≤ (0x72#32).toNat ∧ (0xFF#32).toNat ≤ 0xFF) ∧
    (turns idle [.host (.write 0x008 32 0xFF)]).phase = .idle ∧
    (turns idle [.host (.write 0x008 32 0xFF)]).inbox = .host (.write 0x008 32 0xFF#32) :: [] ∧
    (busy 0xFF).phase = .busy ∧ (busy 0xFF).pending = 0xFF#32 ∧ (busy 0xFF).inbox = [] ∧
    (turns (busy 0xFF) [.engine]).phase = .busy ∧ (turns (busy 0xFF) [.engine]).pending = 0xFF#32 ∧
    (turns (busy 0xFF) [.engine]).inbox = .engine :: [] := by decide

theorem witness_EngineTurnRunsTheDecodedCommand :
    (busy 0x71).phase = .busy ∧ decode (busy 0x71).pending = .ok .decode ∧ (busy 0x71).inbox = [] ∧
    (turns (busy 0x71) [.engine]).phase = .busy ∧ decode (turns (busy 0x71) [.engine]).pending = .ok .decode ∧
    (turns (busy 0x71) [.engine]).inbox = .engine :: [] := by decide

theorem witness_AcceptLatchesTheCommandWord :
    (turns idle [.host (.write 0x008 32 0x60)]).inbox = .host (.write 0x008 32 0x60#32) :: [] ∧
    (turns idle [.host (.write 0x008 32 0x60)]).phase = .idle ∧ 0x60#32 ≠ 0x00000001#32 ∧
    (turns idle [.host (.write 0x008 32 1)]).inbox = .host (.write 0x008 32 0x00000001#32) :: [] ∧
    (turns idle [.host (.write 0x008 32 1)]).phase = .idle ∧
    (turns (busy 0x60) [.host (.write 0x008 32 1)]).phase ≠ .idle ∧
    (turns State.reset [.host (.write 0x008 32 1)]).phase ≠ .idle := by decide

theorem witness_EngineTurnEndsInitAndHoldsIdle :
    State.reset.inbox = [] ∧ State.reset.phase = .init ∧ State.reset.EngineConsistent ∧
    State.EngineConsistent { State.reset with overrun := true } ∧ abraPacked.inbox = [] ∧ abraPacked.phase = .idle ∧
    (turns State.reset [.engine]).inbox = .engine :: [] ∧ (turns State.reset [.engine]).phase = .init ∧
    (turns State.reset [.engine]).EngineConsistent ∧ (turns abraPacked [.engine]).inbox = .engine :: [] ∧
    (turns abraPacked [.engine]).phase = .idle := by
  refine ⟨rfl, rfl, ?_, ?_, rfl, rfl, rfl, rfl, ?_, rfl, rfl⟩ <;>
    simp [State.EngineConsistent, State.AsAfterReset, State.reset, turns]

theorem witness_ResetLeavesTheResetColumn :
    (turns (busy 0x70) [.reset]).inbox = .reset :: [] ∧
    (turns abraPacked [.host (.write 0x008 32 1)]).inbox = .host (.write 0x008 32 0x00000001#32) :: [] ∧
    (turns abraPacked [.host (.write 0x008 32 1)]).phase = .idle ∧
    Reg.cmd ≠ .id ∧ Reg.cmd ≠ .version ∧ Reg.cmd ≠ .status := by decide

theorem witness_ResetStateHasTheResetValues : Reg.maxLen ≠ .id ∧ Reg.maxLen ≠ .version ∧ Reg.maxLen ≠ .status := by
  decide

theorem witness_BusErrorsAndOnlyTheyChangeNothingAndAnswerError :
    (0x3FFFE < 0x40000 ∧ (0x3FFFE % 4 ≠ 0 ∨ 32 ≠ 32)) ∧ (0x00000 < 0x40000 ∧ (0 % 4 ≠ 0 ∨ 16 ≠ 32)) ∧
    (0x3FFFC < 0x40000 ∧ 0x3FFFC % 4 = 0 ∧ 32 = 32) ∧
    (turns (busy 0x60) [.host (.read 0x3FFFE 32)]).inbox = .host (.read 0x3FFFE 32) :: [] ∧
    (turns (busy 0x60) [.host (.write 0x00000 16 5)]).inbox = .host (.write 0x00000 16 5#32) :: [] ∧
    (turns idle [.host (.read 0x3FFFC 32)]).inbox = .host (.read 0x3FFFC 32) :: [] ∧
    (turns idle [.host (.write 0x3FFFC 32 5)]).inbox = .host (.write 0x3FFFC 32 5#32) :: [] := by decide

theorem witness_OffsetsBeyondTheApertureAreRefused :
    0x40000 ≤ 0x40000 ∧ (turns idle [.host (.read 0x40000 32)]).inbox = .host (.read 0x40000 32) :: [] ∧
    (turns idle [.host (.write 0x40001 8 5)]).inbox = .host (.write 0x40001 8 5#32) :: [] := by decide

theorem witness_WritesWhileBusyAreLostButForThreeRegisters :
    State.reset.phase ≠ .idle ∧ (busy 0x60).phase ≠ .idle ∧
    ∀ off ∈ [0x00C, 0x018, 0x01C, 0x000, 0x008, 0x010, 0x014, 0x020, 0x3FFFC], off < 0x40000 ∧ off % 4 = 0 ∧
      (turns (busy 0x60) [.host (.write off 32 3)]).inbox = .host (.write off 32 3#32) :: [] := by decide

theorem witness_ReadsWhileBusyAreFreeButForSevenRegisters :
    State.reset.phase ≠ .idle ∧ (busy 0x60).phase ≠ .idle ∧
    (∀ off ∈ [0x000, 0x004, 0x008, 0x00C, 0x014, 0x018, 0x01C, 0x010, 0x020, 0x048, 0x3FFFC], off < 0x40000 ∧
      off % 4 = 0 ∧ (turns (busy 0x60) [.host (.read off 32)]).inbox = .host (.read off 32) :: []) ∧
    (∀ off ∈ [0x010, 0x020, 0x048, 0x3FFFC], off ∉ [0x000, 0x004, 0x008, 0x00C, 0x014, 0x018, 0x01C]) := by decide

/-- Each of the fourteen cases at the top of its range. -/
theorem witness_IdleReadsReturnTheMappedEntry :
    let s := turns idle [.host (.read 0x007FC 32)]
    s.phase = .idle ∧ s.inbox = .host (.read 0x007FC 32) :: [] ∧
    (∃ k < 256, 0x007FC = 0x00400 + 4 * k ∧ 0#32 = s.freqAt k) ∧
    (∃ k < 255, 0x01FE0 = 0x01000 + 16 * k ∧ 0#32 = (s.traceAt k).wl) ∧
    (∃ k < 255, 0x01FE4 = 0x01000 + 16 * k + 4 ∧ 0#32 = (s.traceAt k).wr) ∧
    (∃ k < 255, 0x01FE8 = 0x01000 + 16 * k + 8 ∧ 0#32 = (s.traceAt k).ws) ∧
    (∃ k < 255, 0x01FEC = 0x01000 + 16 * k + 12 ∧
      (0#32).toNat = (s.traceAt k).valid.toNat * 2 ^ 31 + (s.traceAt k).ni.toNat * 2 ^ 18 + (s.traceAt k).ri.toNat * 2 ^ 9
        + (s.traceAt k).li.toNat) ∧
    (∃ i < 511, 0x03FE0 = 0x02000 + 16 * i ∧ 0#32 = (s.nodeAt i).w) ∧
    (∃ i < 511, 0x03FE4 = 0x02000 + 16 * i + 4 ∧
      (0#32).toNat = (s.nodeAt i).valid.toNat * 2 ^ 31 + (s.nodeAt i).leaf.toNat * 2 ^ 30 + (s.nodeAt i).sym.toNat) ∧
    (∃ i < 511, 0x03FE8 = 0x02000 + 16 * i + 8 ∧ (0#32).toNat = (s.nodeAt i).left.toNat) ∧
    (∃ i < 511, 0x03FEC = 0x02000 + 16 * i + 12 ∧ (0#32).toNat = (s.nodeAt i).right.toNat) ∧
    (∃ k < 256, 0x07FC0 = 0x04000 + 64 * k ∧ (0#32).toNat = (s.codeAt k).len.toNat) ∧
    (∃ k < 256, ∃ j < 8, 0x07FE0 = 0x04000 + 64 * k + 4 + 4 * j ∧
      (0#32).toNat = (s.codeAt k).val.toNat / 2 ^ (32 * j) % 2 ^ 32) ∧
    (∃ w < 16384, 0x1FFFC = 0x10000 + 4 * w ∧ (0#32).toNat = (s.dataAt (4 * w)).toNat) ∧
    (∃ w < 16384, 0x2FFFC = 0x20000 + 4 * w ∧ (0#32).toNat = (s.packAt (4 * w)).toNat) ∧
    (∀ off ∈ [0x048, 0x3FC, 0x800, 0xFFC, 0x1FF0, 0x1FFC, 0x3FF0, 0x3FFC, 0x4024, 0x7FFC, 0x8000, 0xFFFC, 0x30000,
        0x3FFFC], off % 4 = 0 ∧ off < 0x40000 ∧
      ((0x048 ≤ off ∧ off < 0x400) ∨ (0x800 ≤ off ∧ off < 0x1000) ∨ (0x1FF0 ≤ off ∧ off < 0x2000) ∨
       (0x3FF0 ≤ off ∧ off < 0x4000) ∨ (0x4000 ≤ off ∧ off < 0x8000 ∧ 0x24 ≤ off % 64) ∨
       (0x8000 ≤ off ∧ off < 0x10000) ∨ 0x30000 ≤ off)) := by
  refine ⟨rfl, rfl, ⟨255, by omega, by omega, rfl⟩, ⟨254, by omega, by omega, rfl⟩, ⟨254, by omega, by omega, rfl⟩,
    ⟨254, by omega, by omega, rfl⟩, ⟨254, by omega, by omega, rfl⟩, ⟨510, by omega, by omega, rfl⟩,
    ⟨510, by omega, by omega, rfl⟩, ⟨510, by omega, by omega, rfl⟩, ⟨510, by omega, by omega, rfl⟩,
    ⟨255, by omega, by omega, rfl⟩, ⟨255, by omega, 7, by omega, by omega, rfl⟩, ⟨16383, by omega, by omega, rfl⟩,
    ⟨16383, by omega, by omega, rfl⟩, by decide⟩

theorem witness_IdleReadsReturnTheControlRegisters :
    (turns idle [.host (.read 0x000 32)]).phase = .idle ∧
    (turns idle [.host (.read 0x000 32)]).inbox = .host (.read 0x000 32) :: [] ∧
    (turns idle [.host (.read 0x044 32)]).phase = .idle ∧
    (turns idle [.host (.read 0x044 32)]).inbox = .host (.read 0x044 32) :: [] ∧
    regOffset .maxLen = 0x044 := by decide

theorem witness_IdleWritesStoreInTheMappedEntry :
    (∀ off ∈ [0x007FC, 0x07FC0, 0x07FE0, 0x1FFFC, 0x2FFFC], (turns idle [.host (.write off 32 7)]).phase = .idle ∧
      (turns idle [.host (.write off 32 7)]).inbox = .host (.write off 32 7#32) :: []) ∧
    (255 < 256 ∧ 0x007FC = 0x00400 + 4 * 255) ∧ (255 < 256 ∧ 0x07FC0 = 0x04000 + 64 * 255) ∧
    (255 < 256 ∧ 7 < 8 ∧ 0x07FE0 = 0x04000 + 64 * 255 + 4 + 4 * 7) ∧ (16383 < 16384 ∧ 0x1FFFC = 0x10000 + 4 * 16383) ∧
    (16383 < 16384 ∧ 0x2FFFC = 0x20000 + 4 * 16383) := by decide

theorem witness_IdleWritesFollowTheAccessColumn :
    (∀ off ∈ [0x00C, 0x018, 0x01C, 0x020, 0x024, 0x028, 0x030, 0x000, 0x044, 0x048, 0x3FC, 0x800, 0x3FFC, 0x4024,
        0x7FFC, 0x8000, 0xFFFC, 0x30000, 0x3FFFC],
      (turns idle [.host (.write off 32 7)]).phase = .idle ∧ off < 0x40000 ∧ off % 4 = 0 ∧
      (turns idle [.host (.write off 32 7)]).inbox = .host (.write off 32 7#32) :: []) ∧
    (∀ off ∈ [0x000, 0x044, 0x048, 0x3FC, 0x800, 0x3FFC, 0x4024, 0x7FFC, 0x8000, 0xFFFC, 0x30000, 0x3FFFC],
      off ∈ [0x000, 0x004, 0x010, 0x014, 0x02C, 0x034, 0x038, 0x03C, 0x040, 0x044] ∨ (0x048 ≤ off ∧ off < 0x400) ∨
      (0x800 ≤ off ∧ off < 0x4000) ∨ (0x4000 ≤ off ∧ off < 0x8000 ∧ 0x24 ≤ off % 64) ∨
      (0x8000 ≤ off ∧ off < 0x10000) ∨ 0x30000 ≤ off) := by decide

theorem witness_DisciplinedHostTurnsLoseNothing :
    (turns idle [.host (.write 0x10000 32 7)]).inbox = .host (.write 0x10000 32 7#32) :: [] ∧
    State.disciplined (turns idle [.host (.write 0x10000 32 7)]) (.write 0x10000 32 7) ∧
    (turns (busy 0x60) [.host (.read 0x00C 32)]).inbox = .host (.read 0x00C 32) :: [] ∧
    State.disciplined (turns (busy 0x60) [.host (.read 0x00C 32)]) (.read 0x00C 32) ∧
    State.disciplined (turns (busy 0x60) [.host (.write 0x01C 32 3)]) (.write 0x01C 32 3) ∧
    (turns idle [.host (.write 0x10000 32 7)]).overrun = false ∧
    (turns idle [.wait [], .reset]).inbox = .wait [] :: [.reset] ∧ (turns idle [.wait [], .reset]).phase = .idle ∧
    (turns (busy 0x60) [.wait []]).inbox = .wait [] :: [] ∧ (turns (busy 0x60) [.wait []]).phase ≠ .idle ∧
    (turns State.reset [.wait [[.reset], []]]).inbox = .wait [[.reset], []] :: [] ∧
    (turns State.reset [.wait [[.reset], []]]).phase ≠ .idle := by
  unfold State.disciplined
  decide

theorem witness_InterruptLineFollowsEnabledPendingBits :
    (turns idle [.host (.write 0x018 32 3)]).inbox = .host (.write 0x018 32 3#32) :: [] ∧
    (turns idle [.host (.write 0x01C 32 3)]).inbox = .host (.write 0x01C 32 3#32) :: [] ∧
    (3#32).getLsbD 0 = true ∧ (3#32).getLsbD 1 = true := by decide

theorem witness_EveryCompletionReportsDone :
    Instr.genc ≠ .srst ∧ exec .genc idle = .next (after (exec .genc idle)) ∧ (after (exec .genc idle)).err = true ∧
    exec .hclr idle = .next (after (exec .hclr idle)) ∧ (after (exec .hclr idle)).err = false := by
  simp only [← goesOn_iff]
  decide +kernel

theorem witness_FailedCommandChangesOnlyTheErrorReport :
    exec .build idle = .next (after (exec .build idle)) ∧ (after (exec .build idle)).err = true := by
  rw [← goesOn_iff]
  decide +kernel

/-- For each command, a state from which it succeeds (`goesOn_iff`: the hypothesis `exec i s = .next t`). -/
theorem witness_SuccessfulCommandWritesOnlyItsColumn :
    ([(Instr.nop, idle), (.hclr, counted countsT4), (.hacc, loaded abra), (.build, counted countsT4), (.genc, treeT4),
      (.cclr, abraPacked), (.pack, { loaded abra with code := codesG1 }), (.unpack, abraPacked), (.crc, loaded abra),
      (.encode, loaded abra), (.decode, { abraPacked with crcExpect := 0x9AE96B5F })].all fun c =>
        goesOn (exec c.1 c.2) && decide ((after (exec c.1 c.2)).err = false) &&
        decide (c.1 ≠ .srst)) = true := by decide +kernel

/-- For each clause, two different states that agree on what the command reads (and on EMPTY), from which it succeeds;
and HACC on two states from which it fails. -/
theorem witness_CommandsReadOnlyTheirColumn :
    ([(Instr.hacc, loaded abra), (.build, counted countsT4), (.genc, treeT4), (.pack, { loaded abra with code := codesG1 }),
      (.unpack, abraPacked), (.crc, loaded abra), (.encode, loaded abra),
      (.decode, { abraPacked with crcExpect := 0x9AE96B5F })].all fun c =>
        goesOn (exec c.1 c.2) && decide ((after (exec c.1 c.2)).err = false) &&
        goesOn (exec c.1 { c.2 with cmdCount := 9 })) = true ∧
    goesOn (exec .hacc { idle with dataLen := 65537 }) = true := by
  decide +kernel

theorem witness_LengthsOutOfRangeAreReportedFirst :
    65536 < (State.dataLen { idle with dataLen := 65537 }).toNat ∧ Instr.hacc ∈ [Instr.hacc, .pack, .crc, .encode] ∧
    65536 < (State.packLen { idle with packLen := 65537 }).toNat ∧ Instr.unpack ∈ [Instr.unpack, .decode] := by decide

theorem witness_SrstResetsAtTheAccept :
    (turns abraPacked [.host (.write 0x008 32 1)]).phase = .idle ∧
    (turns abraPacked [.host (.write 0x008 32 1)]).inbox = .host (.write 0x008 32 0x00000001#32) :: [] ∧
    (turns (busy 0x60) [.host (.write 0x008 32 1)]).phase ≠ .idle ∧
    (turns (busy 0x60) [.host (.write 0x008 32 1)]).inbox = .host (.write 0x008 32 0x00000001#32) :: [] ∧
    (0x00000101#32).toNat % 256 = 1 ∧ 0x00000101#32 ≠ 0x00000001#32 ∧
    (turns abraPacked [.host (.write 0x008 32 0x101)]).phase = .idle ∧
    (turns abraPacked [.host (.write 0x008 32 0x101)]).inbox = .host (.write 0x008 32 0x00000101#32) :: [] := by decide

/-- Five bytes 0x41 take a counter of 2^32 − 6 to its largest value. -/
theorem witness_HaccAddsTheByteCounts :
    let s : State := { loaded abra with freq := [(0x41, 0xFFFFFFFA)] }
    s.dataLen.toNat ≤ 65536 ∧
    ∀ k < 256, (s.freqAt k).toNat + (List.range s.dataLen.toNat).countP (fun i => (s.dataAt i).toNat == k) < 2 ^ 32 := by
  decide +kernel

/-- One more, and the counter overflows. -/
theorem witness_HaccReportsTheSmallestOverflowingSymbol :
    let s : State := { loaded abra with freq := [(0x41, 0xFFFFFFFB), (0x42, 0xFFFFFFFF)] }
    s.dataLen.toNat ≤ 65536 ∧ 0x41 < 256 ∧
    2 ^ 32 ≤ (s.freqAt 0x41).toNat + (List.range s.dataLen.toNat).countP (fun i => (s.dataAt i).toNat == 0x41) ∧
    ∀ j < 0x41, (s.freqAt j).toNat + (List.range s.dataLen.toNat).countP (fun i => (s.dataAt i).toNat == j) < 2 ^ 32 := by
  decide +kernel

theorem witness_CountsOfAClearTableSumToTheLength :
    (loaded abra).dataLen.toNat ≤ 65536 ∧ exec .hclr (loaded abra) = .next (after (exec .hclr (loaded abra))) ∧
    exec .hacc (after (exec .hclr (loaded abra))) = .next (after (exec .hacc (after (exec .hclr (loaded abra))))) := by
  simp only [← goesOn_iff]
  decide +kernel

/-- A total of exactly 2^32 − 1. -/
theorem witness_BuildCompletesWithATreeOfThePresentSymbols :
    (0xFF < 256 ∧ (counted [(0x00, 0xFFFFFFFE), (0xFF, 1)]).freqAt 0xFF ≠ 0#32) ∧
    ((List.range 256).map fun k => ((counted [(0x00, 0xFFFFFFFE), (0xFF, 1)]).freqAt k).toNat).sum < 2 ^ 32 := by
  decide +kernel

theorem treeT4_built : exec .build (counted countsT4) = .next treeT4 := (goesOn_iff _).mp (by decide +kernel)

theorem witness_EveryMergeTakesTheTwoLeastNodes :
    exec .build (counted countsT4) = .next treeT4 ∧ treeT4.err = false ∧ 0 < treeT4.numLeaves.toNat - 1 ∧
    treeT4.inCollection 3 0 2 ∧ 2 ≠ treeT4.leftOf (3 + 0) ∧ 2 ≠ treeT4.rightOf (3 + 0) := by
  unfold State.inCollection
  exact ⟨treeT4_built, by decide +kernel⟩

/-- A total of exactly 2^32, an empty table, no tree. -/
theorem witness_BuildAndGencReportTheirErrors :
    (∀ k < 256, idle.freqAt k = 0#32) ∧
    2 ^ 32 ≤ ((List.range 256).map fun k => ((counted [(0x00, 0xFFFFFFFF), (0xFF, 1)]).freqAt k).toNat).sum ∧
    idle.treeValid = false := by decide +kernel

theorem witness_TraceWeightsAreOrdered :
    exec .build (counted countsT4) = .next treeT4 ∧ treeT4.err = false ∧ 0 < treeT4.numSteps.toNat ∧
    0 + 1 < treeT4.numSteps.toNat := ⟨treeT4_built, by decide +kernel⟩

theorem treeT4_treeWf : treeT4.TreeWf := by
  unfold State.TreeWf State.LeavesWf State.InternalsWf State.ParentsWf State.TraceWf
  decide +kernel

theorem witness_GencWritesTheTreePaths :
    treeT4.treeValid = true ∧ treeT4.TreeWf ∧ 2 ≤ treeT4.numLeaves.toNat ∧
    treeT4.nodeAlong treeT4.root.toNat [true, false] = some 0 ∧ ∀ i < treeT4.numLeaves.toNat, (treeT4.nodeAt i).sym.toNat ≠ 0x64 :=
  ⟨by decide +kernel, treeT4_treeWf, by decide +kernel, by decide +kernel, by decide +kernel⟩

theorem witness_GencGivesTheSingleLeafTheCodeZero :
    (after (exec .build (counted [(0x7A, 3)]))).treeValid = true ∧
    (after (exec .build (counted [(0x7A, 3)]))).numLeaves = 1#9 := by decide +kernel

theorem witness_GeneratedCodesArePrefixFreeAndComplete :
    exec .build (counted countsT4) = .next treeT4 ∧ treeT4.err = false ∧
    exec .genc treeT4 = .next (after (exec .genc treeT4)) ∧ 2 ≤ treeT4.numLeaves.toNat :=
  ⟨treeT4_built, by decide +kernel, (goesOn_iff _).mp (by decide +kernel), by decide +kernel⟩

theorem witness_PackStoresTheStream :
    let s : State := { loaded abra with code := codesG1 }
    s.dataLen.toNat ≤ 65536 ∧ (∀ i < s.dataLen.toNat, s.coded (s.dataAt i).toNat) ∧
    (s.stream ((List.range s.dataLen.toNat).map s.dataAt)).length ≤ 524288 := by
  unfold State.coded
  decide +kernel

/-- An input of n bytes 0x00, each with a code of 255 bits. -/
def longCodes (n : Nat) : State := { idle with dataLen := BitVec.ofNat 32 n, code := [(0, { len := 255, val := 0 })] }

theorem longCodes_stream (n m : Nat) : ((longCodes n).stream ((List.range m).map (longCodes n).dataAt)).length = m * 255 := by
  have h : ∀ j, (longCodes n).dataAt j = 0#8 := fun j => rfl
  have hc : ((longCodes n).codeBits 0).length = 255 := codeBits_length _ _
  induction m with
  | zero => rfl
  | succ m ih =>
    rw [List.range_succ, List.map_append, stream_append, List.length_append, ih]
    simp only [List.map_cons, List.map_nil, h, State.stream, List.flatMap_cons, List.flatMap_nil, List.append_nil,
      BitVec.toNat_ofNat, Nat.zero_mod, hc]
    omega

/-- The byte without a code; and the 2057th code of 255 bits, which passes 524288 bits. -/
theorem witness_PackReportsTheFirstBadByte :
    (let s : State := { loaded (bytes [0x41, 0x42, 0x5A]) with code := codesG1 }
     s.dataLen.toNat ≤ 65536 ∧ 2 < s.dataLen.toNat ∧ (∀ j < 2, s.coded (s.dataAt j).toNat) ∧
     (s.stream ((List.range 2).map s.dataAt)).length ≤ 524288 ∧ ¬ s.coded (s.dataAt 2).toNat) ∧
    (let s := longCodes 2057
     s.dataLen.toNat ≤ 65536 ∧ 2056 < s.dataLen.toNat ∧ (∀ j < 2056, s.coded (s.dataAt j).toNat) ∧
     (s.stream ((List.range 2056).map s.dataAt)).length ≤ 524288 ∧ s.coded (s.dataAt 2056).toNat ∧
     524288 < (s.stream ((List.range (2056 + 1)).map s.dataAt)).length) := by
  refine ⟨by unfold State.coded; decide +kernel, ?_⟩
  have hc : ∀ j, (longCodes 2057).coded ((longCodes 2057).dataAt j).toNat := fun j => by
    show (255 : Byte) ≠ 0#8
    decide
  refine ⟨by decide, by decide, fun j _ => hc j, ?_, hc 2056, ?_⟩
  · rw [longCodes_stream]; omega
  · rw [longCodes_stream]; omega

/-- The code table of vector U12: A "0" is a prefix of B "00" and of C "01". -/
def clashing : State :=
  artifact [(0x41, { len := 1, val := 0 }), (0x42, { len := 2, val := 0 }), (0x43, { len := 2, val := 1 })] [] 0 0

theorem witness_UnpackChecksTableThenLength :
    (clashing.packLen.toNat ≤ 65536 ∧ Instr.unpack ∈ [Instr.unpack, .decode] ∧ 0x41 < 0x42 ∧ 0x42 < 256 ∧
      clashing.coded 0x41 ∧ clashing.coded 0x42 ∧ clashing.codeBits 0x41 <+: clashing.codeBits 0x42 ∧
      ∀ a' b', a' < b' → b' < 256 → (a' < 0x41 ∨ (a' = 0x41 ∧ b' < 0x42)) → clashing.coded a' → clashing.coded b' →
        ¬ clashing.codeBits a' <+: clashing.codeBits b' ∧ ¬ clashing.codeBits b' <+: clashing.codeBits a') ∧
    (let s := artifact [] [0#8] 1 1
     s.packLen.toNat ≤ 65536 ∧ (∀ k < 256, ¬ s.coded k) ∧ s.bitCount ≠ 0#32) ∧
    (let s := artifact codesG1 [] 23 2
     s.packLen.toNat ≤ 65536 ∧ s.PrefixFree ∧ (s.bitCount ≠ 0#32 → ∃ k < 256, s.coded k) ∧
     s.packLen.toNat ≠ (s.bitCount.toNat + 7) / 8) := by
  refine ⟨⟨by decide, by decide, by omega, by omega, by unfold State.coded; decide, by unfold State.coded; decide,
    by decide +kernel, ?_⟩, ⟨by decide, ?_, by decide⟩, ⟨by decide, ?_, ?_, by decide⟩⟩
  · intro a' b' h1 _ h2 ca
    have hlow : ∀ k < 0x41, (clashing.codeAt k).len = 0#8 := by decide +kernel
    rcases h2 with h2 | h2
    · exact absurd (hlow a' h2) ca
    · omega
  · intro k _ h; exact h rfl
  · exact (firstClash_codeTable _).mp (by decide +kernel)
  · intro _; exact ⟨0x41, by omega, by unfold State.coded; decide⟩

theorem abraPacked_unpackable : abraPacked.Unpackable :=
  ⟨by decide, (firstClash_codeTable _).mp (by decide +kernel), fun _ => ⟨0x41, by omega, by unfold State.coded; decide⟩, by decide⟩

theorem abra_coded : ∀ b ∈ abra, abraPacked.coded b.toNat := by
  unfold State.coded
  have : (abra.all fun b => decide ((abraPacked.codeAt b.toNat).len ≠ 0#8)) = true := by decide +kernel
  intro b hb
  simpa using List.all_eq_true.mp this b hb

theorem witness_UnpackDeliversTheCodedBytes :
    abraPacked.Unpackable ∧ abra.length ≤ 65536 ∧ (∀ b ∈ abra, abraPacked.coded b.toNat) ∧
    abraPacked.packedBits abraPacked.bitCount.toNat = abraPacked.stream abra :=
  ⟨abraPacked_unpackable, by decide, abra_coded, by decide +kernel⟩

theorem witness_UnpackSuccessIsSound :
    exec .unpack abraPacked = .next (after (exec .unpack abraPacked)) ∧ (after (exec .unpack abraPacked)).err = false := by
  rw [← goesOn_iff]
  decide +kernel

/-- A table with the one code 0x00 "0", B bits 0 in m bytes, but for the bits of `packed`. -/
def oneCode (packed : List Byte) (B m : Nat) : State := artifact [(0, { len := 1, val := 0 })] packed B m

theorem oneCode_unpackable (packed : List Byte) (B m : Nat) (hm : m ≤ 65536) (hB : B < 2 ^ 32) (h : m = (B + 7) / 8) :
    (oneCode packed B m).Unpackable := by
  have h1 : (BitVec.ofNat 32 m).toNat = m := by simp; omega
  have h2 : (BitVec.ofNat 32 B).toNat = B := by simp; omega
  refine ⟨?_, (firstClash_codeTable _).mp ?_, fun _ => ⟨0, by omega, ?_⟩, ?_⟩
  · show (BitVec.ofNat 32 m).toNat ≤ _; omega
  · show firstClash (oneCode [] 0 0).codeTable = none; decide +kernel
  · show (1 : Byte) ≠ 0#8; decide
  · show (BitVec.ofNat 32 m).toNat = ((BitVec.ofNat 32 B).toNat + 7) / 8; omega

/-- After the code "0", the bit 1 has no branch; after "0" again the bits end inside the code "110" of G1; and 65537
codes "0". -/
theorem witness_WalkErrorsAreReportedAtTheirBit :
    (let s := oneCode (bytes [0x40]) 2 1
     s.Unpackable ∧ (∀ b ∈ bytes [0], s.coded b.toNat) ∧ Instr.unpack ∈ [Instr.unpack, .decode] ∧
     (bytes [0]).length ≤ 65536 ∧ s.packedBits s.bitCount.toNat = s.stream (bytes [0]) ++ [] ++ true :: [] ∧
     ∀ k < 256, s.coded k → ¬ ([] ++ [true]) <+: s.codeBits k) ∧
    (let s := artifact codesG1 (bytes [0x60]) 3 1
     s.Unpackable ∧ (∀ b ∈ bytes [0x41], s.coded b.toNat) ∧
     (0x42 < 256 ∧ s.coded 0x42 ∧ [true, true] <+: s.codeBits 0x42 ∧ [true, true] ≠ s.codeBits 0x42) ∧
     [true, true] ≠ [] ∧ s.packedBits s.bitCount.toNat = s.stream (bytes [0x41]) ++ [true, true]) ∧
    (let s := oneCode [] 65537 8193
     s.Unpackable ∧ (∀ b ∈ List.replicate 65537 0#8, s.coded b.toNat) ∧ (List.replicate 65537 0#8).length = 65537 ∧
     s.stream (List.replicate 65537 0#8) <+: s.packedBits s.bitCount.toNat) := by
  refine ⟨⟨oneCode_unpackable _ _ _ (by omega) (by omega) (by omega), ?_, by decide, by decide, by decide +kernel, ?_⟩,
    ⟨⟨by decide, (firstClash_codeTable _).mp (by decide +kernel), fun _ => ⟨0x41, by omega, ?_⟩, by decide⟩, ?_,
      ⟨by omega, ?_, by decide +kernel, by decide +kernel⟩, by simp, by decide +kernel⟩,
    ⟨oneCode_unpackable _ _ _ (by omega) (by omega) (by omega), ?_, by rw [List.length_replicate], ?_⟩⟩
  · intro b hb
    have : b = 0#8 := by simpa [bytes] using hb
    subst this
    show (1 : Byte) ≠ 0#8
    decide
  · intro k _ hk
    have h0 : k = 0 := by
      by_contra hne
      refine hk ?_
      simp only [oneCode, artifact, State.codeAt, ramRead, if_neg (Ne.symm hne)]
    subst h0
    decide +kernel
  · unfold State.coded; decide
  · intro b hb
    have : b = 0x41#8 := by simpa [bytes] using hb
    subst this
    unfold State.coded
    decide
  · unfold State.coded; decide
  · intro b hb
    rw [List.eq_of_mem_replicate hb]
    show (1 : Byte) ≠ 0#8
    decide
  · have hs : ∀ n, (oneCode [] 65537 8193).stream (List.replicate n 0#8) = List.replicate n false := fun n => by
      have hc : (oneCode [] 65537 8193).codeBits (0#8).toNat = [false] := by decide +kernel
      induction n with
      | zero => rfl
      | succ n ih => rw [List.replicate_succ, stream_cons, ih, hc]; rfl
    have hp : ∀ n, (oneCode [] 65537 8193).packedBits n = List.replicate n false := fun n => by
      have hb : ∀ p, (oneCode [] 65537 8193).packBit p = false := fun p => by
        show (0#8).getLsbD _ = false
        simp
      apply List.ext_getElem
      · simp [State.packedBits]
      · intro i h1 h2; simp [State.packedBits, hb]
    rw [hs, hp]
    exact List.prefix_rfl

/-- The packed artifact of "ABRACADABRA" with the codes of G1, and its table. -/
def abraPack : State := after (exec .pack { loaded abra with code := codesG1 })

theorem abraPack_packed : exec .pack { loaded abra with code := codesG1 } = .next abraPack :=
  (goesOn_iff _).mp (by decide +kernel)

theorem codesG1_prefixFree (s : State) (h : s.code = codesG1) : s.PrefixFree := by
  refine (firstClash_codeTable s).mp ?_
  have e : s.codeTable = abraPacked.codeTable := by
    unfold State.codeTable State.codeBits State.codeAt
    rw [h]; rfl
  rw [e]; decide +kernel

theorem witness_UnpackInvertsPack :
    exec .pack { loaded abra with code := codesG1 } = .next abraPack ∧ abraPack.err = false ∧
    State.PrefixFree { loaded abra with code := codesG1 } ∧
    (∀ k < 256, abraPack.codeAt k = State.codeAt { loaded abra with code := codesG1 } k) ∧
    abraPack.bitCount = abraPack.bitCount ∧ abraPack.packLen = abraPack.packLen ∧
    ∀ j < abraPack.packLen.toNat, abraPack.packAt j = abraPack.packAt j :=
  ⟨abraPack_packed, by decide +kernel, codesG1_prefixFree _ rfl, by decide +kernel, rfl, rfl, fun _ _ => rfl⟩

theorem witness_TruncatedArtifactIsRejected :
    exec .pack { loaded abra with code := codesG1 } = .next abraPack ∧ abraPack.err = false ∧
    State.PrefixFree { loaded abra with code := codesG1 } ∧ 1 ≤ (loaded abra).dataLen.toNat ∧
    (∀ k < 256, State.codeAt { abraPack with packLen := abraPack.packLen - 1#32 } k =
      State.codeAt { loaded abra with code := codesG1 } k) ∧ Instr.decode ∈ [Instr.unpack, .decode] :=
  ⟨abraPack_packed, by decide +kernel, codesG1_prefixFree _ rfl, by decide, by decide +kernel, by decide⟩

/-- The last packed byte with its padding bit set (vector U4). -/
theorem witness_PaddingIsNeverRead :
    (∀ p < abraPacked.bitCount.toNat, State.packBit { abraPacked with pack := [(0, 0x6E), (1, 0x8A), (2, 0xDD), (9, 1)] } p
      = abraPacked.packBit p) ∧ Instr.unpack ∈ [Instr.unpack, .decode] ∧
    exec .unpack abraPacked = .next (after (exec .unpack abraPacked)) := by
  rw [← goesOn_iff]
  decide +kernel

theorem witness_CrcWritesTheChecksumOfTheInput :
    (State.dataLen { idle with dataLen := 65536 }).toNat ≤ 65536 ∧ 65536 < (State.dataLen { idle with dataLen := 65537 }).toNat := by
  decide

theorem witness_CrcDetectsAChangedByte : 0x41#8 ≠ 0x42#8 := by decide

theorem witness_EncodeOfNothingWritesTheEmptyArtifact : abraPacked.dataLen = 0#32 := by decide

theorem witness_EncodeRunsTheUnitsAndNeverFails :
    (1 ≤ (loaded abra).dataLen.toNat ∧ (loaded abra).dataLen.toNat ≤ 65536) ∧
    (1 ≤ (State.dataLen { idle with dataLen := 65536 }).toNat ∧ (State.dataLen { idle with dataLen := 65536 }).toNat ≤ 65536) := by
  decide

theorem witness_EncodeOfOneRepeatedByte :
    let s : State := { idle with dataLen := 65536 }
    1 ≤ s.dataLen.toNat ∧ s.dataLen.toNat ≤ 65536 ∧ ∀ i < s.dataLen.toNat, s.dataAt i = 0#8 :=
  ⟨by decide, by decide, fun _ _ => rfl⟩

theorem witness_DecodeDeliversTheVerifiedBytes :
    State.Unpackable { abraPacked with crcExpect := 0x9AE96B5F } ∧ abra.length ≤ 65536 ∧
    (∀ b ∈ abra, State.coded { abraPacked with crcExpect := 0x9AE96B5F } b.toNat) ∧
    State.packedBits { abraPacked with crcExpect := 0x9AE96B5F } 23 =
      State.stream { abraPacked with crcExpect := 0x9AE96B5F } abra ∧ crc32 abra = 0x9AE96B5F#32 :=
  ⟨abraPacked_unpackable, by decide, abra_coded, by decide +kernel, by decide +kernel⟩

theorem witness_DecodeRejectsAWrongChecksum :
    abraPacked.Unpackable ∧ abra.length ≤ 65536 ∧ (∀ b ∈ abra, abraPacked.coded b.toNat) ∧
    abraPacked.packedBits abraPacked.bitCount.toNat = abraPacked.stream abra ∧ crc32 abra ≠ abraPacked.crcExpect :=
  ⟨abraPacked_unpackable, by decide, abra_coded, by decide +kernel, by decide +kernel⟩

/-- "ABRACADABRA", and the empty input. -/
theorem witness_DecodeInvertsEncode :
    ([loaded abra, idle].all fun s =>
      let t := after (exec .encode s)
      decide (s.dataLen.toNat ≤ 65536) && goesOn (exec .encode s) &&
      decide (State.crcExpect { t with crcExpect := t.crcResult } = t.crcResult)) = true := by decide +kernel

theorem treeT4_treeConsistent : treeT4.TreeConsistent :=
  ⟨fun _ => treeT4_treeWf, fun h => absurd h (by decide +kernel)⟩

theorem witness_StepKeepsTheRamsCanonical :
    State.MemCanonical { busy 0x50 with
      code := codesG1, pack := [(0, 0x6E), (1, 0x8A), (2, 0xDC)], bitCount := 23, packLen := 3 } ∧
    goesOn (step { busy 0x50 with
      code := codesG1, pack := [(0, 0x6E), (1, 0x8A), (2, 0xDC)], bitCount := 23, packLen := 3 }) = true := by
  unfold State.MemCanonical
  decide +kernel

theorem witness_StepKeepsTheEngineConsistent :
    (busy 0x20).EngineConsistent ∧ step (busy 0x20) = .next (after (step (busy 0x20))) := by
  refine ⟨?_, (goesOn_iff _).mp (by decide +kernel)⟩
  have : encode .srst = 1#32 := by decide
  simp [State.EngineConsistent, State.AsAfterReset, busy, idle, State.reset, this]

theorem treeConsistent_engine (s : State) (p : Phase) (w : Word) (h : s.TreeConsistent) :
    State.TreeConsistent { s with phase := p, pending := w } := h

theorem treeConsistent_turns (s : State) (l : List Event) (h : s.TreeConsistent) : (turns s l).TreeConsistent := h

/-- GENC about to run on the tree of vector T4. -/
def gencNext : State := { treeT4 with phase := .busy, pending := 0x30 }

theorem witness_StepKeepsTheTreeConsistent :
    gencNext.TreeConsistent ∧ step gencNext = .next (after (step gencNext)) := by
  refine ⟨treeConsistent_engine treeT4 .busy 0x30 treeT4_treeConsistent, ?_⟩
  rw [← goesOn_iff]
  decide +kernel

/-- A command about to run, and a `WAIT` while it runs. -/
theorem witness_EveryCommandEnds :
    treeT4.TreeConsistent ∧ (turns gencNext [.wait [[], [.reset]], .host (.read 0x000 32)]).TreeConsistent ∧
    (turns gencNext [.wait [[], [.reset]], .host (.read 0x000 32)]).inbox =
      .wait [[], [.reset]] :: [.host (.read 0x000 32)] :=
  ⟨treeT4_treeConsistent,
    treeConsistent_turns gencNext _ (treeConsistent_engine treeT4 .busy 0x30 treeT4_treeConsistent), rfl⟩

end Sys2Proof.Tests
end

/-! Proofs of the statements about the bus (20_memory.md): every transaction inside the aperture is answered, and how. -/

namespace Sys2Proof.Machine

/-- No write of a location answers the host by itself: the response of R61 is set before it. -/
@[simp] theorem State.writeLocation_reply (s : State) (l : Location) (v : Word) :
    (s.writeLocation l v).reply = s.reply := by
  cases l with
  | reg r => cases r <;> rfl
  | _ => rfl

/-- A 32-bit read inside the aperture is answered `OK`, whatever the location and the phase (R61, R66, R67). -/
theorem busRead_reply_ok (s : State) (l : Location) : ∃ v, (s.busRead l).reply = some (.read .ok v) := by
  rcases busRead_cases s l with ⟨v, h⟩ | ⟨v, h⟩ <;> exact ⟨v, by rw [h]⟩

/-- A 32-bit write inside the aperture always goes on and leaves the response as it was set: stored, ignored, lost while
busy or accepted, SRST included (R61, R66, R94). -/
theorem busWrite_keeps_reply (s : State) (l : Location) (v : Word) :
    ∃ t, s.busWrite l v = .next t ∧ t.reply = s.reply := by
  rcases busWrite_cases s l v with ⟨h, -⟩ | ⟨h, -⟩ | ⟨h, -⟩ | ⟨h, -⟩
  · exact ⟨_, h, State.writeLocation_reply s l v⟩
  · exact ⟨_, h, rfl⟩
  · exact ⟨_, h, State.resetBlock_reply s⟩
  · exact ⟨_, h, by rw [State.issue_reply, State.acceptRecord_reply]⟩

/-- Settles O9: each turn is its host transaction; a bus error is the error branch of it, and an aligned 32-bit
transaction is a read or a write of a location, whose response is `OK`. -/
theorem busErrorsAndOnlyTheyChangeNothingAndAnswerError :
    Obligations.BusErrorsAndOnlyTheyChangeNothingAndAnswerError := by
  intro s rest off width hoff
  refine ⟨fun hbad => ⟨fun hin => ?_, fun v hin => ?_⟩, ?_⟩
  · rw [step_host s _ rest hin, hostStep_read_error _ off width hoff hbad]
  · rw [step_host s _ rest hin, hostStep_write_error _ off width v hoff hbad]
  rintro haligned rfl
  refine ⟨fun hin => ?_, fun v hin => ?_⟩
  · rw [step_host s _ rest hin, hostStep_read _ off hoff haligned]
    obtain ⟨v, hv⟩ := busRead_reply_ok { s with inbox := rest } (locate off)
    exact ⟨_, v, rfl, hv⟩
  · rw [step_host s _ rest hin, hostStep_write _ off v hoff haligned]
    exact busWrite_keeps_reply _ (locate off) v

end Sys2Proof.Machine

/-! Proofs of the statements about the encoding (30_encoding.md): what the accept of a command word writes. -/

namespace Sys2Proof.Machine

/-- The host's turn that writes v to `CMD` is that write of the register, with the response `OK` set (R61). -/
theorem step_writeCmd (s : State) (v : Word) (rest : List Event) (h : s.inbox = .host (.write 0x008 32 v) :: rest) :
    step s = State.busWrite { s with reply := some (.write .ok), inbox := rest } (.reg .cmd) v := by
  rw [step_host s _ rest h, hostStep_write _ _ v (by decide) (by decide),
    show locate 0x008 = .reg .cmd from locate_regOffset .cmd]

/-- A word other than SRST, written to `CMD` of an idle engine, is recorded and issued (R94). -/
theorem busWrite_cmd_issues (s : State) (v : Word) (hp : s.phase = .idle) (hv : v ≠ 0x00000001#32) :
    s.busWrite (.reg .cmd) v = .next ((s.acceptRecord v).issue v) := by
  rw [busWrite_cmd s v hp, accept_other s v hv]

/-- SRST, written to `CMD` of an idle engine, resets the block in that step (R94, R221). -/
theorem busWrite_cmd_resets (s : State) (hp : s.phase = .idle) :
    s.busWrite (.reg .cmd) 0x00000001#32 = .next s.resetBlock := by
  rw [busWrite_cmd s _ hp, accept_srst]

/-- Settles O5: the turn is a write of `CMD`, which an idle engine accepts (a word other than SRST is recorded and issued,
SRST resets the block) and which any other phase loses. -/
theorem acceptLatchesTheCommandWord : Obligations.AcceptLatchesTheCommandWord := by
  intro s v rest hin
  rw [step_writeCmd s v rest hin]
  refine ⟨fun hidle hv => ?_, fun hidle hv => ?_, fun hbusy => ?_⟩
  · exact busWrite_cmd_issues _ v hidle hv
  · subst hv
    exact busWrite_cmd_resets _ hidle
  · exact busWrite_lost _ _ v hbusy rfl

end Sys2Proof.Machine

/-! Proofs of the statements about the histogram accumulator (40_histogram.md): HCLR empties the counters. -/

namespace Sys2Proof.Machine

/-- HCLR has no error: it completes from every state, with an empty `FREQ` (R121, R95). -/
theorem exec_hclr_completes (s : State) : exec .hclr s = .next { s with freq := [] }.completeOk := by
  rw [exec_hclr, hclr, finish_ok]

/-- Settles O26: HCLR completes with the empty `FREQ`, and an entry that is not stored reads 0. -/
theorem hclrClearsEveryCounter : Obligations.HclrClearsEveryCounter := by
  refine ⟨by decide, fun s => ⟨[], ?completion, ?counters⟩⟩
  case completion => exact exec_hclr_completes s
  case counters => exact fun k => ramRead_nil 0#32 k

end Sys2Proof.Machine

/-! Proofs of the statements about the code generator (42_code_generator.md): CCLR empties the code table. -/

namespace Sys2Proof.Machine

/-- CCLR has no error: it completes from every state, with an empty code table and `MAX_LEN` 0 (R161, R95). -/
theorem exec_cclr_completes (s : State) :
    exec .cclr s = .next { s with code := [], maxLen := 0#8 }.completeOk := by
  rw [exec_cclr, cclr, finish_ok]

/-- Settles O36: CCLR completes with the empty code table and `MAX_LEN` 0, and a symbol that is not stored has the zero
code. -/
theorem cclrClearsEveryCode : Obligations.CclrClearsEveryCode := by
  refine ⟨by decide, fun s => ⟨[], ?completion, ?codes⟩⟩
  case completion => exact exec_cclr_completes s
  case codes => exact fun k => ramRead_nil CodeEntry.zero k

end Sys2Proof.Machine

/-! Proofs of the statements about the CRC-32 unit (44_crc.md): the checksum of the input, and its length check. -/

namespace Sys2Proof.Machine

/-- With an input that fits in `DATA`, CRC completes with `CRC_RESULT` the checksum of the input (R211, R95). -/
theorem exec_crc_completes (s : State) (h : s.dataLen.toNat ≤ 65536) :
    exec .crc s = .next { s with crcResult := crc32 s.input }.completeOk := by
  rw [exec_crc, crcCommand, checkDataLen_of_le s h, CmdM.bind_ok, finish_ok]

/-- With a longer input, CRC stops at the length check and commits nothing else (R211, R241). -/
theorem exec_crc_lenRange (s : State) (h : 65536 < s.dataLen.toNat) :
    exec .crc s = .next (s.commitError .lenRange s.dataLen) := by
  rw [exec_crc, crcCommand, checkDataLen_of_gt s h, CmdM.bind_raise, finish_raise]

/-- Settles O47: CRC is its length check, and the checksum is that of the first `DATA_LEN` bytes of `DATA`. -/
theorem crcWritesTheChecksumOfTheInput : Obligations.CrcWritesTheChecksumOfTheInput := by
  refine ⟨by decide, fun s => ⟨fun hle => ?completion, fun hgt => ?lenRange⟩⟩
  case completion => rw [exec_crc_completes s hle, input_eq]; rfl
  case lenRange => exact exec_crc_lenRange s hgt

end Sys2Proof.Machine

/-! Proofs of the statements about the control commands and the sequencer (45_control.md): NOP, ENCODE of the empty
input, and DECODE's integrity check. -/

namespace Sys2Proof.Machine

/-- NOP has no error and no effect: from every state it is its completion (R220, R95). -/
theorem exec_nop_completes (s : State) : exec .nop s = .next s.completeOk := by
  rw [exec_nop, finish_ok]

/-- Settles O24: NOP is the zero word, and the state that completes is the one it started from. -/
theorem nopOnlyCompletes : Obligations.NopOnlyCompletes :=
  ⟨by decide, exec_nop_completes⟩

/-- The empty input passes the length check, and ENCODE completes with the empty artifact (R225, R226, R95). -/
theorem exec_encode_empty (s : State) (h : s.dataLen = 0#32) :
    exec .encode s = .next s.emptyArtifact.completeOk := by
  have hfits : s.dataLen.toNat ≤ 65536 := by simp [h]
  have hempty : encodeCommand s = .ok s.emptyArtifact := (encodeCommand_eq_ok s _).mpr ⟨hfits, .inl ⟨h, rfl⟩⟩
  rw [exec_encode, hempty, finish_ok]

/-- Settles O50: ENCODE completes with the empty artifact, whose four RAMs are empty, so that every entry reads zero. -/
theorem encodeOfNothingWritesTheEmptyArtifact : Obligations.EncodeOfNothingWritesTheEmptyArtifact := by
  intro s h
  refine ⟨[], [], [], [], ?completion, fun k => ⟨?counter, ?code, ?node, ?entry⟩⟩
  case completion => exact exec_encode_empty s h
  case counter => exact ramRead_nil 0#32 k
  case code => exact ramRead_nil CodeEntry.zero k
  case node => exact ramRead_nil Node.zero k
  case entry => exact ramRead_nil TraceEntry.zero k

/-- Decoded bytes whose checksum is not `CRC_EXPECT` stop DECODE before its commit, with their checksum as the error's
information (R229, R241). -/
theorem exec_decode_integrityFailure (s : State) (out : List Byte) (hout : unpackOutput s = .ok out)
    (hcrc : crc32 out ≠ s.crcExpect) :
    exec .decode s = .next (s.commitError .integrityFailure (crc32 out)) := by
  rw [exec_decode, decodeCommand, hout, CmdM.bind_ok, if_pos hcrc, finish_raise]

/-- Settles O54: the checks and the walk of UNPACK deliver `out`, whose checksum fails the integrity check. -/
theorem decodeRejectsAWrongChecksum : Obligations.DecodeRejectsAWrongChecksum := by
  intro s out hunpackable hlen hcoded hbits hcrc
  have hout : unpackOutput s = .ok out := (unpackOutput_eq_ok s out).mpr ⟨hunpackable, hlen, hcoded, hbits.symm⟩
  exact exec_decode_integrityFailure s out hout hcrc

end Sys2Proof.Machine

/-! Proofs of the statements about the reset (70_reset_and_hazards.md): the reset input and SRST reach the reset column. -/

namespace Sys2Proof.Machine

/-- A register reads the same after a reset whatever the block held before, for no register shows the model's own
fields (R45, R270). -/
@[simp] theorem State.resetBlock_readReg (s : State) (r : Reg) : s.resetBlock.readReg r = State.reset.readReg r := by
  cases r <;> rfl

/-- The registers but `ID`, `VERSION` and `STATUS` read 0 in the reset state (R45). -/
theorem State.reset_readReg_eq_zero (r : Reg) (hid : r ≠ .id) (hversion : r ≠ .version) (hstatus : r ≠ .status) :
    State.reset.readReg r = 0#32 := by
  cases r with
  | id => exact absurd rfl hid
  | version => exact absurd rfl hversion
  | status => exact absurd rfl hstatus
  | _ => rfl

/-- `STATUS` in the reset state shows `BUSY` and `INIT` and no other bit (R22, R45). -/
theorem State.reset_statusWord : State.reset.statusWord = 0x00000021#32 := by decide

/-- Both triggers of R270 are the reset of the block, with only their own turn taken from the inbox. -/
theorem step_resets (s : State) (rest : List Event)
    (h : s.inbox = .reset :: rest ∨ (s.inbox = .host (.write 0x008 32 0x00000001#32) :: rest ∧ s.phase = .idle)) :
    ∃ u : State, step s = .next u.resetBlock ∧ u.inbox = rest := by
  rcases h with hreset | ⟨hsrst, hidle⟩
  · exact ⟨{ s with inbox := rest }, step_reset s rest hreset, rfl⟩
  · exact ⟨{ s with reply := some (.write .ok), inbox := rest },
      (step_writeCmd s _ rest hsrst).trans (busWrite_cmd_resets _ hidle), rfl⟩

/-- Settles O7: both triggers reset the block, whose registers then read as in the reset state and whose RAMs are empty,
so that every entry reads zero. -/
theorem resetLeavesTheResetColumn : Obligations.ResetLeavesTheResetColumn := by
  intro s rest htrigger
  obtain ⟨u, hstep, hinbox⟩ := step_resets s rest htrigger
  refine ⟨u.resetBlock, hstep, rfl, rfl, rfl, hinbox, ?id, ?version, ?status, fun r hid hversion hstatus => ?others,
    fun k => ?entries⟩
  case id => exact State.resetBlock_readReg u .id
  case version => exact State.resetBlock_readReg u .version
  case status => exact (State.resetBlock_readReg u .status).trans State.reset_statusWord
  case others => exact (State.resetBlock_readReg u r).trans (State.reset_readReg_eq_zero r hid hversion hstatus)
  case entries =>
    exact ⟨ramRead_nil 0#32 k, ramRead_nil Node.zero k, ramRead_nil TraceEntry.zero k, ramRead_nil CodeEntry.zero k,
      ramRead_nil 0#8 k, ramRead_nil 0#8 k⟩

end Sys2Proof.Machine

/-! Proofs of the statements about the whole machine: every step keeps the RAMs canonical, the tree state whole and the
engine's control state consistent (10_state.md sections 2 to 4, 41_tree_builder.md). -/

namespace Sys2Proof.Machine

/- ### What holds of the storage alone -/

/-- State t differs from s in control state only: in the engine's state, the report, the interrupts and the model's own
fields, not in an operand register, a tree register or a RAM. -/
def State.SameStorage (s t : State) : Prop :=
  t = { s with
    phase := t.phase, pending := t.pending, lastCmd := t.lastCmd, done := t.done, err := t.err, empty := t.empty,
    overrun := t.overrun, errCode := t.errCode, errInfo := t.errInfo, cmdCount := t.cmdCount, doneIe := t.doneIe,
    errIe := t.errIe, doneIp := t.doneIp, errIp := t.errIp, reply := t.reply, inbox := t.inbox, draws := t.draws }

theorem State.MemCanonical.of_sameStorage (s t : State) (h : s.SameStorage t) (hs : s.MemCanonical) : t.MemCanonical := by
  rw [h]; exact hs

theorem State.TreeConsistent.of_sameStorage (s t : State) (h : s.SameStorage t) (hs : s.TreeConsistent) :
    t.TreeConsistent := by
  rw [h]; exact hs

/-- A host write reaches no tree register, `NODE` or `TRACE` (R67). -/
theorem writeLocation_treeConsistent (s : State) (l : Location) (v : Word) (h : s.TreeConsistent) :
    (s.writeLocation l v).TreeConsistent := by
  cases l with
  | reg r => cases r <;> exact h
  | _ => exact h

/-- A read changes the reply and the counter of free reads only (R68). -/
theorem busRead_sameStorage (s : State) (l : Location) : s.SameStorage (s.busRead l) := by
  rcases busRead_cases s l with ⟨v, e⟩ | ⟨v, e⟩ <;> rw [e] <;> rfl

section storage

variable (P : State → Prop) (hcontrol : ∀ s t, s.SameStorage t → P s → P t) (hreset : ∀ s, P (State.resetBlock s))
include hcontrol hreset

/-- A property of the storage that the reset and every command's rule keep is kept by the engine's turn. -/
theorem engineStep_keeps_storage (hrule : ∀ i s t, P s → commandRule i s = .ok t → P t) (s t : State) (hs : P s)
    (h : engineStep s = .next t) : P t := by
  rcases engineStep_cases s t h with ⟨-, rfl⟩ | ⟨-, rfl⟩ | ⟨-, i, -, hexec⟩ | ⟨-, -, rfl⟩
  · exact hs
  · exact hcontrol s _ rfl hs
  · by_cases hi : i = .srst
    · subst hi
      cases hexec
      exact hreset s
    · rcases exec_cases i s t hi hexec with ⟨u, hu, rfl⟩ | ⟨c, info, -, -, rfl⟩
      · exact hcontrol u _ rfl (hrule i s u hs hu)
      · exact hcontrol s _ rfl hs
  · exact hcontrol s _ rfl hs

/-- A property of the storage that the reset and every write of a location keep is kept by every write, accepted, stored
or lost. -/
theorem busWrite_keeps_storage (hwrite : ∀ s off v, P s → P (State.writeLocation s (locate off) v)) (s t : State)
    (off : Nat) (v : Word) (hs : P s) (h : s.busWrite (locate off) v = .next t) : P t := by
  rcases busWrite_cases s (locate off) v with ⟨e, -⟩ | ⟨e, -⟩ | ⟨e, -⟩ | ⟨e, -⟩ <;> cases e.symm.trans h
  · exact hwrite s off v hs
  · exact hcontrol s _ rfl hs
  · exact hreset s
  · exact hcontrol s _ rfl hs

/-- A property of the storage that the reset and every write of a location keep is kept by a host transaction. -/
theorem hostStep_keeps_storage (hwrite : ∀ s off v, P s → P (State.writeLocation s (locate off) v)) (s t : State)
    (x : Transaction) (hs : P s) (h : hostStep x s = .next t) : P t := by
  rcases hostStep_cases s t x h with ⟨r, rfl⟩ | ⟨l, rfl⟩ | ⟨off, v, -, -, hw⟩
  · exact hcontrol s _ rfl hs
  · exact hcontrol s _ (busRead_sameStorage s l) hs
  · have hs' : P { s with reply := some (.write .ok) } := hcontrol s _ rfl hs
    exact busWrite_keeps_storage P hcontrol hreset hwrite _ t off v hs' hw

/-- A property of the storage is kept by every step when the reset, every command's rule and every host write of a
location keep it. -/
theorem step_keeps_storage (hrule : ∀ i s t, P s → commandRule i s = .ok t → P t)
    (hwrite : ∀ s off v, P s → P (State.writeLocation s (locate off) v)) (s t : State) (hs : P s)
    (h : step s = .next t) : P t := by
  obtain ⟨rest, hturn⟩ := step_cases s t h
  have hs' : P { s with inbox := rest } := hcontrol s _ rfl hs
  rcases hturn with hengine | rfl | ⟨x, hhost⟩ | ⟨r, rfl⟩
  · exact engineStep_keeps_storage P hcontrol hreset hrule _ t hs' hengine
  · exact hreset _
  · exact hostStep_keeps_storage P hcontrol hreset hwrite _ t x hs' hhost
  · exact hcontrol s _ rfl hs

end storage

/-- Settles O58: the canonical form is a property of the storage, which the reset, every command's rule and every host
write keep. -/
theorem stepKeepsTheRamsCanonical : Obligations.StepKeepsTheRamsCanonical :=
  step_keeps_storage State.MemCanonical State.MemCanonical.of_sameStorage resetBlock_memCanonical commandRule_memCanonical
    writeLocation_memCanonical

/-- Settles O60: the tree state belongs to the storage; only BUILD, ENCODE and the reset write it, each as a whole. -/
theorem stepKeepsTheTreeConsistent : Obligations.StepKeepsTheTreeConsistent :=
  step_keeps_storage State.TreeConsistent State.TreeConsistent.of_sameStorage resetBlock_treeConsistent
    commandRule_treeConsistent fun s off v => writeLocation_treeConsistent s (locate off) v

/- ### The engine's control state -/

/-- A host turn and a `WAIT` may change the reply, the turns to come and the free reads: none is state of the engine. -/
theorem State.EngineConsistent.of_ownFields (s : State) (h : s.EngineConsistent) (r : Option BusReply) (es : List Event)
    (n : Nat) : State.EngineConsistent { s with reply := r, inbox := es, draws := n } := by
  obtain ⟨hpending, hlatched, hnoReport, herrDone, hcode, hinfo, hempty, hinit⟩ := h
  refine ⟨hpending, hlatched, hnoReport, herrDone, hcode, hinfo, hempty, fun hp => ?_⟩
  have e : s = _ := hinit hp
  rw [State.AsAfterReset, e]

/-- A lost write sets `OVERRUN`, in any phase (R66). -/
theorem State.EngineConsistent.of_overrun (s : State) (h : s.EngineConsistent) :
    State.EngineConsistent { s with overrun := true } := by
  obtain ⟨hpending, hlatched, hnoReport, herrDone, hcode, hinfo, hempty, hinit⟩ := h
  refine ⟨hpending, hlatched, hnoReport, herrDone, hcode, hinfo, hempty, fun hp => ?_⟩
  have e : s = _ := hinit hp
  rw [State.AsAfterReset, e]

/-- A write of a location leaves `PENDING`, `PHASE` and the report alone. -/
theorem writeLocation_keepsEngine (s : State) (l : Location) (v : Word) :
    let t := s.writeLocation l v
    t.phase = s.phase ∧ t.pending = s.pending ∧ t.lastCmd = s.lastCmd ∧ t.done = s.done ∧ t.err = s.err ∧
      t.empty = s.empty ∧ t.treeValid = s.treeValid ∧ t.errCode = s.errCode ∧ t.errInfo = s.errInfo := by
  cases l with
  | reg r => cases r <;> exact ⟨rfl, rfl, rfl, rfl, rfl, rfl, rfl, rfl, rfl⟩
  | _ => exact ⟨rfl, rfl, rfl, rfl, rfl, rfl, rfl, rfl, rfl⟩

/-- In INIT the three registers that can be written hold what R66 and R270 let them hold: no bit is pending then. -/
theorem writeLocation_asAfterReset (s : State) (l : Location) (v : Word) (h : s.AsAfterReset)
    (hl : l.writableWhileBusy = true) : (s.writeLocation l v).AsAfterReset := by
  have e : s = _ := h
  cases l with
  | reg r =>
    cases r
    case status | irqEn | irqStatus => rw [State.AsAfterReset, e]; rfl
    all_goals cases hl
  | _ => cases hl

/-- A host write of a location keeps the engine consistent where it takes effect: everywhere while idle, at three
registers otherwise (R66). -/
theorem State.EngineConsistent.of_writeLocation (s : State) (h : s.EngineConsistent) (l : Location) (v : Word)
    (hl : s.phase = .idle ∨ l.writableWhileBusy = true) : (s.writeLocation l v).EngineConsistent := by
  obtain ⟨hpending, hlatched, hnoReport, herrDone, hcode, hinfo, hempty, hinit⟩ := h
  obtain ⟨ephase, epending, ecmd, edone, eerr, eempty, etree, ecode, einfo⟩ := writeLocation_keepsEngine s l v
  simp only [State.EngineConsistent, ephase, epending, ecmd, edone, eerr, eempty, etree, ecode, einfo]
  refine ⟨hpending, hlatched, hnoReport, herrDone, hcode, hinfo, hempty, fun hp => ?_⟩
  rcases hl with hidle | hl
  · cases hidle.symm.trans hp
  · exact writeLocation_asAfterReset s l v (hinit hp) hl

/-- The accept of a word other than SRST latches it and ends the old report (R94). -/
theorem accept_engineConsistent (s : State) (v : Word) (hv : v ≠ encode .srst) :
    ((s.acceptRecord v).issue v).EngineConsistent := by
  simp [State.EngineConsistent, State.acceptRecord, State.issue, hv]

/-- A command that succeeds leaves `EMPTY` as it was, or has just taken the tree away (R226). -/
theorem commandRule_empty (i : Instr) (s t : State) (h : commandRule i s = .ok t) :
    t.empty = s.empty ∨ t.treeValid = false := by
  cases i <;> simp only [commandRule] at h
  case nop | srst | hclr | cclr => cases h; exact .inl rfl
  case hacc => rw [hacc_frame _ _ h]; exact .inl rfl
  case build => rw [build_frame _ _ h]; exact .inl rfl
  case genc => rw [genc_frame _ _ h]; exact .inl rfl
  case pack => rw [pack_frame _ _ h]; exact .inl rfl
  case unpack => rw [unpack_frame _ _ h]; exact .inl rfl
  case crc => rw [crcCommand_frame _ _ h]; exact .inl rfl
  case encode =>
    obtain ⟨-, ⟨-, rfl⟩ | ⟨-, h⟩⟩ := (encodeCommand_eq_ok s t).mp h
    · exact .inr rfl
    · rw [encodeNonEmpty_frame _ _ h]; exact .inl rfl
  case decode => rw [decodeCommand_frame _ _ h]; exact .inl rfl

theorem completeOk_engineConsistent (t : State) (h : t.empty = true → t.treeValid = false) :
    t.completeOk.EngineConsistent := by
  simpa [State.EngineConsistent] using h

theorem commitError_engineConsistent (s : State) (c : ErrCode) (info : Word) (hc : c ≠ .none) (h : s.empty = false) :
    (s.commitError c info).EngineConsistent := by
  simp [State.EngineConsistent, hc, h]

/-- A busy engine shows no `EMPTY`, so its completion reports one only for ENCODE of the empty input (R94, R226). -/
theorem exec_engineConsistent (i : Instr) (s t : State) (hempty : s.empty = false) (h : exec i s = .next t) :
    t.EngineConsistent := by
  by_cases hi : i = .srst
  · subst hi
    cases h
    exact resetBlock_engineConsistent s
  · rcases exec_cases i s t hi h with ⟨u, hu, rfl⟩ | ⟨c, info, -, hc, rfl⟩
    · refine completeOk_engineConsistent u fun he => ?_
      rcases commandRule_empty i s u hu with e | e
      · rw [e, hempty] at he; cases he
      · exact e
    · exact commitError_engineConsistent s c info hc hempty

/-- The engine's turn: it holds while idle, ends INIT, or completes the latched word. -/
theorem engineStep_engineConsistent (s t : State) (hs : s.EngineConsistent) (h : engineStep s = .next t) :
    t.EngineConsistent := by
  have ⟨hpending, _, hnoReport, herrDone, hcode, hinfo, _, _⟩ := hs
  rcases engineStep_cases s t h with ⟨-, rfl⟩ | ⟨hp, rfl⟩ | ⟨hp, i, -, hexec⟩ | ⟨hp, -, rfl⟩
  · exact hs
  · have hp0 : s.pending = 0#32 := hpending (by simp [hp])
    obtain ⟨-, -, hempty⟩ := hnoReport (by simp [hp])
    simpa [State.EngineConsistent, hp0, hempty] using ⟨herrDone, hcode, hinfo⟩
  · exact exec_engineConsistent i s t (hnoReport (by simp [hp])).2.2 hexec
  · exact commitError_engineConsistent s _ _ (by decide) (hnoReport (by simp [hp])).2.2

theorem busWrite_engineConsistent (s t : State) (l : Location) (v : Word) (hs : s.EngineConsistent)
    (h : s.busWrite l v = .next t) : t.EngineConsistent := by
  rcases busWrite_cases s l v with ⟨e, hl⟩ | ⟨e, -⟩ | ⟨e, -⟩ | ⟨e, -, -, hv⟩ <;> cases e.symm.trans h
  · exact hs.of_writeLocation s l v hl
  · exact hs.of_overrun s
  · exact resetBlock_engineConsistent s
  · exact accept_engineConsistent s v hv

theorem hostStep_engineConsistent (s t : State) (x : Transaction) (hs : s.EngineConsistent)
    (h : hostStep x s = .next t) : t.EngineConsistent := by
  rcases hostStep_cases s t x h with ⟨r, rfl⟩ | ⟨l, rfl⟩ | ⟨off, v, -, -, hw⟩
  · exact hs.of_ownFields s _ _ _
  · rcases busRead_cases s l with ⟨v, e⟩ | ⟨v, e⟩ <;> rw [e] <;> exact hs.of_ownFields s _ _ _
  · exact busWrite_engineConsistent _ t _ v (hs.of_ownFields s _ _ _) hw

/-- Settles O59, turn by turn: the engine's, the reset input's, a host transaction, and a `WAIT`, which changes the
model's own fields only. -/
theorem stepKeepsTheEngineConsistent : Obligations.StepKeepsTheEngineConsistent := by
  intro s t hs h
  obtain ⟨rest, hturn⟩ := step_cases s t h
  have hs' : State.EngineConsistent { s with inbox := rest } := hs.of_ownFields s _ _ _
  rcases hturn with hengine | rfl | ⟨x, hhost⟩ | ⟨r, rfl⟩
  · exact engineStep_engineConsistent _ t hs' hengine
  · exact resetBlock_engineConsistent _
  · exact hostStep_engineConsistent _ t x hs' hhost
  · exact hs.of_ownFields s _ _ _

/-- Settles O57: the reset state is the block reset from itself. -/
theorem resetMeetsTheInvariants : Obligations.ResetMeetsTheInvariants :=
  ⟨resetBlock_memCanonical State.reset, resetBlock_engineConsistent State.reset, resetBlock_treeConsistent State.reset⟩

end Sys2Proof.Machine

/-! Proofs of the statements about the encoding (30_encoding.md sections 1 to 4) and the turns of the engine and the reset:
the decoder, the engine's turn, SRST. -/

namespace Sys2Proof.Machine

/- ### The decoder -/

/-- The opcode map read backwards (R92). -/
theorem opcodeCommand_eq_some (op : Byte) (i : Instr) (h : opcodeCommand op = some i) : op = commandOpcode i := by
  apply BitVec.eq_of_toNat_eq
  unfold opcodeCommand at h
  split at h <;> cases h <;> assumption

/-- A word whose `RSV` field is 0 is its `OPCODE` (R90). -/
theorem word_eq_opcodeField (w : Word) (h : rsvField w = 0) : w = (opcodeField w).setWidth 32 := by
  have hrsv : w.toNat / 256 % 2 ^ 24 = 0 := by
    simpa [rsvField, BitVec.extractLsb'_toNat, Nat.shiftRight_eq_div_pow] using congrArg BitVec.toNat h
  apply BitVec.eq_of_toNat_eq
  simp [opcodeField, BitVec.extractLsb'_toNat]
  omega

theorem decode_eq_ok (w : Word) (i : Instr) (h : decode w = .ok i) : w = encode i := by
  unfold decode at h
  split at h
  · cases h
  · next hrsv =>
    split at h
    · next j hj =>
      cases h
      rw [encode, ← opcodeCommand_eq_some _ _ hj]
      exact word_eq_opcodeField w (not_not.mp hrsv)
    · cases h

/-- Settles O1: a word is read as a command only through `RSV` = 0 and the map of the opcodes, which has each opcode
once. -/
theorem decoderAcceptsExactlyTheTwelveWords : Obligations.DecoderAcceptsExactlyTheTwelveWords :=
  fun w i => ⟨decode_eq_ok w i, fun h => h ▸ decode_encode i⟩

/-- Settles O2: each word of the table is the encoder's word of its command. -/
theorem tableWordsDecodeToTheirCommands : Obligations.TableWordsDecodeToTheirCommands :=
  ⟨decode_encode .nop, decode_encode .srst, decode_encode .hclr, decode_encode .hacc, decode_encode .build,
    decode_encode .genc, decode_encode .cclr, decode_encode .pack, decode_encode .unpack, decode_encode .crc,
    decode_encode .encode, decode_encode .decode⟩

/-- A word that is no command's word is refused by the decoder. -/
theorem decode_eq_error (w : Word) (h : ∀ i, w ≠ encode i) : ∃ e, decode w = .error e := by
  cases hd : decode w with
  | ok i => exact absurd (decode_eq_ok w i hd) (h i)
  | error e => exact ⟨e, rfl⟩

/-- Settles O3: a word of R93's ranges is no command's word; its accept is that of every word but SRST, and its
completion the error report. -/
theorem illegalWordIsAcceptedAndReported : Obligations.IllegalWordIsAcceptedAndReported := by
  intro w hw
  have hillegal : ∀ i, w ≠ encode i := by
    rintro i rfl
    cases i <;> simp [encode, commandOpcode] at hw
  refine ⟨fun s rest hidle hin => ?accept, fun s rest hbusy hpending hturn => ?complete⟩
  case accept => exact (acceptLatchesTheCommandWord s w rest hin).1 hidle (hillegal .srst)
  case complete =>
    subst hpending
    obtain ⟨e, he⟩ := decode_eq_error s.pending hillegal
    rw [step_engineTurn s rest hturn]
    exact engineStep_illegal _ e hbusy he

/- ### The engine's turn -/

/-- Settles O4: both ways to the engine's turn run the decoded command. -/
theorem engineTurnRunsTheDecodedCommand : Obligations.EngineTurnRunsTheDecodedCommand := by
  intro s i hbusy hdecode
  refine ⟨fun hin => ?_, fun rest hin => ?_⟩
  · rw [step_nil s hin, engineStep_busy s i hbusy hdecode]
  · rw [step_engine s rest hin]
    exact engineStep_busy { s with inbox := rest } i hbusy hdecode

/-- As after reset but idle, `STATUS` shows `OVERRUN` alone (R22, R25, R271). -/
theorem statusWord_of_asAfterReset (s : State) (h : s.AsAfterReset) (es : List Event) :
    State.statusWord { s with phase := .idle, inbox := es } = if s.overrun then 0x00000100#32 else 0#32 := by
  rw [h]
  show State.statusWord { State.reset with overrun := s.overrun, phase := .idle } = if s.overrun then _ else _
  cases s.overrun <;> decide

/-- Settles O6: INIT ends with the state of the reset, and an idle engine holds. -/
theorem engineTurnEndsInitAndHoldsIdle : Obligations.EngineTurnEndsInitAndHoldsIdle := by
  intro s rest hturn
  rw [step_engineTurn s rest hturn]
  refine ⟨fun hinit => ⟨engineStep_init _ hinit, fun hs => ?_⟩, fun hidle => engineStep_idle _ hidle⟩
  obtain ⟨-, -, -, -, -, -, -, hreset⟩ := hs
  exact statusWord_of_asAfterReset s (hreset hinit) rest

/- ### Reset and SRST -/

/-- Settles O8: `STATUS` shows `BUSY` and `INIT`, and every RAM is empty. -/
theorem resetStateHasTheResetValues : Obligations.ResetStateHasTheResetValues :=
  ⟨rfl, rfl, rfl, rfl, rfl, State.reset_statusWord, State.reset_readReg_eq_zero, fun k =>
    ⟨ramRead_nil 0#32 k, ramRead_nil Node.zero k, ramRead_nil TraceEntry.zero k, ramRead_nil CodeEntry.zero k,
      ramRead_nil 0#8 k, ramRead_nil 0#8 k⟩⟩

/-- Settles O25: the accept of the word SRST by an idle engine is the reset's step, a busy one loses it, and another word
with SRST's opcode is latched. -/
theorem srstResetsAtTheAccept : Obligations.SrstResetsAtTheAccept := by
  refine ⟨by decide, exec_srst, fun s rest hin => ⟨fun hidle => ?accept, fun hbusy => ?lost⟩,
    fun s rest w _ hw hidle hin => ?reserved⟩
  case accept =>
    have haccept : step s = .next { State.reset with reply := some (.write .ok), inbox := rest, draws := s.draws } :=
      (acceptLatchesTheCommandWord s _ rest hin).2.1 hidle rfl
    have hreset : step { s with reply := some (.write .ok), inbox := .reset :: rest } = step s :=
      (step_reset _ rest rfl).trans haccept.symm
    refine ⟨hreset.symm, _, haccept, rfl, rfl, rfl, rfl, rfl, rfl, rfl⟩
  case lost => exact (acceptLatchesTheCommandWord s _ rest hin).2.2 hbusy
  case reserved => exact ⟨_, (acceptLatchesTheCommandWord s w rest hin).1 hidle hw, rfl, rfl, rfl⟩

end Sys2Proof.Machine

/-! Proofs of the statements about the bus (20_memory.md, 10_state.md section 3): reads and writes of the address map, idle
and busy, the host's discipline and the interrupt line. -/

namespace Sys2Proof.Machine

/- ### A host turn inside the aperture -/

/-- No location shows the turns to come. -/
theorem readLocation_inbox (s : State) (es : List Event) (l : Location) :
    State.readLocation { s with inbox := es } l = s.readLocation l := by
  cases l with
  | reg r => cases r <;> rfl
  | _ => rfl

section turn

variable {s : State} {rest : List Event} {off : Nat} {v : Word} (ho : off < 0x40000) (h4 : off % 4 = 0)
include ho h4

theorem step_read (hin : s.inbox = .host (.read off 32) :: rest) :
    step s = .next (State.busRead { s with inbox := rest } (locate off)) := by
  rw [step_host s _ rest hin, hostStep_read _ off ho h4]

theorem step_write (hin : s.inbox = .host (.write off 32 v) :: rest) :
    step s = State.busWrite { s with reply := some (.write .ok), inbox := rest } (locate off) v := by
  rw [step_host s _ rest hin, hostStep_write _ off v ho h4]

/-- A read of a location that gives its value answers it and changes nothing else (R66, R68). -/
theorem step_read_held (hin : s.inbox = .host (.read off 32) :: rest) (l : Location) (hl : locate off = l)
    (hread : s.phase = .idle ∨ l.readableWhileBusy = true) (x : Word) (hx : s.readLocation l = x) :
    step s = .next { s with reply := some (.read .ok x), inbox := rest } := by
  subst hl hx
  rw [step_read ho h4 hin, ← readLocation_inbox s rest]
  exact congrArg Host.Outcome.next (busRead_held { s with inbox := rest } _ hread)

/-- A write that takes effect is the write of its location (R66). -/
theorem step_write_stored (hin : s.inbox = .host (.write off 32 v) :: rest) (l : Location) (hl : locate off = l)
    (hwrite : l.writableWhileBusy = true ∨ (s.phase = .idle ∧ l ≠ .reg .cmd)) :
    step s = .next (State.writeLocation { s with reply := some (.write .ok), inbox := rest } l v) := by
  subst hl
  rw [step_write ho h4 hin]
  rcases hwrite with hwrite | ⟨hidle, hcmd⟩
  · exact busWrite_through _ _ v hwrite
  · exact busWrite_idle _ _ v hidle hcmd

end turn

/- ### While busy (R66) -/

/-- Settles O11: three registers are written as when idle, and a write to any other location is lost. -/
theorem writesWhileBusyAreLostButForThreeRegisters : Obligations.WritesWhileBusyAreLostButForThreeRegisters := by
  intro s rest off v hbusy ho h4 hin
  refine ⟨?status, ?irqEn, ?irqStatus, fun h1 h2 h3 => ?lost⟩
  case status => rintro rfl; exact step_write_stored ho h4 hin (.reg .status) rfl (.inl rfl)
  case irqEn => rintro rfl; exact step_write_stored ho h4 hin (.reg .irqEn) rfl (.inl rfl)
  case irqStatus => rintro rfl; exact step_write_stored ho h4 hin (.reg .irqStatus) rfl (.inl rfl)
  case lost =>
    have hlost : (locate off).writableWhileBusy = false := by
      rw [Bool.eq_false_iff, ne_eq, writableWhileBusy_iff]
      simp [h1, h2, h3]
    rw [step_write ho h4 hin]
    exact busWrite_lost _ _ v hbusy hlost

/-- Settles O12: seven registers are read as when idle, and a read of any other location draws a free value. -/
theorem readsWhileBusyAreFreeButForSevenRegisters : Obligations.ReadsWhileBusyAreFreeButForSevenRegisters := by
  intro s rest off hbusy ho h4 hin
  have hheld : ∀ r, (Location.reg r).readableWhileBusy = true → off = regOffset r →
      step s = .next { s with reply := some (.read .ok (s.readReg r)), inbox := rest } := fun r hr hoff =>
    step_read_held ho h4 hin (.reg r) (hoff ▸ locate_regOffset r) (.inr hr) _ rfl
  refine ⟨hheld .id rfl, hheld .version rfl, hheld .cmd rfl, hheld .status rfl, hheld .cmdCount rfl, hheld .irqEn rfl,
    hheld .irqStatus rfl, fun hother => ?_⟩
  have hfree : (locate off).readableWhileBusy = false := by
    rw [Bool.eq_false_iff, ne_eq, readableWhileBusy_iff]
    exact hother
  rw [step_read ho h4 hin]
  exact congrArg Host.Outcome.next (busRead_free _ _ hbusy hfree)

/- ### Beyond the aperture (R75) -/

/-- Settles O10: the bus port refuses before it looks at the width. -/
theorem offsetsBeyondTheApertureAreRefused : Obligations.OffsetsBeyondTheApertureAreRefused := by
  intro s rest off width ho
  refine ⟨fun hin => ?_, fun v hin => ?_⟩
  · rw [step_host s _ rest hin, hostStep_read_outside _ off width ho]
  · rw [step_host s _ rest hin, hostStep_write_outside _ off width v ho]

/- ### The words of the map's entries (R39, R40, R63) -/

/-- A concatenation is a sum of its parts, the upper one shifted. -/
theorem append_toNat_eq_add {m n : Nat} (x : BitVec m) (y : BitVec n) :
    (x ++ y).toNat = x.toNat * 2 ^ n + y.toNat := by
  rw [BitVec.toNat_append, ← Nat.shiftLeft_add_eq_or_of_lt y.isLt, Nat.shiftLeft_eq]

theorem TraceEntry.word_three_toNat (t : TraceEntry) :
    (t.word 3).toNat = t.valid.toNat * 2 ^ 31 + t.ni.toNat * 2 ^ 18 + t.ri.toNat * 2 ^ 9 + t.li.toNat := by
  simp only [TraceEntry.word, append_toNat_eq_add, BitVec.toNat_ofBool, BitVec.toNat_ofNat]
  omega

theorem Node.word_one_toNat (n : Node) :
    (n.word 1).toNat = n.valid.toNat * 2 ^ 31 + n.leaf.toNat * 2 ^ 30 + n.sym.toNat := by
  simp only [Node.word, append_toNat_eq_add, BitVec.toNat_ofBool, BitVec.toNat_ofNat]
  omega

theorem Node.word_two_toNat (n : Node) : (n.word 2).toNat = n.left.toNat := by
  simp only [Node.word, append_toNat_eq_add, BitVec.toNat_ofNat]
  omega

theorem Node.word_three_toNat (n : Node) : (n.word 3).toNat = n.right.toNat := by
  simp only [Node.word, append_toNat_eq_add, BitVec.toNat_ofNat]
  omega

theorem CodeEntry.valWord_toNat (c : CodeEntry) (j : Nat) :
    (c.valWord j).toNat = c.val.toNat / 2 ^ (32 * j) % 2 ^ 32 := by
  rw [CodeEntry.valWord, BitVec.extractLsb'_toNat, Nat.shiftRight_eq_div_pow]

theorem memWord_toNat (m : Memory) (w : Nat) :
    (memWord m w).toNat = (ramRead 0#8 m (4 * w)).toNat + (ramRead 0#8 m (4 * w + 1)).toNat * 2 ^ 8 +
      (ramRead 0#8 m (4 * w + 2)).toNat * 2 ^ 16 + (ramRead 0#8 m (4 * w + 3)).toNat * 2 ^ 24 := by
  simp only [memWord, wordOfBytes, append_toNat_eq_add]
  omega

/- ### The map, entry by entry (R62, R65) -/

theorem locate_freqEntry (k : Nat) (hk : k < 256) : locate (0x400 + 4 * k) = .freq k := by
  rw [locate_freq _ (by omega) (by omega), show (0x400 + 4 * k - 0x400) / 4 = k by omega]

theorem locate_traceWord (k w : Nat) (hk : k < 255) (hw : w < 4) : locate (0x1000 + 16 * k + 4 * w) = .trace k w := by
  rw [locate_trace _ (by omega) (by omega), show (0x1000 + 16 * k + 4 * w - 0x1000) / 16 = k by omega,
    show (0x1000 + 16 * k + 4 * w) % 16 / 4 = w by omega]

theorem locate_nodeWord (i w : Nat) (hi : i < 511) (hw : w < 4) : locate (0x2000 + 16 * i + 4 * w) = .node i w := by
  rw [locate_node _ (by omega) (by omega), show (0x2000 + 16 * i + 4 * w - 0x2000) / 16 = i by omega,
    show (0x2000 + 16 * i + 4 * w) % 16 / 4 = w by omega]

theorem locate_codeLen (k : Nat) (hk : k < 256) : locate (0x4000 + 64 * k) = .codeLen k := by
  rw [locate_code _ (by omega) (by omega), show (0x4000 + 64 * k) % 64 = 0 by omega, codeSlot_zero,
    show (0x4000 + 64 * k - 0x4000) / 64 = k by omega]

theorem locate_codeVal (k j : Nat) (hk : k < 256) (hj : j < 8) :
    locate (0x4000 + 64 * k + 4 + 4 * j) = .codeVal k j := by
  rw [locate_code _ (by omega) (by omega), codeSlot_val _ _ (by omega) (by omega),
    show (0x4000 + 64 * k + 4 + 4 * j - 0x4000) / 64 = k by omega,
    show ((0x4000 + 64 * k + 4 + 4 * j) % 64 - 4) / 4 = j by omega]

theorem locate_dataWord (w : Nat) (hw : w < 16384) : locate (0x10000 + 4 * w) = .data w := by
  rw [locate_data _ (by omega) (by omega), show (0x10000 + 4 * w - 0x10000) / 4 = w by omega]

theorem locate_packWord (w : Nat) (hw : w < 16384) : locate (0x20000 + 4 * w) = .pack w := by
  rw [locate_pack _ (by omega) (by omega), show (0x20000 + 4 * w - 0x20000) / 4 = w by omega]

/-- The last register stands at 0x044 (10_state.md section 3). -/
theorem regOffset_le (r : Reg) : regOffset r ≤ 0x044 := by cases r <;> decide

/-- The reserved part of a `CODE` slot (R65). -/
theorem locate_codeHole (off : Nat) (h1 : 0x4000 ≤ off) (h2 : off < 0x8000) (h3 : 0x24 ≤ off % 64) :
    locate off = .reserved := by
  rw [locate_code off h1 h2, codeSlot_reserved _ _ h3]

theorem locate_afterRegisters (off : Nat) (h1 : 0x048 ≤ off) (h2 : off < 0x400) : locate off = .reserved := by
  rcases locate_register off h2 with ⟨r, rfl, -⟩ | ⟨-, h⟩
  · have := regOffset_le r
    omega
  · exact h

/-- Settles O13: each window's offset leads to its entry, whose words hold the bit fields. -/
theorem idleReadsReturnTheMappedEntry : Obligations.IdleReadsReturnTheMappedEntry := by
  intro s rest off x hidle hin hcase
  have hread : ∀ l, off < 0x40000 → off % 4 = 0 → locate off = l → s.readLocation l = x →
      step s = .next { s with reply := some (.read .ok x), inbox := rest } :=
    fun l ho h4 hl hx => step_read_held ho h4 hin l hl (.inl hidle) x hx
  rcases hcase with ⟨k, hk, rfl, rfl⟩ | ⟨k, hk, rfl, rfl⟩ | ⟨k, hk, rfl, rfl⟩ | ⟨k, hk, rfl, rfl⟩ | ⟨k, hk, rfl, hx⟩ |
    ⟨i, hi, rfl, rfl⟩ | ⟨i, hi, rfl, hx⟩ | ⟨i, hi, rfl, hx⟩ | ⟨i, hi, rfl, hx⟩ | ⟨k, hk, rfl, hx⟩ |
    ⟨k, hk, j, hj, rfl, hx⟩ | ⟨w, hw, rfl, hx⟩ | ⟨w, hw, rfl, hx⟩ | ⟨h4, ho, rfl, hreserved⟩
  · exact hread _ (by omega) (by omega) (locate_freqEntry k hk) rfl
  · exact hread _ (by omega) (by omega) (locate_traceWord k 0 hk (by decide)) rfl
  · exact hread _ (by omega) (by omega) (locate_traceWord k 1 hk (by decide)) rfl
  · exact hread _ (by omega) (by omega) (locate_traceWord k 2 hk (by decide)) rfl
  · exact hread _ (by omega) (by omega) (locate_traceWord k 3 hk (by decide))
      (BitVec.eq_of_toNat_eq ((TraceEntry.word_three_toNat _).trans hx.symm))
  · exact hread _ (by omega) (by omega) (locate_nodeWord i 0 hi (by decide)) rfl
  · exact hread _ (by omega) (by omega) (locate_nodeWord i 1 hi (by decide))
      (BitVec.eq_of_toNat_eq ((Node.word_one_toNat _).trans hx.symm))
  · exact hread _ (by omega) (by omega) (locate_nodeWord i 2 hi (by decide))
      (BitVec.eq_of_toNat_eq ((Node.word_two_toNat _).trans hx.symm))
  · exact hread _ (by omega) (by omega) (locate_nodeWord i 3 hi (by decide))
      (BitVec.eq_of_toNat_eq ((Node.word_three_toNat _).trans hx.symm))
  · exact hread _ (by omega) (by omega) (locate_codeLen k hk)
      (BitVec.eq_of_toNat_eq ((BitVec.toNat_setWidth_of_le (by decide)).trans hx.symm))
  · exact hread _ (by omega) (by omega) (locate_codeVal k j hk hj)
      (BitVec.eq_of_toNat_eq ((CodeEntry.valWord_toNat _ j).trans hx.symm))
  · exact hread _ (by omega) (by omega) (locate_dataWord w hw)
      (BitVec.eq_of_toNat_eq ((memWord_toNat _ w).trans hx.symm))
  · exact hread _ (by omega) (by omega) (locate_packWord w hw)
      (BitVec.eq_of_toNat_eq ((memWord_toNat _ w).trans hx.symm))
  · refine hread .reserved ho h4 ?_ rfl
    rcases hreserved with ⟨h1, h2⟩ | ⟨h1, h2⟩ | ⟨h1, h2⟩ | ⟨h1, h2⟩ | ⟨h1, h2, h3⟩ | ⟨h1, h2⟩ | h1
    · exact locate_afterRegisters off h1 h2
    · exact locate_low off h1 h2
    · exact locate_afterTrace off h1 h2
    · exact locate_afterNode off h1 h2
    · exact locate_codeHole off h1 h2 h3
    · exact locate_afterCode off h1 h2
    · exact locate_high off h1

/- ### The control registers -/

/-- The bits of an idle engine's `STATUS` (R25). -/
theorem statusWord_toNat_of_idle (s : State) (h : s.phase = .idle) :
    s.statusWord.toNat = s.done.toNat * 2 + s.err.toNat * 4 + s.empty.toNat * 8 + s.treeValid.toNat * 16 +
      s.overrun.toNat * 2 ^ 8 + s.errCode.value.toNat * 2 ^ 16 := by
  have hinit : s.init = false := by rw [State.init, h]
  simp only [State.statusWord, append_toNat_eq_add, BitVec.toNat_ofBool, busy_of_idle s h, hinit, BitVec.toNat_ofNat,
    Bool.toNat_false]
  omega

theorem irqEnWord_toNat (s : State) : s.irqEnWord.toNat = s.doneIe.toNat + s.errIe.toNat * 2 := by
  simp only [State.irqEnWord, append_toNat_eq_add, BitVec.toNat_ofBool, BitVec.toNat_ofNat]
  omega

theorem irqStatusWord_toNat (s : State) : s.irqStatusWord.toNat = s.doneIp.toNat + s.errIp.toNat * 2 := by
  simp only [State.irqStatusWord, append_toNat_eq_add, BitVec.toNat_ofBool, BitVec.toNat_ofNat]
  omega

theorem regOffset_injective (r r' : Reg) (h : regOffset r = regOffset r') : r = r' :=
  Option.some.inj (((regAt_eq_some _ r).mpr rfl).symm.trans ((regAt_eq_some _ r').mpr h))

/-- Settles O14: the map leads an offset of the table to its register, and the three flag words are made of their bits. -/
theorem idleReadsReturnTheControlRegisters : Obligations.IdleReadsReturnTheControlRegisters := by
  intro s rest r off hidle hin hoff
  have hreg : off = regOffset r := by cases r <;> exact hoff
  subst hreg
  refine ⟨?read, rfl, fun r' h => regOffset_injective r' r h, ?fields⟩
  case read =>
    have hlt := regOffset_lt r
    exact step_read_held (by omega) (regOffset_aligned r) hin (.reg r) (locate_regOffset r) (.inl hidle) _ rfl
  case fields =>
    cases r
    case status => exact statusWord_toNat_of_idle s hidle
    case irqEn => exact irqEnWord_toNat s
    case irqStatus => exact irqStatusWord_toNat s
    case numLeaves | numSteps | root | maxLen => exact BitVec.toNat_setWidth_of_le (by decide)
    all_goals rfl

end Sys2Proof.Machine

/-! Proofs of the statements about host writes (20_memory.md section 3, 10_state.md section 3), the host's discipline
(70_reset_and_hazards.md) and the interrupt line (60_exceptions.md section 4). -/

namespace Sys2Proof.Machine

/- ### Writing an entry's word (R63, R65) -/

/-- Bit b of a code value is in its word b / 32. -/
theorem CodeEntry.setValWord_getLsbD (c : CodeEntry) (i : Nat) (v : Word) (b : Nat) (hb : b < 256) :
    (c.setValWord i v).val.getLsbD b = if b / 32 = i then v.getLsbD (b % 32) else c.val.getLsbD b := by
  have hmask : ∀ n, (0xFFFFFFFF#32).getLsbD n = decide (n < 32) := fun n => by
    rw [show 0xFFFFFFFF#32 = BitVec.allOnes 32 from rfl, BitVec.getLsbD_allOnes]
  simp only [CodeEntry.setValWord, BitVec.getLsbD_or, BitVec.getLsbD_and, BitVec.getLsbD_not, BitVec.getLsbD_shiftLeft,
    BitVec.getLsbD_setWidth, hmask, hb, decide_true, Bool.true_and]
  rcases Nat.lt_trichotomy (b / 32) i with hlt | rfl | hgt
  · rw [if_neg (by omega)]
    simp [show b < 32 * i by omega]
  · rw [if_pos rfl, show b - 32 * (b / 32) = b % 32 by omega]
    simp [show ¬ b < 32 * (b / 32) by omega, show b % 32 < 256 by omega, show b % 32 < 32 by omega]
  · rw [if_neg (by omega)]
    simp [show ¬ b < 32 * i by omega, show ¬ b - 32 * i < 32 by omega, BitVec.getLsbD_of_ge v (b - 32 * i) (by omega)]

/-- Byte j of a byte RAM is in its word j / 4 (R63). -/
theorem memSetWord_read (m : Memory) (w : Nat) (v : Word) (j : Nat) :
    ramRead 0#8 (memSetWord m w v) j = if j / 4 = w then v.extractLsb' (8 * (j % 4)) 8 else ramRead 0#8 m j := by
  simp only [memSetWord, ramRead_write]
  by_cases hw : j / 4 = w
  · obtain ⟨q, hq, rfl⟩ : ∃ q < 4, j = 4 * w + q := ⟨j % 4, by omega, by omega⟩
    rw [if_pos hw, show (4 * w + q) % 4 = q by omega]
    interval_cases q <;> simp
  · simp [hw, show j ≠ 4 * w + 3 by omega, show j ≠ 4 * w + 2 by omega, show j ≠ 4 * w + 1 by omega,
      show j ≠ 4 * w by omega]

/-- Settles O15: each window's offset leads to its entry, and a RAM read after a write of one entry differs there only. -/
theorem idleWritesStoreInTheMappedEntry : Obligations.IdleWritesStoreInTheMappedEntry := by
  intro s rest off v hidle hin
  have hwrite : ∀ l, off < 0x40000 → off % 4 = 0 → locate off = l → l ≠ .reg .cmd →
      step s = .next (State.writeLocation { s with reply := some (.write .ok), inbox := rest } l v) :=
    fun l ho h4 hl hcmd => step_write_stored ho h4 hin l hl (.inr ⟨hidle, hcmd⟩)
  refine ⟨?freq, ?codeLen, ?codeVal, ?data, ?pack⟩
  case freq =>
    rintro k hk rfl
    exact ⟨_, hwrite _ (by omega) (by omega) (locate_freqEntry k hk) (by simp), ramRead_write 0#32 s.freq k v⟩
  case codeLen =>
    rintro k hk rfl
    exact ⟨_, hwrite _ (by omega) (by omega) (locate_codeLen k hk) (by simp), ramRead_write _ s.code k _⟩
  case codeVal =>
    rintro k hk i hi rfl
    refine ⟨_, hwrite _ (by omega) (by omega) (locate_codeVal k i hk hi) (by simp), ?len, fun b hb => ?bit,
      fun j hj => ?others⟩
    case len => rw [ramRead_write, if_pos rfl]; rfl
    case bit => rw [ramRead_write, if_pos rfl]; exact CodeEntry.setValWord_getLsbD (s.codeAt k) i v b hb
    case others => rw [ramRead_write, if_neg hj]; rfl
  case data =>
    rintro w hw rfl
    exact ⟨_, hwrite _ (by omega) (by omega) (locate_dataWord w hw) (by simp), memSetWord_read s.data w v⟩
  case pack =>
    rintro w hw rfl
    exact ⟨_, hwrite _ (by omega) (by omega) (locate_packWord w hw) (by simp), memSetWord_read s.pack w v⟩

/- ### The access column -/

/-- The offsets that no host write reaches: the read-only windows and the reserved ranges (R67). -/
theorem writeLocation_ignored (s : State) (off : Nat) (v : Word)
    (h : (0x048 ≤ off ∧ off < 0x400) ∨ (0x800 ≤ off ∧ off < 0x4000) ∨
      (0x4000 ≤ off ∧ off < 0x8000 ∧ 0x24 ≤ off % 64) ∨ (0x8000 ≤ off ∧ off < 0x10000) ∨ 0x30000 ≤ off) :
    s.writeLocation (locate off) v = s := by
  by_cases hcode : 0x4000 ≤ off ∧ off < 0x8000
  · rw [locate_codeHole off hcode.1 hcode.2 (by omega)]; rfl
  · rcases locate_cases off with ⟨r, rfl, -⟩ | ⟨k, -, h1, h2, -⟩ | ⟨k, w, -, -, e⟩ | ⟨i, w, -, -, e⟩ |
      ⟨k, -, h1, h2, -⟩ | ⟨k, -, j, h1, h2, -⟩ | ⟨w, -, h1, h2, -⟩ | ⟨w, -, h1, h2, -⟩ | ⟨-, e⟩
    · have := regOffset_le r
      omega
    · omega
    · rw [e]; rfl
    · rw [e]; rfl
    · omega
    · omega
    · omega
    · omega
    · rw [e]; rfl

/-- Settles O16: a register is written as its access says, and the other offsets ignore the write. -/
theorem idleWritesFollowTheAccessColumn : Obligations.IdleWritesFollowTheAccessColumn := by
  intro s rest off v hidle ho h4 hin
  have hreg : ∀ r, r ≠ .cmd → off = regOffset r →
      step s = .next (State.writeLocation { s with reply := some (.write .ok), inbox := rest } (.reg r) v) :=
    fun r hcmd hoff => step_write_stored ho h4 hin (.reg r) (hoff ▸ locate_regOffset r)
      (.inr ⟨hidle, fun h => hcmd (Location.reg.inj h)⟩)
  refine ⟨hreg .status (by decide), hreg .irqEn (by decide), hreg .irqStatus (by decide), hreg .dataLen (by decide),
    hreg .bitCount (by decide), hreg .packLen (by decide), hreg .crcExpect (by decide), ?_⟩
  rintro (hmem | hignored)
  · simp only [List.mem_cons, List.not_mem_nil, or_false] at hmem
    rcases hmem with h | h | h | h | h | h | h | h | h | h
    · exact hreg .id (by decide) h
    · exact hreg .version (by decide) h
    · exact hreg .errInfo (by decide) h
    · exact hreg .cmdCount (by decide) h
    · exact hreg .crcResult (by decide) h
    · exact hreg .numLeaves (by decide) h
    · exact hreg .numSteps (by decide) h
    · exact hreg .root (by decide) h
    · exact hreg .totalWeight (by decide) h
    · exact hreg .maxLen (by decide) h
  · have hcmd : locate off ≠ .reg .cmd := by
      rw [ne_eq, locate_eq_reg]
      show off ≠ 0x008
      omega
    rw [step_write_stored ho h4 hin _ rfl (.inr ⟨hidle, hcmd⟩), writeLocation_ignored _ off v hignored]

/- ### The host's discipline (R273 to R275) and the `WAIT` (R99) -/

theorem transaction_read_wf (off width : Nat) :
    (Transaction.read off width).wf = true ↔ off < 0x40000 ∧ off % 4 = 0 ∧ width = 32 := by
  simp [Transaction.wf, and_assoc]

theorem transaction_write_wf (off width : Nat) (v : Word) :
    (Transaction.write off width v).wf = true ↔ off < 0x40000 ∧ off % 4 = 0 ∧ width = 32 := by
  simp [Transaction.wf, and_assoc]

@[simp] theorem writeLocation_draws (s : State) (l : Location) (v : Word) : (s.writeLocation l v).draws = s.draws := by
  cases l with
  | reg r => cases r <;> rfl
  | _ => rfl

/-- A write of a location never sets `OVERRUN`. -/
theorem writeLocation_overrun (s : State) (l : Location) (v : Word) (h : s.overrun = false) :
    (s.writeLocation l v).overrun = false := by
  cases l with
  | reg r =>
    cases r
    case status => simp [State.writeLocation, writeOneToClear, h]
    all_goals exact h
  | _ => exact h

/-- A write that is not lost goes on, draws nothing, does not set `OVERRUN` and leaves the response. -/
theorem busWrite_disciplined (s : State) (l : Location) (v : Word)
    (h : s.busy = true → l.writableWhileBusy = true) :
    ∃ u, s.busWrite l v = .next u ∧ u.draws = s.draws ∧ (s.overrun = false → u.overrun = false) ∧
      u.reply = s.reply := by
  rcases busWrite_cases s l v with ⟨e, -⟩ | ⟨-, hbusy, hlost⟩ | ⟨e, -⟩ | ⟨e, -⟩
  · exact ⟨_, e, writeLocation_draws s l v, writeLocation_overrun s l v, State.writeLocation_reply s l v⟩
  · rw [h (busy_of_ne_idle s hbusy)] at hlost
    cases hlost
  · exact ⟨_, e, rfl, fun _ => rfl, rfl⟩
  · exact ⟨_, e, rfl, id, rfl⟩

/-- A turn of the discipline's host is answered `OK`, draws nothing and does not set `OVERRUN`. -/
theorem step_disciplined (s : State) (rest : List Event) (t : Transaction) (hin : s.inbox = .host t :: rest)
    (h : s.disciplined t) :
    ∃ u, step s = .next u ∧ u.draws = s.draws ∧ (s.overrun = false → u.overrun = false) ∧
      (u.reply = some (.write .ok) ∨ ∃ v, u.reply = some (.read .ok v)) := by
  obtain ⟨hwf, hbusy⟩ := h
  cases t with
  | read off width =>
    obtain ⟨ho, h4, rfl⟩ := (transaction_read_wf off width).mp hwf
    have hread : s.phase = .idle ∨ (locate off).readableWhileBusy = true := by
      by_cases hidle : s.phase = .idle
      · exact .inl hidle
      · exact .inr (hbusy (busy_of_ne_idle s hidle))
    exact ⟨_, step_read_held ho h4 hin _ rfl hread _ rfl, rfl, id, .inr ⟨_, rfl⟩⟩
  | write off width v =>
    obtain ⟨ho, h4, rfl⟩ := (transaction_write_wf off width v).mp hwf
    obtain ⟨u, hu, hdraws, hoverrun, hreply⟩ :=
      busWrite_disciplined { s with reply := some (.write .ok), inbox := rest } (locate off) v hbusy
    exact ⟨u, (step_write ho h4 hin).trans hu, hdraws, hoverrun, .inl hreply⟩

/-- Settles O17: a transaction of the discipline, and the read of a `WAIT`, idle and busy, with and without a gap left. -/
theorem disciplinedHostTurnsLoseNothing : Obligations.DisciplinedHostTurnsLoseNothing := by
  refine fun s rest => ⟨step_disciplined s rest, fun gaps hin => ⟨fun hidle => ?_, fun hbusy => ?_⟩⟩
  · exact ⟨by rw [statusWord_bit0, hidle]; rfl, step_wait_idle s gaps rest hin hidle⟩
  · refine ⟨by rw [statusWord_bit0]; exact decide_eq_true hbusy, fun g more hgaps => ?_, fun hgaps => ?_⟩
    · rw [step_wait_busy s gaps rest hin hbusy, hgaps, waitAgain, List.append_assoc]; rfl
    · rw [step_wait_busy s gaps rest hin hbusy, hgaps]; rfl

/- ### The interrupt line (R249, R250) -/

theorem irq_iff (s : State) :
    s.irq = true ↔ (s.doneIp = true ∧ s.doneIe = true) ∨ (s.errIp = true ∧ s.errIe = true) := by
  simp [State.irq]

/-- Settles O18: both registers are written in any phase, and the line shows the bits they hold then. -/
theorem interruptLineFollowsEnabledPendingBits : Obligations.InterruptLineFollowsEnabledPendingBits := by
  refine fun s rest v => ⟨fun hin => ?enable, fun hin hdone herr => ?clear⟩
  case enable =>
    exact ⟨_, step_write_stored (by decide) (by decide) hin (.reg .irqEn) rfl (.inl rfl), rfl, rfl, irq_iff _⟩
  case clear =>
    refine ⟨_, step_write_stored (by decide) (by decide) hin (.reg .irqStatus) rfl (.inl rfl), ?_, rfl, rfl⟩
    simp [State.irq, State.writeLocation, writeOneToClear, hdone, herr]

end Sys2Proof.Machine

/-! Proofs of the statements about every command (30_encoding.md sections 2 and 4, 60_exceptions.md sections 1 and 4): the
completion, the error report, what a command reads and writes, and the length checks. -/

namespace Sys2Proof.Machine

/- ### Success and failure, told by `ERR` -/

/-- A command that ends with `ERR` = 0 is the completion of its rule's result. -/
theorem exec_succeeded (i : Instr) (s t : State) (hi : i ≠ .srst) (h : exec i s = .next t) (he : t.err = false) :
    ∃ u, commandRule i s = .ok u ∧ t = u.completeOk := by
  rcases exec_cases i s t hi h with hok | ⟨c, info, -, -, rfl⟩
  · exact hok
  · cases he

/-- Whatever the command, a rule's result differs from the state before in operand registers, tree registers, RAMs and
`EMPTY` only: the completion and the accept write the rest of the control state. -/
theorem commandRule_keepsControl (i : Instr) (s t : State) (h : commandRule i s = .ok t) :
    t = { t with
      phase := s.phase, pending := s.pending, lastCmd := s.lastCmd, done := s.done, err := s.err,
      overrun := s.overrun, errCode := s.errCode, errInfo := s.errInfo, cmdCount := s.cmdCount, doneIe := s.doneIe,
      errIe := s.errIe, doneIp := s.doneIp, errIp := s.errIp, reply := s.reply, inbox := s.inbox,
      draws := s.draws } := by
  cases i <;> simp only [commandRule] at h
  case nop | srst | hclr | cclr => cases h; rfl
  case hacc => rw [hacc_frame _ _ h]
  case build => rw [build_frame _ _ h]
  case genc => rw [genc_frame _ _ h]
  case pack => rw [pack_frame _ _ h]
  case unpack => rw [unpack_frame _ _ h]
  case crc => rw [crcCommand_frame _ _ h]
  case encode =>
    obtain ⟨-, ⟨-, rfl⟩ | ⟨-, h⟩⟩ := (encodeCommand_eq_ok s t).mp h
    · rfl
    · rw [encodeNonEmpty_frame _ _ h]
  case decode => rw [decodeCommand_frame _ _ h]

/-- Settles O19: both completions report `DONE`, and the rule of a command leaves the enables, `OVERRUN` and the accept's
records alone. -/
theorem everyCompletionReportsDone : Obligations.EveryCompletionReportsDone := by
  intro i s t hi h
  rcases exec_cases i s t hi h with ⟨u, hu, rfl⟩ | ⟨c, info, -, hc, rfl⟩
  · have hcontrol := commandRule_keepsControl i s u hu
    exact ⟨rfl, rfl, (congrArg State.errIp hcontrol).trans (Bool.or_false _).symm, rfl, rfl,
      (congrArg State.doneIe hcontrol :), (congrArg State.errIe hcontrol :), (congrArg State.overrun hcontrol :),
      (congrArg State.lastCmd hcontrol :), (congrArg State.cmdCount hcontrol :), by simp, fun _ => rfl⟩
  · exact ⟨rfl, rfl, (Bool.or_true _).symm, rfl, rfl, rfl, rfl, rfl, rfl, rfl, by simp [hc], by simp⟩

/-- Settles O20: of the two completions only the error's sets `ERR`, and SRST sets nothing. -/
theorem failedCommandChangesOnlyTheErrorReport : Obligations.FailedCommandChangesOnlyTheErrorReport := by
  intro i s t h he
  by_cases hi : i = .srst
  · subst hi; cases h; cases he
  · rcases exec_cases i s t hi h with ⟨u, -, rfl⟩ | ⟨c, info, -, hc, rfl⟩
    · cases he
    · exact ⟨rfl, hc⟩

/-- Settles O21, command by command: the frame of its rule. -/
theorem successfulCommandWritesOnlyItsColumn : Obligations.SuccessfulCommandWritesOnlyItsColumn := by
  intro i s t h he hi u
  obtain ⟨w, hw, rfl⟩ := exec_succeeded i s t hi h he
  cases i <;> simp only [commandRule] at hw
  case srst => exact absurd rfl hi
  case nop | hclr | cclr => cases hw; rfl
  case hacc => dsimp only [u]; rw [hacc_frame _ _ hw]; rfl
  case build => dsimp only [u]; rw [build_frame _ _ hw]; rfl
  case genc => dsimp only [u]; rw [genc_frame _ _ hw]; rfl
  case pack => dsimp only [u]; rw [pack_frame _ _ hw]; rfl
  case unpack => dsimp only [u]; rw [unpack_frame _ _ hw]; rfl
  case crc => dsimp only [u]; rw [crcCommand_frame _ _ hw]; rfl
  case encode =>
    obtain ⟨-, ⟨-, rfl⟩ | ⟨-, hw⟩⟩ := (encodeCommand_eq_ok s w).mp hw
    · rfl
    · dsimp only [u]; rw [encodeNonEmpty_frame _ _ hw]; rfl
  case decode => dsimp only [u]; rw [decodeCommand_frame _ _ hw]; rfl

/- ### The length checks come first (R243) -/

/-- A command that begins with the check of `DATA_LEN` raises LEN_RANGE before anything else. -/
theorem finish_lenRange (s : State) (h : 65536 < s.dataLen.toNat) (f : Unit → CmdM State) :
    finish s (s.checkDataLen >>= f) = .next (s.commitError .lenRange s.dataLen) := by
  rw [checkDataLen_of_gt s h, CmdM.bind_raise, finish_raise]

theorem unpackOutput_packLenRange (s : State) (h : 65536 < s.packLen.toNat) :
    unpackOutput s = raiseError .packLenRange s.packLen := by
  rw [unpackOutput, if_pos (by simpa [Config.packBytes] using h)]

/-- Settles O23: the range check is the first thing each of the six does. -/
theorem lengthsOutOfRangeAreReportedFirst : Obligations.LengthsOutOfRangeAreReportedFirst := by
  refine fun s => ⟨fun h i hi => ?dataLen, fun h => ?packLen⟩
  case dataLen =>
    simp only [List.mem_cons, List.not_mem_nil, or_false] at hi
    rcases hi with rfl | rfl | rfl | rfl <;> exact finish_lenRange s h _
  case packLen => exact exec_unpackOutput_error s _ _ (unpackOutput_packLenRange s h)

/- ### What a command reads (R276) -/

/-- What two completions that agree through F have in common: the report, and on success the values of F. -/
theorem finish_agree_ok {β : Type} (F : State → β) {s s' t t' : State} {r r' : CmdM State}
    (hr : r.map F = r'.map F) (hF : ∀ u, F (State.completeOk u) = F u) (h : finish s r = .next t)
    (h' : finish s' r' = .next t') :
    t.errCode = t'.errCode ∧ t.errInfo = t'.errInfo ∧ (t.err = false → F t = F t') := by
  obtain ⟨hcode, hinfo, -, hok, -⟩ := finish_agree F s s' t t' r r' hr h h'
  refine ⟨hcode, hinfo, fun he => ?_⟩
  obtain ⟨u, u', -, -, rfl, rfl, hF'⟩ := hok he
  rw [hF, hF, hF']

/-- The bytes that two states show alike up to a common length. -/
theorem packOut_eq {t t' : State} (h : packOut t = packOut t') :
    t.bitCount = t'.bitCount ∧ t.packLen = t'.packLen ∧ ∀ j < t.packLen.toNat, t.packAt j = t'.packAt j := by
  simp only [packOut, Prod.mk.injEq] at h
  exact ⟨h.1, h.2.1, range_map_eq _ _ _ _ h.2.2⟩

theorem dataOut_eq {t t' : State} (h : dataOut t = dataOut t') :
    t.dataLen = t'.dataLen ∧ ∀ i < t.dataLen.toNat, t.dataAt i = t'.dataAt i := by
  simp only [dataOut, Prod.mk.injEq] at h
  exact ⟨h.1, range_map_eq _ _ _ _ h.2⟩

theorem treeOut_eq {t t' : State} (h : treeOut t = treeOut t') :
    t.node = t'.node ∧ t.trace = t'.trace ∧ t.numLeaves = t'.numLeaves ∧ t.numSteps = t'.numSteps ∧
      t.root = t'.root ∧ t.totalWeight = t'.totalWeight ∧ t.treeValid = t'.treeValid := by
  simpa only [treeOut, Prod.mk.injEq] using h

/-- HACC leaves the same counters on success, and the old ones, which it reads, on an error. -/
theorem hacc_reads {s s' t t' : State} (h : exec .hacc s = .next t) (h' : exec .hacc s' = .next t')
    (hlen : s.dataLen = s'.dataLen) (hdata : s.data = s'.data) (hfreq : s.freq = s'.freq) :
    t.errCode = t'.errCode ∧ t.errInfo = t'.errInfo ∧ t.freq = t'.freq := by
  obtain ⟨hcode, hinfo, -, hok, herr⟩ :=
    finish_agree State.freq s s' t t' _ _ (hacc_congr s s' hlen hdata hfreq) h h'
  refine ⟨hcode, hinfo, ?_⟩
  cases he : t.err with
  | false =>
    obtain ⟨u, u', -, -, rfl, rfl, hu⟩ := hok he
    exact hu
  | true =>
    obtain ⟨c, info, rfl, rfl⟩ := herr he
    exact hfreq

/-- ENCODE writes `EMPTY` for the empty input only (R226). -/
theorem encodeCommand_empty (s t : State) (h : encodeCommand s = .ok t) :
    t.empty = if s.dataLen = 0#32 then true else s.empty := by
  obtain ⟨-, ⟨h0, rfl⟩ | ⟨h0, h⟩⟩ := (encodeCommand_eq_ok s t).mp h
  · rw [if_pos h0]; rfl
  · rw [if_neg h0, encodeNonEmpty_frame _ _ h]

/-- Settles O22, command by command: the rule's results agree on two states that agree on what it reads. -/
theorem commandsReadOnlyTheirColumn : Obligations.CommandsReadOnlyTheirColumn := by
  intro s s' t t'
  refine ⟨hacc_reads, ?build, ?genc, ?pack, ?unpack, ?crc, ?encode, ?decode⟩
  case build =>
    intro h h' hfreq
    obtain ⟨hcode, hinfo, hout⟩ := finish_agree_ok treeOut (build_congr s s' hfreq) (fun _ => rfl) h h'
    exact ⟨hcode, hinfo, fun he => treeOut_eq (hout he)⟩
  case genc =>
    intro h h' hvalid hnode hleaves hroot
    obtain ⟨hcode, hinfo, hout⟩ := finish_agree_ok _ (genc_congr s s' hvalid hnode hleaves hroot) (fun _ => rfl) h h'
    exact ⟨hcode, hinfo, fun he => Prod.mk.inj (hout he)⟩
  case pack =>
    intro h h' hlen hdata hcodes
    obtain ⟨hcode, hinfo, hout⟩ := finish_agree_ok packOut (pack_congr s s' hlen hdata hcodes) (fun _ => rfl) h h'
    exact ⟨hcode, hinfo, fun he => packOut_eq (hout he)⟩
  case unpack =>
    intro h h' hlen hbits hpack hcodes
    obtain ⟨hcode, hinfo, hout⟩ :=
      finish_agree_ok dataOut (unpack_congr s s' hlen hbits hpack hcodes) (fun _ => rfl) h h'
    exact ⟨hcode, hinfo, fun he => dataOut_eq (hout he)⟩
  case crc =>
    intro h h' hlen hdata
    exact finish_agree_ok State.crcResult (crc_congr s s' hlen hdata) (fun _ => rfl) h h'
  case encode =>
    intro h h' hlen hdata
    obtain ⟨hcode, hinfo, herr, hok, -⟩ := finish_agree encOut s s' t t' _ _ (encode_congr s s' hlen hdata) h h'
    refine ⟨hcode, hinfo, fun he => ?_⟩
    obtain ⟨u, u', hu, hu', rfl, rfl, hout⟩ := hok he
    simp only [encOut, Prod.mk.injEq] at hout
    obtain ⟨hfreq, htree, hcodes, hmax, hpack, hcrc⟩ := hout
    obtain ⟨hnode, htrace, hleaves, hsteps, hroot, hweight, hvalid⟩ := treeOut_eq htree
    obtain ⟨hbits, hpackLen, hbytes⟩ := packOut_eq hpack
    refine ⟨hfreq, hnode, htrace, hcodes, hmax, hbits, hpackLen, hcrc, hleaves, hsteps, hroot, hweight, hvalid,
      fun hempty => ?_, hbytes⟩
    rw [State.completeOk_empty, State.completeOk_empty, encodeCommand_empty s u hu, encodeCommand_empty s' u' hu', hlen,
      hempty]
  case decode =>
    intro h h' hlen hbits hpack hcodes hcrc
    obtain ⟨hcode, hinfo, hout⟩ :=
      finish_agree_ok _ (decode_congr s s' hlen hbits hpack hcodes hcrc) (fun _ => rfl) h h'
    refine ⟨hcode, hinfo, fun he => ?_⟩
    obtain ⟨hdata, hcrc⟩ := Prod.mk.inj (hout he)
    exact ⟨(dataOut_eq hdata).1, hcrc, (dataOut_eq hdata).2⟩

end Sys2Proof.Machine

/-! Proofs of the statements about the histogram accumulator (40_histogram.md) and the tree builder (41_tree_builder.md):
HACC's counts, the tree that BUILD leaves, the order of its merges, and the errors of both units. -/

namespace Sys2Proof.Machine

/- ### HACC (R122, R123) -/

theorem accumulated_eq (s : State) (k : Nat) :
    s.accumulated k =
      (s.freqAt k).toNat + (List.range s.dataLen.toNat).countP (fun i => (s.dataAt i).toNat == k) := by
  rw [State.accumulated, symbolCount_input]

/-- The counters that a successful HACC leaves (R122). -/
def State.haccCounters (s : State) : Ram Word :=
  ramOfList 0#32 ((List.range Config.nsym).map fun k => BitVec.ofNat 32 (s.accumulated k))

theorem haccCounters_toNat (s : State) (k : Nat) (hk : k < 256) (h : s.accumulated k < 2 ^ 32) :
    (ramRead 0#32 s.haccCounters k).toNat = s.accumulated k := by
  rw [State.haccCounters, ramRead_ofList, getD_map_range, if_pos hk, ofNat32_toNat _ h]

theorem exec_hacc_completes (s : State) (hlen : s.dataLen.toNat ≤ 65536)
    (hfit : ∀ k < 256, s.accumulated k < 2 ^ 32) :
    exec .hacc s = .next { s with freq := s.haccCounters }.completeOk := by
  rw [exec_hacc, hacc_eq s hlen hfit, finish_ok]; rfl

/-- Settles O27: no counter overflows, so each holds its sum. -/
theorem haccAddsTheByteCounts : Obligations.HaccAddsTheByteCounts := by
  intro s hlen hfit
  simp only [← accumulated_eq] at hfit ⊢
  exact ⟨s.haccCounters, exec_hacc_completes s hlen hfit, fun k hk => haccCounters_toNat s k hk (hfit k hk)⟩

/-- Settles O28: the scan of the counters stops at the first that overflows. -/
theorem haccReportsTheSmallestOverflowingSymbol : Obligations.HaccReportsTheSmallestOverflowingSymbol := by
  intro s k hlen hk hover hbelow
  simp only [← accumulated_eq] at hover hbelow
  rw [exec_hacc, hacc_overflow s hlen k hk hover hbelow]
  exact finish_raise s _ _

/-- In a cleared table the sums are the counts of the input, which no length allowed lets overflow. -/
theorem accumulated_of_clear (s : State) (h : s.freq = []) (k : Nat) : s.accumulated k = symbolCount s.input k := by
  simp [State.accumulated, State.freqAt, h]

/-- Settles O29: HACC of the cleared table counts each symbol of the input, and the counts of a byte sequence sum to its
length. -/
theorem countsOfAClearTableSumToTheLength : Obligations.CountsOfAClearTableSumToTheLength := by
  intro s t u hlen hclear hacc
  rw [exec_hclr_completes, Host.Outcome.next.injEq] at hclear
  subst hclear
  let c : State := { s with freq := [] }.completeOk
  have hcount : ∀ k, c.accumulated k = symbolCount s.input k := accumulated_of_clear c rfl
  have hle : ∀ k, symbolCount s.input k ≤ s.dataLen.toNat := fun k => (symbolCount_le _ k).trans_eq (input_length s)
  have hfit : ∀ k < 256, c.accumulated k < 2 ^ 32 := fun k _ => by
    have := hle k
    rw [hcount]
    omega
  rw [show exec .hacc c = _ from exec_hacc_completes c hlen hfit, Host.Outcome.next.injEq] at hacc
  subst hacc
  have hread : ∀ k < 256, (ramRead 0#32 c.haccCounters k).toNat = symbolCount s.input k := fun k hk => by
    rw [haccCounters_toNat c k hk (hfit k hk), hcount]
  refine ⟨rfl, ?sum, fun k hk => ?occurs⟩
  case sum =>
    calc ((List.range 256).map fun k => (ramRead 0#32 c.haccCounters k).toNat).sum
        = ((List.range 256).map (symbolCount s.input)).sum := by
          rw [List.map_congr_left fun k hk => hread k (List.mem_range.mp hk)]
      _ = s.dataLen.toNat := by rw [sum_symbolCounts, input_length]
  case occurs =>
    show 1 ≤ (ramRead 0#32 c.haccCounters k).toNat ↔ _
    rw [hread k hk, symbolCount_pos, input_eq]
    simp

/- ### BUILD (R141) -/

theorem presentSymbols_length_eq (s : State) :
    s.presentSymbols.length = (List.range 256).countP (fun k => s.freqAt k ≠ 0#32) :=
  List.countP_eq_length_filter.symm

theorem presentSymbols_ne_nil (s : State) (k : Nat) (hk : k < 256) (h : s.freqAt k ≠ 0#32) :
    s.presentSymbols.length ≠ 0 := by
  rw [ne_eq, List.length_eq_zero_iff]
  exact List.ne_nil_of_mem ((mem_presentSymbols s k).mpr ⟨hk, h⟩)

/-- A table without a count has the total 0. -/
theorem freqTotal_of_empty (s : State) (h : s.presentSymbols.length = 0) : s.freqTotal = 0 := by
  rw [← leafKeys_sum, List.length_eq_zero_iff.mp ((leafKeys_length s).trans h)]; rfl

/-- What BUILD leaves does not depend on the completion. -/
theorem Built.completeOk {s u : State} (b : Built s u) : Built s u.completeOk :=
  ⟨b.pos, b.le, b.total, b.leaves, b.steps, b.root, b.weight, b.leaf, b.inner, b.rest, b.trace, b.traceRest⟩

/-- A successful BUILD leaves the tree of R141. -/
theorem exec_build_built (s t : State) (h : exec .build s = .next t) (he : t.err = false) : Built s t := by
  obtain ⟨u, hu, rfl⟩ := exec_succeeded .build s t (by decide) h he
  exact (built_of_ok s u hu).completeOk

/-- Leaf i of the tree is the i-th present symbol with its count. -/
theorem Built.leaf_sym {s t : State} (b : Built s t) (i : Nat) (h : i < s.presentSymbols.length) :
    (t.nodeAt i).sym.toNat = s.presentSymbols[i] ∧ (t.nodeAt i).w = s.freqAt s.presentSymbols[i] := by
  have hlt := presentSymbols_lt s _ (List.getElem_mem h)
  rw [b.leaf i h]
  exact ⟨Nat.mod_eq_of_lt hlt, rfl⟩

/-- Settles O30: BUILD passes its two checks and leaves the whole tree of the present symbols. -/
theorem buildCompletesWithATreeOfThePresentSymbols : Obligations.BuildCompletesWithATreeOfThePresentSymbols := by
  rintro s ⟨k, hk, hcount⟩ htotal
  have hbuild := (build_eq_ok s _).mpr ⟨presentSymbols_ne_nil s k hk hcount, htotal, rfl⟩
  have b := built_of_ok s _ hbuild
  refine ⟨_, ?completion, b.treeWf, b.leaves.trans (presentSymbols_length_eq s), b.weight, fun i hi => ?leaf,
    fun j hj hpresent => ?symbol⟩
  case completion => rw [exec_build, hbuild, finish_ok]; rfl
  case leaf =>
    obtain ⟨hsym, hw⟩ := b.leaf_sym i (b.leaves ▸ hi)
    rw [hw, hsym]
  case symbol =>
    obtain ⟨i, hi, rfl⟩ := List.getElem_of_mem ((mem_presentSymbols s j).mpr ⟨hj, hpresent⟩)
    exact ⟨i, b.leaves.symm ▸ hi, (b.leaf_sym i hi).1⟩

/-- Settles O32: the checks of BUILD in their order, and GENC's only one. -/
theorem buildAndGencReportTheirErrors : Obligations.BuildAndGencReportTheirErrors := by
  refine fun s => ⟨fun hempty => ?empty, fun hover => ?overflow, fun hinvalid => ?noTree⟩
  case empty =>
    have hnone : s.presentSymbols.length = 0 := by
      rw [presentSymbols_length_eq, List.countP_eq_zero]
      intro k hk
      simp [hempty k (List.mem_range.mp hk)]
    rw [exec_build, build, if_pos hnone]
    exact finish_raise s _ _
  case overflow =>
    have hover : 2 ^ 32 ≤ s.freqTotal := hover
    have hsome : s.presentSymbols.length ≠ 0 := fun h => by
      rw [freqTotal_of_empty s h] at hover
      omega
    rw [exec_build, build, if_neg hsome, if_pos (by omega)]
    exact finish_raise s _ _
  case noTree =>
    rw [exec_genc, genc, if_pos hinvalid]
    exact finish_raise s _ _

/- ### The order of the merges (R140, R143 law 5) -/

/-- What merge k takes from its collection, and the next collection. -/
theorem buildPick_order (s : State) (k : Nat) (hk : k < s.presentSymbols.length - 1) :
    ∃ A2, collectionAt s.presentSymbols.length s.leafKeys (k + 1) =
        { w := (buildPick s k).1.w + (buildPick s k).2.w, i := s.presentSymbols.length + k } :: A2 ∧
      (collectionAt s.presentSymbols.length s.leafKeys k).Perm ((buildPick s k).1 :: (buildPick s k).2 :: A2) ∧
      (buildPick s k).1.before (buildPick s k).2 = true ∧ (∀ c ∈ A2, (buildPick s k).1.before c = true) ∧
      (∀ c ∈ A2, (buildPick s k).2.before c = true) :=
  pickAt_spec _ _ _ k (build_collection s k (.inl (by omega))) (by rw [leafKeys_length]; omega)

/-- Keys of a collection are ordered as their nodes are by the weights in `NODE`. -/
theorem Built.nodeBefore {s t : State} (b : Built s t) (k : Nat) (hk : k < s.presentSymbols.length - 1) (x y : Key)
    (hx : x ∈ collectionAt s.presentSymbols.length s.leafKeys k)
    (hy : y ∈ collectionAt s.presentSymbols.length s.leafKeys k) (h : x.before y = true) :
    t.nodeBefore x.i y.i := by
  have hcoll := build_collection s k (.inl (by omega))
  have hweight : ∀ z ∈ collectionAt s.presentSymbols.length s.leafKeys k, t.weight z.i = z.w := fun z hz => by
    have := hcoll.bound z hz
    rw [b.weightOf _ (by omega), hcoll.weight z hz]
  rw [State.nodeBefore, hweight x hx, hweight y hy]
  exact (before_iff x y).mp h

/-- Settles O31: merge k takes the least key of its collection and then the least of the rest, and the keys stand for the
nodes not yet taken. -/
theorem everyMergeTakesTheTwoLeastNodes : Obligations.EveryMergeTakesTheTwoLeastNodes := by
  intro s t h he k hk n
  have b := exec_build_built s t h he
  have hn : n = s.presentSymbols.length := b.leaves
  clear_value n
  subst hn
  have hk : k < s.presentSymbols.length - 1 := b.leaves ▸ hk
  obtain ⟨A2, -, hperm, hab, ha, hb⟩ := buildPick_order s k hk
  have hmem : ∀ c, c ∈ collectionAt s.presentSymbols.length s.leafKeys k ↔
      c = (buildPick s k).1 ∨ c = (buildPick s k).2 ∨ c ∈ A2 := fun c => by rw [hperm.mem_iff]; simp
  simp only [b.leftOf k hk, b.rightOf k hk, b.inCollection k _ hk.le, List.mem_map, hmem]
  refine ⟨⟨_, .inl rfl, rfl⟩, ⟨_, .inr (.inl rfl), rfl⟩, ?first, ?second⟩
  case first =>
    rintro _ ⟨c, hc, rfl⟩ hca
    refine b.nodeBefore k hk _ c ((hmem _).mpr (.inl rfl)) ((hmem c).mpr hc) ?_
    rcases hc with rfl | rfl | hc
    · exact absurd rfl hca
    · exact hab
    · exact ha c hc
  case second =>
    rintro _ ⟨c, hc, rfl⟩ hca hcb
    refine b.nodeBefore k hk _ c ((hmem _).mpr (.inr (.inl rfl))) ((hmem c).mpr hc) ?_
    rcases hc with rfl | rfl | hc
    · exact absurd rfl hca
    · exact absurd rfl hcb
    · exact hb c hc

theorem Key.before_weight {x y : Key} (h : x.before y = true) : x.w ≤ y.w := by
  rcases (before_iff x y).mp h with h | ⟨h, -⟩ <;> omega

/-- The sums of the merges never fall: all that stays after merge k, and the node it made, weighs at least what its right
child weighed. -/
theorem buildCost_mono (s : State) (k : Nat) (hk : k + 1 < s.presentSymbols.length - 1) :
    buildCost s k ≤ buildCost s (k + 1) := by
  obtain ⟨A2, hnext, -, hab, -, hb⟩ := buildPick_order s k (by omega)
  obtain ⟨A3, -, hperm, -, -, -⟩ := buildPick_order s (k + 1) hk
  have hheavy : ∀ c ∈ collectionAt s.presentSymbols.length s.leafKeys (k + 1), (buildPick s k).2.w ≤ c.w := by
    rw [hnext]
    rintro c (_ | ⟨_, hc⟩)
    · exact Nat.le_add_left _ _
    · exact Key.before_weight (hb c hc)
  have h1 := hheavy (buildPick s (k + 1)).1 (hperm.mem_iff.mpr (by simp))
  have h2 := hheavy (buildPick s (k + 1)).2 (hperm.mem_iff.mpr (by simp))
  have h3 := Key.before_weight hab
  simp only [buildCost]
  omega

/-- The three weights of a step of the trace. -/
theorem Built.trace_weights {s t : State} (b : Built s t) (k : Nat) (hk : k < s.presentSymbols.length - 1) :
    (t.traceAt k).wl.toNat = (buildPick s k).1.w ∧ (t.traceAt k).wr.toNat = (buildPick s k).2.w ∧
      (t.traceAt k).ws.toNat = buildCost s k := by
  obtain ⟨-, -, -, hsum, -⟩ := buildPick_spec s k hk
  have htotal := b.total
  rw [b.trace k hk]
  exact ⟨ofNat32_toNat _ (by omega), ofNat32_toNat _ (by omega), ofNat32_toNat _ (by omega)⟩

/-- Settles O33: the weights of the trace are the keys' weights, which the merges take in rising order. -/
theorem traceWeightsAreOrdered : Obligations.TraceWeightsAreOrdered := by
  intro s t h he k hk
  have b := exec_build_built s t h he
  rw [b.steps] at hk ⊢
  obtain ⟨hl, hr, hs⟩ := b.trace_weights k hk
  obtain ⟨-, -, -, hab, -, -⟩ := buildPick_order s k hk
  rw [hl, hr, hs]
  refine ⟨Key.before_weight hab, rfl, fun hk' => ?_⟩
  obtain ⟨-, -, hs'⟩ := b.trace_weights (k + 1) hk'
  rw [hs']
  exact buildCost_mono s k hk'

end Sys2Proof.Machine

/-! Proofs of the statements about the code generator (42_code_generator.md): the paths of a tree as codes, the code of a
single leaf, and the code laws after BUILD. -/

namespace Sys2Proof.Machine

/- ### GENC on a tree of two or more leaves (R160) -/

section tree

variable {s : State} (h : s.TreeWf)
include h

theorem State.TreeWf.root_eq : s.root.toNat = 2 * s.numLeaves.toNat - 2 := by
  obtain ⟨-, -, -, hroot, -⟩ := h
  exact hroot

/-- Every leaf of a tree of two or more leaves has exactly one path from the root, of 1 to 255 bits. -/
theorem State.TreeWf.leaf_path (hn : 2 ≤ s.numLeaves.toNat) (i : Nat) (hi : i < s.numLeaves.toNat) :
    ∃ path, s.nodeAlong (2 * s.numLeaves.toNat - 2) path = some i ∧ 1 ≤ path.length ∧ path.length ≤ 255 ∧
      ∀ p, s.nodeAlong (2 * s.numLeaves.toNat - 2) p = some i → p = path := by
  obtain ⟨path, hpath⟩ := h.reached i (by omega)
  refine ⟨path, hpath, ?_, (h.path_length i path hpath).2, fun p hp => h.path_unique i p path hp hpath⟩
  cases path with
  | nil =>
    rw [nodeAlong_nil, Option.some.injEq] at hpath
    omega
  | cons b p => simp

/-- No `VAL` of the table has a bit at or above its `LEN` (R160). -/
theorem State.TreeWf.val_lt (k : Nat) :
    (ramRead CodeEntry.zero (codeRamOf s.treePathCodes) k).val.toNat <
      2 ^ (ramRead CodeEntry.zero (codeRamOf s.treePathCodes) k).len.toNat := by
  rcases h.code_cases k with e | ⟨i, -, p, hp, -, e⟩
  · rw [e]; decide
  · have hlen : (BitVec.ofNat 8 p.length).toNat = p.length :=
      Nat.mod_eq_of_lt (Nat.lt_succ_of_le (h.path_length i p hp).2)
    rw [e, hlen]
    exact (Nat.mod_le _ _).trans_lt (bitsVal_lt p)

end tree

/-- Settles O34: GENC writes the table of the paths. -/
theorem gencWritesTheTreePaths : Obligations.GencWritesTheTreePaths := by
  intro s hv h hn
  let t : State := { s with
    code := codeRamOf s.treePathCodes, maxLen := BitVec.ofNat 8 (longestCode (codeRamOf s.treePathCodes)) }
  obtain ⟨-, hpaths, -⟩ := h.table hn t fun _ => rfl
  obtain ⟨hle, hbound, hattained⟩ := h.longest
  have hmax : t.maxLen.toNat = longestCode (codeRamOf s.treePathCodes) := Nat.mod_eq_of_lt (Nat.lt_succ_of_le hbound)
  refine ⟨t, ?completion, fun i hi => ?path, fun k hk => h.code_absent k hk, fun k => h.val_lt k, ?_, ?_⟩
  case completion => rw [exec_genc, h.genc hv hn, finish_ok]; rfl
  case path =>
    obtain ⟨path, hpath, hpos, hlen, hunique⟩ := h.leaf_path hn i hi
    rw [h.root_eq]
    exact ⟨path, hpath, hpos, hlen, hpaths i hi path hpath, hunique⟩
  · rw [hmax]; exact hle
  · rw [hmax]; exact hattained

/- ### The single leaf -/

/-- The code "0" (R14, R160). -/
abbrev CodeEntry.bitZero : CodeEntry := { len := 1#8, val := 0#256 }

theorem codeRamOf_single (k : Nat) (c : CodeEntry) (j : Nat) :
    ramRead CodeEntry.zero (codeRamOf [(k, c)]) j = if j = k then c else CodeEntry.zero := by
  simp [codeRamOf]

theorem longestCode_bitZero (k : Nat) : longestCode (codeRamOf [(k, CodeEntry.bitZero)]) = 1 := by
  simp [longestCode, codeRamOf, ramWrite, ramSplice, ramCells]

/-- GENC on a one-leaf tree (R160). -/
theorem genc_single (s : State) (hv : s.treeValid = true) (h1 : s.numLeaves = 1#9) :
    genc s = .ok { s with code := codeRamOf [((s.nodeAt 0).sym.toNat, CodeEntry.bitZero)], maxLen := 1#8 } := by
  rw [genc, if_neg (by simp [hv]), State.treeCodes, if_pos h1, CmdM.bind_ok, longestCode_bitZero]

/-- Settles O35: the table of the single leaf has one entry. -/
theorem gencGivesTheSingleLeafTheCodeZero : Obligations.GencGivesTheSingleLeafTheCodeZero := by
  intro s hv h1
  refine ⟨codeRamOf [((s.nodeAt 0).sym.toNat, CodeEntry.bitZero)], ?completion, fun k => ?read⟩
  case completion => rw [exec_genc, genc_single s hv h1, finish_ok]; rfl
  case read => exact codeRamOf_single _ _ k

/- ### GENC after BUILD (R162) -/

/-- The completion of a command hides nothing from GENC. -/
theorem genc_completeOk (s : State) : genc s.completeOk = (genc s).map State.completeOk := by
  have hcodes : s.completeOk.treeCodes = s.treeCodes := by
    simp only [State.treeCodes, walkTree_congr s.completeOk s rfl]; rfl
  unfold genc
  rw [hcodes, State.completeOk_treeValid]
  split
  · rfl
  · rw [CmdM.map_bind]; rfl

/-- What GENC writes after a successful BUILD, and that the table is the tree's. -/
theorem exec_genc_of_build (s t u : State) (h : exec .build s = .next t) (he : t.err = false)
    (hu : exec .genc t = .next u) :
    ∃ c m, u = { t with code := c, maxLen := m }.completeOk ∧ genc t = .ok { t with code := c, maxLen := m } ∧
      (∀ k < 256, u.coded k ↔ s.freqAt k ≠ 0#32) ∧ u.PrefixFree := by
  obtain ⟨w, hw, rfl⟩ := exec_succeeded .build s t (by decide) h he
  obtain ⟨c, m, hgenc, htable⟩ := genc_of_built s w hw
  have hok : genc w.completeOk = .ok { w.completeOk with code := c, maxLen := m } := by
    rw [genc_completeOk, hgenc]; rfl
  rw [exec_genc, hok, finish_ok, Host.Outcome.next.injEq] at hu
  subst hu
  obtain ⟨hcoded, hprefix, -⟩ := htable { w.completeOk with code := c, maxLen := m }.completeOk rfl
  exact ⟨c, m, rfl, hok, hcoded, hprefix⟩

/-- Settles O37: laws 1 and 2 hold of every built tree; the Kraft sum is that of the tree's paths. -/
theorem generatedCodesArePrefixFreeAndComplete : Obligations.GeneratedCodesArePrefixFreeAndComplete := by
  intro s t u h he hu
  obtain ⟨c, m, rfl, hgenc, hcoded, hprefix⟩ := exec_genc_of_build s t u h he hu
  refine ⟨rfl, hcoded, hprefix, fun hn => ?_⟩
  obtain ⟨w, hw, rfl⟩ := exec_succeeded .build s t (by decide) h he
  have htree : w.completeOk.TreeWf := (built_of_ok s w hw).completeOk.treeWf
  have hvalid : w.completeOk.treeValid = true := by rw [build_frame s w hw]; rfl
  have htable : c = codeRamOf w.completeOk.treePathCodes :=
    congrArg State.code (Except.ok.inj (hgenc.symm.trans (htree.genc hvalid hn)))
  rw [htable]
  exact htree.complete hn

end Sys2Proof.Machine

/-! Proofs of the statements about the packer and the unpacker (43_bit_packer.md): the stream that PACK stores, the checks
and the walk of UNPACK and DECODE, and the unpack laws. -/

namespace Sys2Proof.Machine

/- ### PACK (R180 to R182) -/

/-- What a successful PACK writes, from the stream of the input (R181). -/
def State.packed (s : State) : State :=
  { s with
    pack := memWrite s.pack 0 (bytesOfBits (ceil8 (s.stream s.input).length) (s.stream s.input) [])
    bitCount := BitVec.ofNat 32 (s.stream s.input).length
    packLen := BitVec.ofNat 32 (ceil8 (s.stream s.input).length) }

theorem coded_input (s : State) :
    (∀ b ∈ s.input, s.coded b.toNat) ↔ ∀ i < s.dataLen.toNat, s.coded (s.dataAt i).toNat := by
  simp [input_eq]

theorem packed_bitCount (s : State) (h : (s.stream s.input).length ≤ 524288) :
    s.packed.bitCount.toNat = (s.stream s.input).length := ofNat32_toNat _ (by omega)

theorem packed_packLen (s : State) (h : (s.stream s.input).length ≤ 524288) :
    s.packed.packLen.toNat = ceil8 (s.stream s.input).length := ofNat32_toNat _ (by rw [ceil8_eq]; omega)

/-- Every successful PACK leaves the packed state of a stream that fits. -/
theorem exec_pack_succeeded (s t : State) (h : exec .pack s = .next t) (he : t.err = false) :
    t = s.packed.completeOk ∧ pack s = .ok s.packed ∧ (∀ b ∈ s.input, s.coded b.toNat) ∧
      (s.stream s.input).length ≤ 524288 := by
  obtain ⟨w, hw, rfl⟩ := exec_succeeded .pack s t (by decide) h he
  obtain ⟨-, hcoded, hfits, rfl⟩ := (pack_eq_ok s w).mp hw
  exact ⟨rfl, hw, hcoded, hfits⟩

/-- Settles O38: the scan passes, and the bytes written hold the stream and 0 bits after it. -/
theorem packStoresTheStream : Obligations.PackStoresTheStream := by
  intro s hlen hcoded hfits
  rw [← input_eq] at hfits ⊢
  have hpack : pack s = .ok s.packed := (pack_eq_ok s _).mpr ⟨hlen, (coded_input s).mpr hcoded, hfits, rfl⟩
  have hB := packed_bitCount s hfits
  have hL := packed_packLen s hfits
  obtain ⟨hbit, hkeep⟩ := packBit_of_write s (s.stream s.input) s.packed rfl
  refine ⟨s.packed, ?completion, hB, by rw [hB, hL, ceil8_eq], ?stream, fun p hp hp' => ?padding, fun j hj => ?rest⟩
  case completion => rw [exec_pack, hpack, finish_ok]; rfl
  case stream => rw [hB]; exact packedBits_of_write s _ _ rfl
  case padding =>
    rw [hbit p (hL ▸ hp')]
    exact List.getD_eq_default _ _ (hB ▸ hp)
  case rest => exact hkeep j (hL ▸ hj)

/-- An error of the scan is PACK's, once the length has passed. -/
theorem exec_pack_scanError (s : State) (hlen : s.dataLen.toNat ≤ 65536) (c : ErrCode) (info : Word)
    (h : s.packScan 0 0 [] s.input = raiseError c info) : exec .pack s = .next (s.commitError c info) := by
  rw [exec_pack, pack, checkDataLen_of_le s hlen, CmdM.bind_ok, h, CmdM.bind_raise, finish_raise]

/-- Settles O39: the scan takes the bytes before byte i and stops there. -/
theorem packReportsTheFirstBadByte : Obligations.PackReportsTheFirstBadByte := by
  intro s i hlen hi hcoded hfits
  obtain ⟨rest, hinput⟩ := input_split s i hi
  have hbefore : ∀ b ∈ (List.range i).map s.dataAt, s.coded b.toNat := by simpa using hcoded
  have hscan := exec_pack_scanError s hlen
  rw [hinput] at hscan
  refine ⟨fun hbad => hscan _ _ ?_, fun hgood hover => hscan _ _ ?_⟩
  · rw [packScan_noCode s _ _ rest hbefore hfits hbad, List.length_map, List.length_range]
  · rw [List.range_succ, List.map_append] at hover
    rw [packScan_overflow s _ _ rest hbefore hfits hgood hover, List.length_map, List.length_range]

/- ### The checks of UNPACK and DECODE (R185, R186) -/

section checks

variable {s : State} (hlen : s.packLen.toNat ≤ 65536)
include hlen

theorem unpackOutput_tableError (c : ErrCode) (info : Word)
    (h : s.checkCodeTable s.bitCount.toNat = raiseError c info) : unpackOutput s = raiseError c info := by
  rw [unpackOutput, if_neg (by simpa [Config.packBytes] using hlen), h, CmdM.bind_raise]

theorem unpackOutput_lengthError (hprefix : s.PrefixFree) (hcode : 0 < s.bitCount.toNat → ∃ k < 256, s.coded k)
    (hne : s.packLen.toNat ≠ ceil8 s.bitCount.toNat) :
    unpackOutput s = raiseError .malformedBitstream 0x40000000#32 := by
  rw [unpackOutput, if_neg (by simpa [Config.packBytes] using hlen),
    (checkCodeTable_ok s _ ()).mpr ⟨hprefix, hcode⟩, CmdM.bind_ok, if_pos hne]

end checks

theorem checkCodeTable_clash (s : State) (B a b : Nat) (h : firstClash s.codeTable = some (a, b)) :
    s.checkCodeTable B = raiseError .invalidCodeTable (BitVec.ofNat 32 (0x00010000 + b * 256 + a)) := by
  simp only [State.checkCodeTable, h]

theorem checkCodeTable_empty (s : State) (B : Nat) (h : ∀ k < 256, ¬ s.coded k) (hB : 0 < B) :
    s.checkCodeTable B = raiseError .invalidCodeTable 0#32 := by
  have hprefix : s.PrefixFree := fun a ha _ _ _ ca _ => absurd ca (h a ha)
  simp only [State.checkCodeTable, (firstClash_codeTable s).mpr hprefix, (codeTable_isEmpty s).mpr h, gt_iff_lt, hB,
    decide_true, Bool.and_true, if_true]

theorem toNat_pos_iff_ne_zero (w : Word) : 0 < w.toNat ↔ w ≠ 0#32 := by
  rw [Nat.pos_iff_ne_zero, ne_eq, ne_eq, not_iff_not]
  exact ⟨fun h => BitVec.eq_of_toNat_eq h, fun h => h ▸ rfl⟩

/-- Settles O40: a clash stops the table's check, an empty table too, and only then the lengths are compared. -/
theorem unpackChecksTableThenLength : Obligations.UnpackChecksTableThenLength := by
  intro s hlen i hi
  refine ⟨fun a b hab hb ca cb hclash hfirst => ?clash, fun hnone hbits => ?empty, fun hprefix hcode hne => ?length⟩
  case clash =>
    have hsome := firstClash_of_first s a b hab hb ca cb hclash hfirst
    exact exec_unpackOutput_error s _ _ (unpackOutput_tableError hlen _ _ (checkCodeTable_clash s _ a b hsome)) i hi
  case empty =>
    have hpos := (toNat_pos_iff_ne_zero _).mpr hbits
    exact exec_unpackOutput_error s _ _ (unpackOutput_tableError hlen _ _ (checkCodeTable_empty s _ hnone hpos)) i hi
  case length =>
    have hcode' := fun hpos => hcode ((toNat_pos_iff_ne_zero _).mp hpos)
    exact exec_unpackOutput_error s _ _ (unpackOutput_lengthError hlen hprefix hcode' hne) i hi

/- ### The walk (R187, R188) -/

theorem exec_unpack_delivers (s : State) (out : List Byte) (h : unpackOutput s = .ok out) :
    exec .unpack s = .next (s.commitOutput out).completeOk := by
  rw [exec_unpack, (unpack_eq_ok s _).mpr ⟨out, h, rfl⟩, finish_ok]

/-- `DATA` after the commit of decoded bytes (R188). -/
theorem ramRead_delivered (m : Memory) (out : List Byte) (i : Nat) :
    ramRead 0#8 (memWrite m 0 out) i = if h : i < out.length then out[i] else ramRead 0#8 m i := by
  rw [ramRead_memWrite]
  by_cases h : i < out.length <;> simp [h]

/-- Settles O41: the bytes are what the walk delivers. -/
theorem unpackDeliversTheCodedBytes : Obligations.UnpackDeliversTheCodedBytes := by
  intro s out hunpackable hlen hcoded hbits
  have hout := (unpackOutput_eq_ok s out).mpr ⟨hunpackable, hlen, hcoded, hbits.symm⟩
  exact ⟨memWrite s.data 0 out, exec_unpack_delivers s out hout, ramRead_delivered s.data out⟩

/-- Each byte that DATA_LEN covers after the commit is one of the delivered bytes. -/
theorem commitOutput_mem (s : State) (out : List Byte) (hlen : out.length ≤ 65536) (i : Nat)
    (hi : i < (s.commitOutput out).dataLen.toNat) : (s.commitOutput out).dataAt i ∈ out := by
  have hmem := List.mem_map_of_mem (f := (s.commitOutput out).dataAt) (List.mem_range.mpr hi)
  rwa [commitOutput_read s out hlen] at hmem

/-- Settles O42: the checks and the walk have passed, and `DATA` reads back what they delivered. -/
theorem unpackSuccessIsSound : Obligations.UnpackSuccessIsSound := by
  intro s t h he
  obtain ⟨w, hw, rfl⟩ := exec_succeeded .unpack s t (by decide) h he
  obtain ⟨out, hout, rfl⟩ := (unpack_eq_ok s w).mp hw
  obtain ⟨hunpackable, hlen, hcoded, hstream⟩ := (unpackOutput_eq_ok s out).mp hout
  have hlength : (s.commitOutput out).dataLen.toNat = out.length := ofNat32_toNat _ (by omega)
  have hread := commitOutput_read s out hlen
  exact ⟨hunpackable, hlength.trans_le hlen, fun i hi => hcoded _ (commitOutput_mem s out hlen i hi),
    (congrArg s.stream hread).trans hstream⟩

/-- The walk over a path inside a code. -/
theorem walkBits_path (s : State) (hp : s.PrefixFree) (B p n : Nat) (path : List Bool) (out : List Byte)
    (rest : List Bool) (h : path = [] ∨ ∃ k < 256, s.coded k ∧ path <+: s.codeBits k ∧ path ≠ s.codeBits k) :
    walkBits s.codeTable B p [] out n (path ++ rest) =
      walkBits s.codeTable B (p + path.length) path out n rest := by
  rcases h with rfl | ⟨k, hk, hcoded, hpre, hne⟩
  · rfl
  · simpa using walkBits_descend s hp B p n [] path out rest k hk hcoded hpre hne

/-- The walk over the codes of a byte sequence and then a path inside a code. -/
theorem unpackOutput_after (s : State) (out : List Byte) (path rest : List Bool) (hs : s.Unpackable)
    (hcoded : ∀ b ∈ out, s.coded b.toNat) (hlen : out.length ≤ 65536)
    (hpath : path = [] ∨ ∃ k < 256, s.coded k ∧ path <+: s.codeBits k ∧ path ≠ s.codeBits k)
    (hbits : s.packedBits s.bitCount.toNat = s.stream out ++ (path ++ rest)) :
    unpackOutput s = walkBits s.codeTable s.bitCount.toNat ((s.stream out).length + path.length) path out.reverse
      out.length rest := by
  obtain ⟨-, hprefix, -, -⟩ := id hs
  rw [unpackOutput_of_unpackable s hs, hbits, walkBits_stream s hprefix _ 0 0 [] out _ hcoded (by omega),
    walkBits_path s hprefix _ _ _ path _ rest hpath]
  simp

/-- The walk that reaches a 65537th symbol stops at its last bit (R187). -/
theorem unpackOutput_overflow (s : State) (out : List Byte) (hs : s.Unpackable)
    (hcoded : ∀ b ∈ out, s.coded b.toNat) (hlen : out.length = 65537)
    (hbits : s.stream out <+: s.packedBits s.bitCount.toNat) :
    unpackOutput s = raiseError .outputOverflow (BitVec.ofNat 32 ((s.stream out).length - 1)) := by
  obtain ⟨x, b, rfl⟩ : ∃ x b, out = x ++ [b] :=
    ⟨_, _, (List.dropLast_append_getLast (List.ne_nil_of_length_pos (by omega))).symm⟩
  obtain ⟨rest, hrest⟩ := hbits
  have hx : x.length = 65536 := by simpa using hlen
  have hxcoded : ∀ c ∈ x, s.coded c.toNat := fun c hc => hcoded c (by simp [hc])
  have hbcoded : s.coded b.toNat := hcoded b (by simp)
  have hstream : s.stream (x ++ [b]) = s.stream x ++ s.codeBits b.toNat := by simp
  obtain ⟨-, hprefix, -, -⟩ := id hs
  rw [hstream, List.append_assoc] at hrest
  rw [unpackOutput_after s x [] (s.codeBits b.toNat ++ rest) hs hxcoded hx.le (.inl rfl) hrest.symm, walkBits_code s hprefix _ _ _ _ _ _ hbcoded,
    if_pos hx, hstream, List.length_append, List.length_nil, Nat.add_zero]

/-- Settles O43: after the codes of the bytes and the path, each of the three errors is the walk's next step. -/
theorem walkErrorsAreReportedAtTheirBit : Obligations.WalkErrorsAreReportedAtTheirBit := by
  intro s out path hs hcoded hpath i hi
  refine ⟨fun hlen b rest hbits hbranch => ?noBranch, fun hlen hne hbits => ?ended, fun hlen hbits => ?overflow⟩
  case noBranch =>
    refine exec_unpackOutput_error s _ _ ?_ i hi
    rw [unpackOutput_after s out path (b :: rest) hs hcoded hlen hpath (by rw [hbits, List.append_assoc]),
      walkBits_noBranch s _ _ _ _ _ b rest hbranch, Nat.add_assoc]
  case ended =>
    refine exec_unpackOutput_error s _ _ ?_ i hi
    rw [unpackOutput_after s out path [] hs hcoded hlen hpath (by rw [hbits, List.append_nil]), walkBits, if_neg hne]
  case overflow => exact exec_unpackOutput_error s _ _ (unpackOutput_overflow s out hs hcoded hlen hbits) i hi

/- ### The unpack laws (R189) -/

/-- Decoded bytes that are the input of s, delivered on u, read as in s. -/
theorem commitOutput_input (s u : State) :
    (u.commitOutput s.input).dataLen = s.dataLen ∧
      ∀ i < s.dataLen.toNat, (u.commitOutput s.input).dataAt i = s.dataAt i := by
  refine ⟨?_, fun i hi => ?_⟩
  · rw [State.commitOutput_dataLen, input_length, BitVec.ofNat_toNat, BitVec.setWidth_eq]
  · rw [State.dataAt, State.commitOutput_data, ramRead_delivered, dif_pos (by rwa [input_length])]
    simp [input_eq]

/-- Settles O44: the artifact decodes to the input on any state that holds it. -/
theorem unpackInvertsPack : Obligations.UnpackInvertsPack := by
  intro s t u h he hprefix hcode hbits hlen hbytes
  obtain ⟨rfl, hpack, -, -⟩ := exec_pack_succeeded s t h he
  have hout := unpackOutput_of_pack s s.packed u hpack hprefix hcode hbits hlen hbytes
  exact ⟨_, exec_unpack_delivers u _ hout, rfl, commitOutput_input s u⟩

/-- The stream of an input that is not empty has a bit. -/
theorem stream_pos (s : State) (hcoded : ∀ b ∈ s.input, s.coded b.toNat) (h : 1 ≤ s.dataLen.toNat) :
    1 ≤ (s.stream s.input).length := by
  obtain ⟨b, hb⟩ := List.exists_mem_of_length_pos (l := s.input) (by rwa [input_length])
  exact List.length_pos_of_mem
    (List.mem_flatMap.mpr ⟨b, hb, List.head_mem (codeBits_ne_nil s b.toNat (hcoded b hb))⟩)

/-- Settles O45: the table passes its check, and the lowered `PACK_LEN` no longer holds `BIT_COUNT` bits. -/
theorem truncatedArtifactIsRejected : Obligations.TruncatedArtifactIsRejected := by
  intro s t u h he hprefix hdata hcode hbits hlen i hi
  obtain ⟨rfl, -, hcoded, hfits⟩ := exec_pack_succeeded s t h he
  have hpos := stream_pos s hcoded hdata
  have hB : u.bitCount.toNat = (s.stream s.input).length := by
    rw [hbits]
    exact packed_bitCount s hfits
  have hL : u.packLen.toNat = ((s.stream s.input).length + 7) / 8 - 1 := by
    have hpacked := packed_packLen s hfits
    rw [ceil8_eq] at hpacked
    rw [hlen, State.completeOk_packLen, BitVec.toNat_sub, hpacked]
    simp
    omega
  obtain ⟨b, hb⟩ := List.exists_mem_of_length_pos (l := s.input) (by rwa [input_length])
  have hsome : ∃ k < 256, u.coded k := ⟨b.toNat, b.isLt, (coded_congr s u hcode _ b.isLt).mpr (hcoded b hb)⟩
  exact (unpackChecksTableThenLength u (by omega) i hi).2.2 (prefixFree_congr s u hcode hprefix) (fun _ => hsome)
    (by rw [hB, hL]; omega)

/- ### The padding (R189 law 3) -/

/-- The checks and the walk see `PACK` through the meaningful bits only. -/
theorem unpackOutput_withPack (s : State) (m : Memory)
    (h : ∀ p < s.bitCount.toNat, State.packBit { s with pack := m } p = s.packBit p) :
    unpackOutput { s with pack := m } = unpackOutput s := by
  have hbits : State.packedBits { s with pack := m } s.bitCount.toNat = s.packedBits s.bitCount.toNat :=
    List.map_congr_left fun p hp => h p (List.mem_range.mp hp)
  unfold unpackOutput
  rw [show State.packedBits { s with pack := m } (State.bitCount { s with pack := m }).toNat = _ from hbits]
  rfl

/-- A completion that leaves `PACK` alone is the same whatever `PACK` holds. -/
theorem finish_withPack (s t : State) (m : Memory) (r : CmdM State) (h : finish s r = .next t) :
    finish { s with pack := m } (r.map fun w => { w with pack := m }) = .next { t with pack := m } := by
  rcases (finish_eq_next s r t).mp h with ⟨w, rfl, rfl⟩ | ⟨c, info, rfl, rfl⟩ <;> rfl

/-- Settles O46: both commands are the checks and the walk, then a commit that does not touch `PACK`. -/
theorem paddingIsNeverRead : Obligations.PaddingIsNeverRead := by
  intro s m hbits i hi t h
  have hout := unpackOutput_withPack s m hbits
  simp only [List.mem_cons, List.not_mem_nil, or_false] at hi
  rcases hi with rfl | rfl
  · have hunpack : unpack { s with pack := m } = (unpack s).map fun w => { w with pack := m } := by
      rw [unpack, unpack, hout, CmdM.map_bind]; rfl
    rw [exec_unpack, hunpack]
    exact finish_withPack s t m _ h
  · have hdecode : decodeCommand { s with pack := m } = (decodeCommand s).map fun w => { w with pack := m } := by
      rw [decodeCommand, decodeCommand, hout, CmdM.map_bind]
      refine CmdM.bind_agree _ _ _ _ rfl fun out => ?_
      dsimp only
      split <;> rfl
    rw [exec_decode, hdecode]
    exact finish_withPack s t m _ h

end Sys2Proof.Machine

/-! Proofs of the statements about the checksum (44_crc.md) and the sequencer (45_control.md): what CRC-32 detects, ENCODE
of a non-empty input, DECODE of an artifact. -/

namespace Sys2Proof.Machine

/- ### CRC-32 (R210, R212) -/

/-- Settles O48: four fixed inputs, evaluated. -/
theorem crcHasItsCheckValues : Obligations.CrcHasItsCheckValues := by
  refine ⟨?digits, ?empty, ?zero, ?ones⟩
  case digits => decide +kernel
  case empty => decide
  case zero => decide
  case ones => decide

/-- The top bit of a bit step's result is the bit it shifted out: the polynomial has its top bit set. -/
theorem crcBit_top (c : Word) : (crcBit c).getLsbD 31 = c.getLsbD 0 := by
  unfold crcBit
  split
  · next h => rw [BitVec.getLsbD_xor, BitVec.getLsbD_ushiftRight, BitVec.getLsbD_of_ge c _ (by decide), h]; decide
  · next h => rw [BitVec.getLsbD_ushiftRight, BitVec.getLsbD_of_ge c _ (by decide), eq_false_of_ne_true h]

/-- A bit step loses nothing. -/
theorem crcBit_injective : Function.Injective crcBit := by
  intro x y h
  have hlow : x.getLsbD 0 = y.getLsbD 0 := by rw [← crcBit_top, ← crcBit_top, h]
  have hhigh : x >>> 1 = y >>> 1 := by
    unfold crcBit at h
    rw [hlow] at h
    split at h
    · exact (BitVec.xor_left_inj _).mp h
    · exact h
  apply BitVec.eq_of_getLsbD_eq
  intro i _
  cases i with
  | zero => exact hlow
  | succ i => simpa [Nat.add_comm] using congrArg (BitVec.getLsbD · i) hhigh

/-- Steps that lose nothing, one after the other, lose nothing. -/
theorem foldl_injective {α β : Type} (f : α → β → α) (hf : ∀ b, Function.Injective fun a => f a b) (l : List β) :
    Function.Injective fun a => l.foldl f a := by
  induction l with
  | nil => exact Function.injective_id
  | cons b l ih => exact fun x y h => hf b (ih h)

/-- The eight bit steps of one byte (R210). -/
def crcBits (c : Word) : Word := (List.range 8).foldl (fun x _ => crcBit x) c

theorem crcByte_eq (c : Word) (b : Byte) : crcByte c b = crcBits (c ^^^ b.setWidth 32) := rfl

theorem crcBits_injective : Function.Injective crcBits := foldl_injective _ (fun _ => crcBit_injective) _

theorem crcByte_injective_state (b : Byte) : Function.Injective fun c => crcByte c b := by
  intro c d (h : crcByte c b = crcByte d b)
  rw [crcByte_eq, crcByte_eq] at h
  exact (BitVec.xor_left_inj _).mp (crcBits_injective h)

theorem crcByte_injective_byte (c : Word) : Function.Injective (crcByte c) := by
  intro a b h
  rw [crcByte_eq, crcByte_eq] at h
  have hwide : a.setWidth 32 = b.setWidth 32 := (BitVec.xor_right_inj _).mp (crcBits_injective h)
  apply BitVec.eq_of_toNat_eq
  rw [← BitVec.toNat_setWidth_of_le (by decide : 8 ≤ 32), hwide, BitVec.toNat_setWidth_of_le (by decide)]

/-- Settles O49: the changed byte changes the checksum's state, and the bytes after it keep the difference. -/
theorem crcDetectsAChangedByte : Obligations.CrcDetectsAChangedByte := by
  intro pre post a b hab h
  have hstates := (BitVec.xor_left_inj _).mp h
  simp only [List.foldl_append, List.foldl_cons] at hstates
  exact hab (crcByte_injective_byte _ (foldl_injective _ crcByte_injective_state post hstates))

/- ### ENCODE of a non-empty input (R227) -/

/-- The completion of a command hides nothing from PACK. -/
theorem pack_completeOk (s : State) : pack s.completeOk = (pack s).map State.completeOk := by
  unfold pack
  rw [CmdM.map_bind]
  refine CmdM.bind_agree _ _ _ _ rfl fun _ => ?_
  rw [CmdM.map_bind]
  exact CmdM.bind_agree _ _ _ _ (packScan_congr s.completeOk s rfl 0 0 [] s.input) fun _ => rfl

theorem exec_completeOk_of_rule (i : Instr) (s w : State) (hi : i ≠ .srst) (h : commandRule i s = .ok w) :
    exec i s = .next w.completeOk := by
  rw [exec_eq_finish i s hi, h, finish_ok]

/-- The input is the same before PACK as it was before BUILD. -/
theorem input_after_units {s a b : State} {f : Ram Word} (ha : build { s with freq := f } = .ok a)
    (hb : genc a = .ok b) : b.input = s.input := by
  rw [genc_frame _ _ hb, build_frame _ _ ha]; rfl

/-- ENCODE succeeds with the results of its units (R227). -/
theorem encodeCommand_of_units {s a b c : State} (h1 : 1 ≤ s.dataLen.toNat) (h2 : s.dataLen.toNat ≤ 65536)
    (ha : build { s with freq := inputHistogram s.input } = .ok a) (hb : genc a = .ok b) (hc : pack b = .ok c) :
    encodeCommand s = .ok { c with crcResult := crc32 s.input } := by
  have hne : s.dataLen ≠ 0#32 := (toNat_pos_iff_ne_zero _).mp h1
  exact (encodeCommand_eq_ok s _).mpr ⟨h2, .inr ⟨hne, (encodeNonEmpty_eq_ok s _).mpr ⟨a, b, c, ha, hb, hc, rfl⟩⟩⟩

theorem inputHistogram_toNat (s : State) (h : s.dataLen.toNat ≤ 65536) (k : Nat) (hk : k < 256) :
    (ramRead 0#32 (inputHistogram s.input) k).toNat =
      (List.range s.dataLen.toNat).countP (fun i => (s.dataAt i).toNat == k) := by
  have hle := symbolCount_le s.input k
  rw [input_length] at hle
  rw [inputHistogram_read _ k hk, ofNat32_toNat _ (by omega), symbolCount_input]

/-- Settles O51: the units run as commands, each on the completion of the one before, which hides nothing from it. -/
theorem encodeRunsTheUnitsAndNeverFails : Obligations.EncodeRunsTheUnitsAndNeverFails := by
  intro s h1 h2
  obtain ⟨a, b, c, ha, hb, hc, -, -⟩ := encode_units s h1 h2
  have hgenc : genc a.completeOk = .ok b.completeOk := by rw [genc_completeOk, hb]; rfl
  have hpack : pack b.completeOk = .ok c.completeOk := by rw [pack_completeOk, hc]; rfl
  refine ⟨inputHistogram s.input, a.completeOk, b.completeOk, c.completeOk, inputHistogram_toNat s h2,
    exec_completeOk_of_rule .build _ a (by decide) ha, rfl,
    exec_completeOk_of_rule .genc _ b.completeOk (by decide) hgenc, rfl,
    exec_completeOk_of_rule .pack _ c.completeOk (by decide) hpack, rfl, ?_⟩
  rw [exec_completeOk_of_rule .encode s _ (by decide) (encodeCommand_of_units h1 h2 ha hb hc), ← input_eq,
    pack_frame _ _ hc, genc_frame _ _ hb, build_frame _ _ ha]
  rfl

/- ### ENCODE of one repeated byte (R230 law 2) -/

/-- A table with one present symbol. -/
theorem presentSymbols_eq_singleton (s : State) (a : Nat) (h : ∀ k < 256, s.freqAt k ≠ 0#32 ↔ k = a) (ha : a < 256) :
    s.presentSymbols = [a] := by
  refine List.perm_singleton.mp ((List.perm_ext_iff_of_nodup ?_ (List.nodup_singleton a)).mpr fun k => ?_)
  · exact (presentSymbols_sorted s).imp fun h => h.ne
  · rw [mem_presentSymbols, List.mem_singleton]
    exact ⟨fun ⟨hk, hp⟩ => (h k hk).mp hp, fun e => e ▸ ⟨ha, (h a ha).mpr rfl⟩⟩

theorem stream_of_bitZero (s : State) (l : List Byte) (h : ∀ b ∈ l, s.codeAt b.toNat = CodeEntry.bitZero) :
    s.stream l = List.replicate l.length false := by
  induction l with
  | nil => rfl
  | cons b l ih =>
    have hbits : s.codeBits b.toNat = [false] := by rw [State.codeBits, h b (by simp)]; decide
    rw [stream_cons, hbits, ih fun c hc => h c (by simp [hc])]; rfl

/-- A byte of `PACK` whose stream bits are 0 is 0 (R64). -/
theorem packAt_eq_zero (s : State) (j : Nat) (h : ∀ q < 8, s.packBit (8 * j + q) = false) : s.packAt j = 0#8 := by
  apply BitVec.eq_of_getLsbD_eq
  intro i hi
  have hbit := h (7 - i) (by omega)
  rw [State.packBit, show (8 * j + (7 - i)) / 8 = j by omega, show 7 - (8 * j + (7 - i)) % 8 = i by omega] at hbit
  rw [hbit, BitVec.getLsbD_zero]

/-- PACK of bytes that all have the code "0": one bit for each, and bytes of 0 (R181). -/
theorem packed_of_bitZero (s : State) (hlen : s.dataLen.toNat ≤ 65536)
    (h : ∀ b ∈ s.input, s.codeAt b.toNat = CodeEntry.bitZero) :
    s.packed.bitCount = s.dataLen ∧ ∀ j < s.packed.packLen.toNat, s.packed.packAt j = 0#8 := by
  have hstream := stream_of_bitZero s s.input h
  have hfits : (s.stream s.input).length ≤ 524288 := by
    rw [hstream, List.length_replicate, input_length]
    omega
  refine ⟨BitVec.eq_of_toNat_eq ?_, fun j hj => packAt_eq_zero _ j fun q hq => ?_⟩
  · rw [packed_bitCount s hfits, hstream, List.length_replicate, input_length]
  · rw [packed_packLen s hfits] at hj
    rw [(packBit_of_write s (s.stream s.input) s.packed rfl).1 _ (by omega), hstream]
    exact List.getElem?_getD_replicate_default_eq _ _ _

/-- The tree of one present symbol has one leaf, whose code is "0" (R160). -/
theorem genc_of_singleton (s t u : State) (a : Nat) (hs : s.presentSymbols = [a]) (ht : build s = .ok t)
    (hu : genc t = .ok u) : u.codeAt a = CodeEntry.bitZero := by
  have b := built_of_ok s t ht
  have hvalid : t.treeValid = true := by rw [build_frame s t ht]
  have hlen : s.presentSymbols.length = 1 := by rw [hs]; rfl
  have hleaves : t.numLeaves = 1#9 := BitVec.eq_of_toNat_eq (b.leaves.trans hlen)
  have hsym : (t.nodeAt 0).sym.toNat = a := by
    rw [(b.leaf_sym 0 (by omega)).1]
    simp [hs]
  obtain rfl := Except.ok.inj ((genc_single t hvalid hleaves).symm.trans hu)
  rw [State.codeAt, codeRamOf_single, hsym, if_pos rfl]

/-- Settles O52: the input has one symbol, so the tree has one leaf, and each byte is one 0 bit. -/
theorem encodeOfOneRepeatedByte : Obligations.EncodeOfOneRepeatedByte := by
  intro s x h1 h2 hall
  obtain ⟨a, b, c, ha, hb, hc, -, -⟩ := encode_units s h1 h2
  have hinput : ∀ y ∈ s.input, y = x := by
    rw [input_eq, List.forall_mem_map]
    exact fun i hi => hall i (List.mem_range.mp hi)
  have hpresent : ∀ k < 256, State.freqAt { s with freq := inputHistogram s.input } k ≠ 0#32 ↔ k = x.toNat := by
    intro k hk
    rw [← toNat_pos_iff_ne_zero, State.freqAt, inputHistogram_toNat s h2 k hk, ← symbolCount_input]
    refine (symbolCount_pos s.input k).trans ⟨fun ⟨y, hy, e⟩ => by rw [← e, hinput y hy], fun e => ?_⟩
    obtain ⟨y, hy⟩ := List.exists_mem_of_length_pos (l := s.input) (by rwa [input_length])
    exact ⟨y, hy, by rw [hinput y hy, e]⟩
  have hcode := genc_of_singleton _ a b x.toNat (presentSymbols_eq_singleton _ _ hpresent x.isLt) ha hb
  have hb_input := input_after_units ha hb
  have hb_len : b.dataLen = s.dataLen := by rw [genc_frame _ _ hb, build_frame _ _ ha]
  obtain ⟨hbits, hbytes⟩ := packed_of_bitZero b (hb_len ▸ h2) fun y hy => by
    rw [hinput y (hb_input ▸ hy), hcode]
  obtain ⟨-, -, -, rfl⟩ := (pack_eq_ok b c).mp hc
  exact ⟨_, exec_completeOk_of_rule .encode s _ (by decide) (encodeCommand_of_units h1 h2 ha hb hc), rfl, hcode,
    hbits.trans hb_len, hbytes⟩

/- ### DECODE (R228, R230) -/

theorem exec_decode_delivers (s : State) (out : List Byte) (hout : unpackOutput s = .ok out)
    (hcrc : crc32 out = s.crcExpect) :
    exec .decode s = .next { s.commitOutput out with crcResult := crc32 out }.completeOk := by
  rw [exec_decode, (decodeCommand_eq_ok s _).mpr ⟨out, hout, hcrc, rfl⟩, finish_ok]

/-- Settles O53: the walk delivers the bytes and their checksum passes. -/
theorem decodeDeliversTheVerifiedBytes : Obligations.DecodeDeliversTheVerifiedBytes := by
  intro s out hunpackable hlen hcoded hbits hcrc
  have hout := (unpackOutput_eq_ok s out).mpr ⟨hunpackable, hlen, hcoded, hbits.symm⟩
  exact ⟨memWrite s.data 0 out, exec_decode_delivers s out hout hcrc, ramRead_delivered s.data out⟩

/-- A table without codes and an empty stream decode to no byte. -/
theorem unpackOutput_of_nothing (u : State) (hcode : ∀ k < 256, u.codeAt k = CodeEntry.zero)
    (hbits : u.bitCount = 0#32) (hlen : u.packLen = 0#32) : unpackOutput u = .ok [] := by
  have hnone : ∀ k < 256, ¬ u.coded k := fun k hk h => h (by rw [hcode k hk])
  rw [unpackOutput_eq_ok, State.Unpackable, hbits, hlen]
  exact ⟨⟨by decide, fun a ha _ _ _ ca => absurd ca (hnone a ha), by simp, by decide⟩, by decide, by simp, rfl⟩

/-- What ENCODE made of an input decodes to it on every state that holds the artifact, and ENCODE does not fail. -/
theorem unpackOutput_of_encode (s t u : State) (hlen : s.dataLen.toNat ≤ 65536) (h : exec .encode s = .next t)
    (hcode : ∀ k < 256, u.codeAt k = t.codeAt k) (hbits : u.bitCount = t.bitCount) (hpackLen : u.packLen = t.packLen)
    (hbytes : ∀ j < t.packLen.toNat, u.packAt j = t.packAt j) :
    t.err = false ∧ t.crcResult = crc32 s.input ∧ unpackOutput u = .ok s.input := by
  by_cases h0 : s.dataLen = 0#32
  · have hinput : s.input = [] := by rw [input_eq, h0]; rfl
    obtain rfl := Host.Outcome.next.inj ((exec_encode_empty s h0).symm.trans h)
    rw [hinput]
    exact ⟨rfl, rfl, unpackOutput_of_nothing u (fun k hk => hcode k hk) hbits hpackLen⟩
  · have h1 : 1 ≤ s.dataLen.toNat := (toNat_pos_iff_ne_zero _).mpr h0
    obtain ⟨a, b, c, ha, hb, hc, hprefix, -⟩ := encode_units s h1 hlen
    have hexec := exec_completeOk_of_rule .encode s _ (by decide) (encodeCommand_of_units h1 hlen ha hb hc)
    obtain rfl := Host.Outcome.next.inj (hexec.symm.trans h)
    have hcode' : ∀ k < 256, u.codeAt k = b.codeAt k := fun k hk => by
      rw [hcode k hk, pack_frame _ _ hc]; rfl
    exact ⟨rfl, rfl, input_after_units ha hb ▸ unpackOutput_of_pack b c u hc hprefix hcode' hbits hpackLen hbytes⟩

/-- Settles O55: the artifact decodes to the input, whose checksum is CRC_EXPECT. -/
theorem decodeInvertsEncode : Obligations.DecodeInvertsEncode := by
  intro s t u hlen h hcode hbits hpackLen hcrc hbytes
  obtain ⟨herr, hresult, hout⟩ := unpackOutput_of_encode s t u hlen h hcode hbits hpackLen hbytes
  exact ⟨herr, _, exec_decode_delivers u s.input hout (hresult.symm.trans hcrc.symm), rfl, commitOutput_input s u⟩

end Sys2Proof.Machine

/-! Proof of the liveness statement (30_encoding.md sections 4 and 6): every command ends when the tree state is
consistent, and so does every `WAIT`. -/

namespace Sys2Proof.Machine

/- ### Every command ends (R96) -/

/-- ENCODE is never stuck, whatever tree the state holds: it walks only the tree it has built. -/
theorem encodeCommand_neverStuck (s : State) : NeverStuck (encodeCommand s) := by
  refine .bind _ _ (checkDataLen_neverStuck s) fun _ hlen => ?_
  split
  · exact .ok _
  · next hne =>
    have hlen := (checkDataLen_eq_ok s _).mp hlen
    obtain ⟨a, b, c, ha, hb, hc, -, -⟩ := encode_units s ((toNat_pos_iff_ne_zero _).mpr hne) hlen
    rw [(encodeNonEmpty_eq_ok s _).mpr ⟨a, b, c, ha, hb, hc, rfl⟩]
    exact .ok _

theorem commandRule_neverStuck (i : Instr) (s : State) (h : s.TreeConsistent) : NeverStuck (commandRule i s) := by
  cases i
  case nop | srst | hclr | cclr => exact .ok _
  case hacc => exact hacc_neverStuck s
  case build => exact build_neverStuck s
  case genc => exact genc_neverStuck s h.1
  case pack => exact pack_neverStuck s
  case unpack => exact unpack_neverStuck s
  case crc => exact crcCommand_neverStuck s
  case encode => exact encodeCommand_neverStuck s
  case decode => exact decodeCommand_neverStuck s

theorem exec_ends (i : Instr) (s : State) (h : s.TreeConsistent) : ∃ t, exec i s = .next t := by
  by_cases hi : i = .srst
  · subst hi; exact ⟨_, exec_srst s⟩
  · rw [exec_eq_finish i s hi]
    exact finish_next_of_not_stuck s _ (commandRule_neverStuck i s h)

/- ### The turns between the reads of a `WAIT` -/

theorem exec_inbox (i : Instr) (s t : State) (h : exec i s = .next t) : t.inbox = s.inbox := by
  by_cases hi : i = .srst
  · subst hi; cases h; rfl
  · rcases exec_cases i s t hi h with ⟨u, hu, rfl⟩ | ⟨c, info, -, -, rfl⟩
    · exact (congrArg State.inbox (commandRule_keepsControl i s u hu) :)
    · rfl

/-- How many turns of the engine lead to idle at most: SRST, run from a busy state, leaves INIT. -/
def Phase.turnsToIdle (p : Phase) : Nat :=
  match p with
  | .idle => 0
  | .init => 1
  | .busy => 2

theorem exec_turnsToIdle (i : Instr) (s t : State) (h : exec i s = .next t) : t.phase.turnsToIdle ≤ 1 := by
  by_cases hi : i = .srst
  · subst hi; cases h; exact le_refl 1
  · rcases exec_cases i s t hi h with ⟨u, -, rfl⟩ | ⟨c, info, -, -, rfl⟩ <;> exact Nat.zero_le 1

/-- The engine's turn goes on, takes no turn from the inbox, and comes nearer to idle. -/
theorem engineStep_ends (s : State) (h : s.TreeConsistent) :
    ∃ t, engineStep s = .next t ∧ t.inbox = s.inbox ∧
      (s.phase ≠ .idle → t.phase.turnsToIdle < s.phase.turnsToIdle) := by
  cases hp : s.phase with
  | idle => exact ⟨s, engineStep_idle s hp, rfl, fun hne => absurd rfl hne⟩
  | init => exact ⟨_, engineStep_init s hp, rfl, fun _ => Nat.zero_lt_one⟩
  | busy =>
    cases hd : decode s.pending with
    | ok i =>
      obtain ⟨t, ht⟩ := exec_ends i s h
      exact ⟨t, (engineStep_busy s i hp hd).trans ht, exec_inbox i s t ht,
        fun _ => Nat.lt_succ_of_le (exec_turnsToIdle i s t ht)⟩
    | error e => exact ⟨_, engineStep_illegal s e hp hd, rfl, fun _ => Nat.zero_lt_two⟩

/-- A turn of the engine or of the reset input goes on, and only that turn leaves the inbox. -/
theorem step_turn_ends (s : State) (h : s.TreeConsistent) (x : Turn) (es : List Event)
    (hin : s.inbox = turnEvent x :: es) : ∃ t, step s = .next t ∧ t.TreeConsistent ∧ t.inbox = es := by
  suffices ∃ t, step s = .next t ∧ t.inbox = es by
    obtain ⟨t, ht, hes⟩ := this
    exact ⟨t, ht, stepKeepsTheTreeConsistent s t h ht, hes⟩
  cases x with
  | engine =>
    obtain ⟨t, ht, hes, -⟩ := engineStep_ends { s with inbox := es } h
    exact ⟨t, (step_engine s es hin).trans ht, hes⟩
  | reset => exact ⟨_, step_reset s es hin, rfl⟩

/- ### A `WAIT` ends (R99) -/

/-- From state s the host's `WAIT` before `rest` ends: after at least one step with a read of `STATUS` that has bit 0 = 0
and an idle engine, and until then the host is at it. -/
def State.WaitEnds (s : State) (rest : List Event) : Prop :=
  ∃ n t, 1 ≤ n ∧ runSteps n s = .next t ∧ t.inbox = rest ∧ t.phase = .idle ∧
    t.reply = some (.read .ok t.statusWord) ∧ t.statusWord.getLsbD 0 = false ∧
    ∀ m < n, ∃ (u : State) (between : List Turn) (more : List (List Turn)), runSteps m s = .next u ∧
      u.inbox = between.map turnEvent ++ .wait more :: rest

/-- One more step before, from a state in which the host is at the `WAIT`. -/
theorem State.WaitEnds.of_step {s t : State} {rest : List Event} (hstep : step s = .next t) (between : List Turn)
    (more : List (List Turn)) (hin : s.inbox = between.map turnEvent ++ .wait more :: rest) (h : t.WaitEnds rest) :
    s.WaitEnds rest := by
  obtain ⟨n, u, -, hrun, hrest, hidle, hreply, hbit, hbefore⟩ := h
  have hnext : ∀ k, runSteps (k + 1) s = runSteps k t := fun k => by simp only [runSteps, hstep]
  refine ⟨n + 1, u, by omega, (hnext n).trans hrun, hrest, hidle, hreply, hbit, fun m hm => ?_⟩
  cases m with
  | zero => exact ⟨s, between, more, rfl, hin⟩
  | succ m => rw [hnext m]; exact hbefore m (by omega)

/-- An idle engine ends the `WAIT` with its first read. -/
theorem waitEnds_idle (s : State) (gaps : List (List Turn)) (rest : List Event) (hin : s.inbox = .wait gaps :: rest)
    (hidle : s.phase = .idle) : s.WaitEnds rest := by
  have hread : State.phase { s with reply := some (.read .ok s.statusWord), inbox := rest } = .idle := hidle
  refine ⟨1, _, le_refl 1, ?_, rfl, hread, rfl, ?_, fun m hm => ?_⟩
  · simp only [runSteps, step_wait_idle s gaps rest hin hidle]
  · rw [statusWord_bit0, hread]; rfl
  · obtain rfl : m = 0 := by omega
    exact ⟨s, [], gaps, rfl, hin⟩

/-- The turns of a gap pass, and then the host is at its next read. -/
theorem waitEnds_turns (turns : List Turn) (more : List (List Turn)) (rest : List Event)
    (hwait : ∀ t : State, t.TreeConsistent → t.inbox = .wait more :: rest → t.WaitEnds rest) (s : State)
    (h : s.TreeConsistent) (hin : s.inbox = turns.map turnEvent ++ .wait more :: rest) : s.WaitEnds rest := by
  induction turns generalizing s with
  | nil => exact hwait s h hin
  | cons x turns ih =>
    obtain ⟨t, ht, htree, hes⟩ := step_turn_ends s h x _ hin
    exact .of_step ht (x :: turns) more hin (ih t htree hes)

/-- The read of a `WAIT` by a busy engine keeps the host at it, with the turns of the next gap before the next read. -/
theorem waitEnds_read (s : State) (h : s.TreeConsistent) (gaps : List (List Turn)) (rest : List Event)
    (hin : s.inbox = .wait gaps :: rest) (hbusy : s.phase ≠ .idle)
    (hagain : ∀ t : State, t.TreeConsistent → t.phase = s.phase → t.inbox = waitAgain gaps ++ rest →
      t.WaitEnds rest) : s.WaitEnds rest := by
  have hstep := step_wait_busy s gaps rest hin hbusy
  exact .of_step hstep [] gaps hin (hagain _ (stepKeepsTheTreeConsistent s _ h hstep) rfl rfl)

/-- A `WAIT` without gaps left ends: an engine's turn comes before each further read, and two of them lead to idle. -/
theorem waitEnds_noGaps (rest : List Event) (s : State) (h : s.TreeConsistent) (hin : s.inbox = .wait [] :: rest) :
    s.WaitEnds rest := by
  induction hd : s.phase.turnsToIdle using Nat.strong_induction_on generalizing s with
  | _ d ih =>
    by_cases hidle : s.phase = .idle
    · exact waitEnds_idle s [] rest hin hidle
    · refine waitEnds_read s h [] rest hin hidle fun t htree hphase hes => ?_
      obtain ⟨u, hu, hinbox, hnearer⟩ := engineStep_ends { t with inbox := .wait [] :: rest } htree
      have hstep : step t = .next u := (step_engine t _ hes).trans hu
      have hcloser : u.phase.turnsToIdle < t.phase.turnsToIdle := hnearer (hphase ▸ hidle)
      rw [hphase, hd] at hcloser
      exact .of_step hstep [.engine] [] hes (ih _ hcloser u (stepKeepsTheTreeConsistent t u htree hstep) hinbox rfl)

/-- A `WAIT` ends, gap by gap. -/
theorem waitEnds (gaps : List (List Turn)) (rest : List Event) (s : State) (h : s.TreeConsistent)
    (hin : s.inbox = .wait gaps :: rest) : s.WaitEnds rest := by
  induction gaps generalizing s with
  | nil => exact waitEnds_noGaps rest s h hin
  | cons g more ih =>
    by_cases hidle : s.phase = .idle
    · exact waitEnds_idle s _ rest hin hidle
    · refine waitEnds_read s h _ rest hin hidle fun t htree _ hes => ?_
      rw [waitAgain, List.append_assoc] at hes
      exact waitEnds_turns g more rest ih t htree hes

/-- Settles O56: no rule is stuck on a consistent tree state, and the induction over the gaps brings every `WAIT` to its
last read. -/
theorem everyCommandEnds : Obligations.EveryCommandEnds :=
  fun s h => ⟨fun i => exec_ends i s h, fun gaps rest hin => waitEnds gaps rest s h hin⟩

end Sys2Proof.Machine
